-- ==== Sys2Proof/Word.lean ====
section
/-! DEFINITION. The word types of the CORE: bytes, 32-bit register words, binary32 patterns and
the vectors of them that the datapath holds (spec 00_scope.md R12, R17). -/

namespace Sys2Proof

/-- One byte of system memory (20_memory.md R61). -/
abbrev Byte := BitVec 8

/-- One 32-bit register-window word (10_state.md R21). -/
abbrev Word := BitVec 32

/-- An IEEE 754 binary32 value, held as its 32-bit pattern: sign bit 31, exponent bits 30:23,
fraction bits 22:0 (00_scope.md R12). -/
abbrev F32 := BitVec 32

/-- A BlockVector: 192 values, planar (00_scope.md R15, R17). -/
abbrev BlockVec := Vector F32 192

/-- Eight values, one per coefficient channel: a CoefficientVector or one half of a TileRange
(00_scope.md R17). -/
abbrev Coeffs := Vector F32 8

end Sys2Proof
end

