-- ==== Sys2Proof/Syntax.lean ====
section
/-! DEFINITION. The command set NTC-CMD version 1: one constructor per row of
spec/opcode_table.json (30_encoding.md R82). -/

namespace Sys2Proof

/-- The 15 commands. `k` is the block index operand of the four indexed ones (30_encoding.md R81);
`Instr.wellFormed` bounds it. -/
inductive Instr
  | nop
  | encTile
  | decTile
  | vecLoad (k : Nat)
  | vecStore (k : Nat)
  | projFwd
  | projInv
  | rangeClr
  | rangeAcc
  | quant
  | dequant
  | hdrStore
  | hdrLoad
  | recStore (k : Nat)
  | recLoad (k : Nat)
  deriving DecidableEq, Repr

/-- The mnemonic of each command (30_encoding.md R82). -/
def Instr.mnemonic : Instr → String
  | .nop => "NOP"
  | .encTile => "ENC_TILE"
  | .decTile => "DEC_TILE"
  | .vecLoad _ => "VEC_LOAD"
  | .vecStore _ => "VEC_STORE"
  | .projFwd => "PROJ_FWD"
  | .projInv => "PROJ_INV"
  | .rangeClr => "RANGE_CLR"
  | .rangeAcc => "RANGE_ACC"
  | .quant => "QUANT"
  | .dequant => "DEQUANT"
  | .hdrStore => "HDR_STORE"
  | .hdrLoad => "HDR_LOAD"
  | .recStore _ => "REC_STORE"
  | .recLoad _ => "REC_LOAD"

/-- The block index of an indexed command, none for the others (30_encoding.md R81, R82). -/
def Instr.blockIndex : Instr → Option Nat
  | .vecLoad k => some k
  | .vecStore k => some k
  | .recStore k => some k
  | .recLoad k => some k
  | .nop => none
  | .encTile => none
  | .decTile => none
  | .projFwd => none
  | .projInv => none
  | .rangeClr => none
  | .rangeAcc => none
  | .quant => none
  | .dequant => none
  | .hdrStore => none
  | .hdrLoad => none

end Sys2Proof
end

