-- ==== Sys2Proof/WellFormed.lean ====
section
/-! DEFINITION. Which commands have a word: the block index fits the 16-bit field K (30_encoding.md
R80, R81, R92). -/

namespace Sys2Proof

/-- The index of an indexed command is at most 65535; a command without one is always well-formed
(30_encoding.md R81, R92: an assembler refuses k > 65535). -/
def Instr.wellFormed (i : Instr) : Bool :=
  match i.blockIndex with
  | none => true
  | some k => decide (k < 65536)

end Sys2Proof
end

