-- ==== Sys2Proof/Decode.lean ====
section
/-! DEFINITION. The command word (30_encoding.md R80 to R86): decoder, encoder, the opcode table as
match and mask rows, and the assembler of R92. -/

namespace Sys2Proof

/-- Why a word is illegal (30_encoding.md R84). -/
inductive DecodeError
  /-- (a): OP is not in the table of R82. -/
  | reservedOp
  /-- (b): RSV is not zero. -/
  | reservedBits
  /-- (c): OP is non-indexed and K is not zero. -/
  | strayIndex
  deriving DecidableEq, Repr

/-- Field OP, bits 7:0 (30_encoding.md R80). -/
def opField (w : Word) : BitVec 8 := w.extractLsb' 0 8

/-- Field K, bits 23:8 (30_encoding.md R80). -/
def kField (w : Word) : BitVec 16 := w.extractLsb' 8 16

/-- Field RSV, bits 31:24 (30_encoding.md R80). -/
def rsvField (w : Word) : BitVec 8 := w.extractLsb' 24 8

/-- The row OP selects, with `k` as the operand of an indexed row (30_encoding.md R82). -/
def instrOfOp (op k : Nat) : Option Instr :=
  match op with
  | 0x00 => some .nop
  | 0x01 => some .encTile
  | 0x02 => some .decTile
  | 0x10 => some (.vecLoad k)
  | 0x11 => some (.vecStore k)
  | 0x20 => some .projFwd
  | 0x21 => some .projInv
  | 0x30 => some .rangeClr
  | 0x31 => some .rangeAcc
  | 0x40 => some .quant
  | 0x41 => some .dequant
  | 0x50 => some .hdrStore
  | 0x51 => some .hdrLoad
  | 0x52 => some (.recStore k)
  | 0x53 => some (.recLoad k)
  | _ => none

/-- The command a word stands for, or the reason it is illegal (30_encoding.md R82 to R84). -/
def decode (w : Word) : Except DecodeError Instr :=
  match instrOfOp (opField w).toNat (kField w).toNat with
  | none => .error .reservedOp
  | some i =>
    if rsvField w ≠ 0 then .error .reservedBits
    else if i.blockIndex = none ∧ kField w ≠ 0 then .error .strayIndex
    else .ok i

/-- The opcode of a command (30_encoding.md R82). -/
def Instr.opcode : Instr → BitVec 8
  | .nop => 0x00
  | .encTile => 0x01
  | .decTile => 0x02
  | .vecLoad _ => 0x10
  | .vecStore _ => 0x11
  | .projFwd => 0x20
  | .projInv => 0x21
  | .rangeClr => 0x30
  | .rangeAcc => 0x31
  | .quant => 0x40
  | .dequant => 0x41
  | .hdrStore => 0x50
  | .hdrLoad => 0x51
  | .recStore _ => 0x52
  | .recLoad _ => 0x53

/-- The word of a command, `{RSV = 0, K, OP}` (30_encoding.md R80, R92: `(k << 8) | OP`). -/
def encode (i : Instr) : Word :=
  (0 : BitVec 8) ++ BitVec.ofNat 16 (i.blockIndex.getD 0) ++ i.opcode

/-- One row of the opcode table: a word belongs to it when `w &&& mask = pattern`
(30_encoding.md R83). -/
structure OpcodeRow where
  mnemonic : String
  pattern : Word
  mask : Word
  deriving DecidableEq, Repr

/-- The opcode table of the spec, in its order (30_encoding.md R82, R83). -/
def opcodeTable : List OpcodeRow :=
  [ ⟨"NOP", 0x00000000, 0xFFFFFFFF⟩,
    ⟨"ENC_TILE", 0x00000001, 0xFFFFFFFF⟩,
    ⟨"DEC_TILE", 0x00000002, 0xFFFFFFFF⟩,
    ⟨"VEC_LOAD", 0x00000010, 0xFF0000FF⟩,
    ⟨"VEC_STORE", 0x00000011, 0xFF0000FF⟩,
    ⟨"PROJ_FWD", 0x00000020, 0xFFFFFFFF⟩,
    ⟨"PROJ_INV", 0x00000021, 0xFFFFFFFF⟩,
    ⟨"RANGE_CLR", 0x00000030, 0xFFFFFFFF⟩,
    ⟨"RANGE_ACC", 0x00000031, 0xFFFFFFFF⟩,
    ⟨"QUANT", 0x00000040, 0xFFFFFFFF⟩,
    ⟨"DEQUANT", 0x00000041, 0xFFFFFFFF⟩,
    ⟨"HDR_STORE", 0x00000050, 0xFFFFFFFF⟩,
    ⟨"HDR_LOAD", 0x00000051, 0xFFFFFFFF⟩,
    ⟨"REC_STORE", 0x00000052, 0xFF0000FF⟩,
    ⟨"REC_LOAD", 0x00000053, 0xFF0000FF⟩ ]

/-- Word `w` matches a row of the table (30_encoding.md R83). -/
def OpcodeRow.matchesWord (r : OpcodeRow) (w : Word) : Bool :=
  w &&& r.mask == r.pattern

/-- The command of an instruction whose bits are `w`, `nbits` of them (the table gives every row 32;
30_encoding.md R80: every command word is exactly 32 bits, R86: no multi-word form). -/
def decodeTableWord (nbits w : Nat) : Option Instr :=
  if w % 2 ^ nbits < 2 ^ 32 then (decode (BitVec.ofNat 32 (w % 2 ^ nbits))).toOption else none

/-- The value of a decimal numeral, none for the empty string or another character. -/
def decimalValue (acc : Nat) : List Char → Option Nat
  | [] => some acc
  | d :: ds =>
    if '0' ≤ d ∧ d ≤ '9' then decimalValue (10 * acc + (d.toNat - '0'.toNat)) ds else none

/-- The value of a hexadecimal numeral's digits. -/
def hexValue (acc : Nat) : List Char → Option Nat
  | [] => some acc
  | d :: ds =>
    if '0' ≤ d ∧ d ≤ '9' then hexValue (16 * acc + (d.toNat - '0'.toNat)) ds
    else if 'A' ≤ d ∧ d ≤ 'F' then hexValue (16 * acc + (d.toNat - 'A'.toNat + 10)) ds
    else if 'a' ≤ d ∧ d ≤ 'f' then hexValue (16 * acc + (d.toNat - 'a'.toNat + 10)) ds
    else none

/-- A block index as written: decimal, or hexadecimal after `0x` (30_encoding.md R92). -/
def indexOfText : List Char → Option Nat
  | [] => none
  | '0' :: 'x' :: d :: ds => hexValue 0 (d :: ds)
  | d :: ds => decimalValue 0 (d :: ds)

/-- The command a mnemonic and its written operand stand for (30_encoding.md R92): refused are an
unknown mnemonic, an operand on a non-indexed command, a missing operand on an indexed one, and an
index above 65535. -/
def assemble (mnemonic : String) (operand : Option (List Char)) : Option Word :=
  let k := operand.bind indexOfText
  let row : Option Instr :=
    if mnemonic = "NOP" then some .nop
    else if mnemonic = "ENC_TILE" then some .encTile
    else if mnemonic = "DEC_TILE" then some .decTile
    else if mnemonic = "VEC_LOAD" then k.map .vecLoad
    else if mnemonic = "VEC_STORE" then k.map .vecStore
    else if mnemonic = "PROJ_FWD" then some .projFwd
    else if mnemonic = "PROJ_INV" then some .projInv
    else if mnemonic = "RANGE_CLR" then some .rangeClr
    else if mnemonic = "RANGE_ACC" then some .rangeAcc
    else if mnemonic = "QUANT" then some .quant
    else if mnemonic = "DEQUANT" then some .dequant
    else if mnemonic = "HDR_STORE" then some .hdrStore
    else if mnemonic = "HDR_LOAD" then some .hdrLoad
    else if mnemonic = "REC_STORE" then k.map .recStore
    else if mnemonic = "REC_LOAD" then k.map .recLoad
    else none
  match row with
  | none => none
  | some i =>
    if i.blockIndex = none ∧ operand ≠ none then none
    else if i.wellFormed then some (encode i) else none

end Sys2Proof
end

