-- ==== Sys2Proof/Config.lean ====
section
/-! DEFINITION. The implementation parameters of 00_scope.md R9 and the values the spec leaves
unspecified. Every one of them is an opaque constant: nothing can be proved of its value beyond its
type. -/

namespace Sys2Proof

/-- A direction of a core-engine memory access (00_scope.md R9, `dir`). -/
inductive Dir
  | read
  | write
  deriving DecidableEq, Repr

/-- What system memory does with one byte access of the core engine. The predicate ADMIT of
20_memory.md R61 is `completes` against `refuses`; `silent` is the memory that never answers of
70_reset_and_hazards.md R263. -/
inductive Answer
  | completes
  | refuses
  | silent
  deriving DecidableEq, Repr

/-- One row of the platform's memory map: the bytes from `lo` up to but not including `hi`, and what
a read and a write of one of them gets (00_scope.md R9 ADMIT, 20_memory.md R61). -/
structure Region where
  lo : Nat
  hi : Nat
  onRead : Answer
  onWrite : Answer
  deriving DecidableEq, Repr

/-- A finite binary32 value: its exponent field is never 255. The basis entries are finite by
00_scope.md R9. -/
structure FiniteF32 where
  sign : Bool
  exponent : Fin 255
  fraction : BitVec 23
  deriving DecidableEq, Repr, Inhabited

/-- The 32-bit pattern of a finite value (00_scope.md R12). -/
def FiniteF32.bits (x : FiniteF32) : F32 :=
  BitVec.ofBool x.sign ++ BitVec.ofNat 8 x.exponent.val ++ x.fraction

/-- `MEAN` (00_scope.md R9): value not in any source, every entry finite. -/
opaque Config.mean : Vector FiniteF32 192

/-- `BASIS` (00_scope.md R9): value not in any source, every entry finite. -/
opaque Config.basis : Vector (Vector FiniteF32 192) 8

/-- `MAX_BLOCKS` less one (00_scope.md R9): the parameter lies in 1..65535. -/
opaque Config.maxBlocksPred : Fin 65535

/-- `MMIO_BASE` divided by 0x4000 (00_scope.md R9: a 32-bit multiple of 0x4000). -/
opaque Config.mmioSlot : BitVec 18

/-- The platform predicate `ADMIT` (00_scope.md R9, 20_memory.md R61) as a list of regions; an
address in no region is refused. -/
opaque Config.regions : List Region

/-- The unspecified 32-bit values of 10_state.md R36 (a datapath register read while BUSY) and of
70_reset_and_hazards.md R241 (a register read while the reset input is asserted): the n-th one
drawn. -/
opaque Config.unspecified : Nat → Word

/-- How many accesses of a command an atomic representation has performed when a host action lands
while the command is in flight (70_reset_and_hazards.md R242: any length from 0 to that of the access
sequence; 20_memory.md R73: any interleaving): the n-th number drawn. It is read modulo the number of
choices. -/
opaque Config.accessesPerformed : Nat → Nat

end Sys2Proof
end

