-- ==== Sys2Proof/Machine/State.lean ====
section
/-! DEFINITION. The machine's state (spec 10_state.md R20 to R51): the register window's registers,
the datapath registers, the basis ROM with the other build parameters, the hidden state, system
memory, and the host side that drives the CORE. All of it is plain data. -/

namespace Sys2Proof.Machine

/-- The eight code registers Q, each of its own width W = (8, 8, 4, 4, 2, 2, 2, 2) (10_state.md R44,
00_scope.md R16). -/
structure Codes where
  q0 : BitVec 8
  q1 : BitVec 8
  q2 : BitVec 4
  q3 : BitVec 4
  q4 : BitVec 2
  q5 : BitVec 2
  q6 : BitVec 2
  q7 : BitVec 2
  deriving DecidableEq, Repr

/-- What the CORE was built with and the platform it stands on (00_scope.md R9). `mean` and `basis`
are the basis ROM (10_state.md R46); `regions` is ADMIT. No step changes any of it. -/
structure Build where
  mean : BlockVec
  basis : Vector BlockVec 8
  maxBlocks : Nat
  mmioBase : Word
  regions : List Region
  deriving DecidableEq, Repr

/-- Where the byte of a core-engine write comes from: sample j of the block vector
(40_vectorizer.md R105), header byte b (44_packet.md R171), record byte b (44_packet.md R174). -/
inductive Source
  | sample (j : Fin 192)
  | header (b : Fin 64)
  | record (b : Fin 4)
  deriving DecidableEq, Repr

/-- A step of a command that touches registers only. `takeBlock`, `takeHeader` and `takeRecord` are
the register writes a load makes once all its reads have succeeded (20_memory.md R67). `bufPut` and
`bufGet` are ENC_TILE's accesses of CBUF (45_tile.md R191). -/
inductive UnitOp
  | takeBlock
  | takeHeader
  | takeRecord
  | projFwd
  | projInv
  | rangeClr
  | rangeAcc
  | quant
  | dequant
  | bufPut (k : Nat)
  | bufGet (k : Nat)
  deriving DecidableEq, Repr

/-- One piece of a command's body: one byte access of system memory (00_scope.md R14), or one
register step. -/
inductive MicroOp
  | read (a : Nat)
  | write (a : Nat) (src : Source)
  | unit (u : UnitOp)
  deriving DecidableEq, Repr

/-- An action of the host (00_scope.md R6, 30_encoding.md R93). A register access names its offset in
the window or its bus address, and its width in bytes (20_memory.md R70). -/
inductive HostAct
  | regWrite (off : BitVec 14) (width : Nat) (w : Word)
  | regRead (off : BitVec 14) (width : Nat)
  | busWrite (addr : Word) (width : Nat) (w : Word)
  | busRead (addr : Word) (width : Nat)
  | memWrite (a : Word) (v : Byte)
  | memRead (a : Word)
  | assertReset
  | releaseReset
  deriving DecidableEq, Repr

/-- What happens next in the system, in the order the events stand in: a host action; the core
engine's next piece of work (memory answering it); both in one instant; a host that polls the
register at `off` until `value` stands under `mask` (30_encoding.md R93 POLL); or a host that writes
the command word `w` to CMD and acts once more while that command is in flight, for a soft reset in
flight where a command is one atomic step (70_reset_and_hazards.md R242). -/
inductive Event
  | host (act : HostAct)
  | core
  | both (act : HostAct)
  | poll (off : BitVec 14) (mask value : Word)
  | during (w : Word) (act : HostAct)
  deriving DecidableEq, Repr

/-- What the host's last action got back. `portError` is the error response of 20_memory.md R70. -/
inductive Reply
  | none
  | ack
  | word (w : Word)
  | byte (b : Byte)
  | portError
  deriving DecidableEq, Repr

/-- The two representations of a command that 10_state.md R48 allows: one atomic step, or a step for
each piece, between which the host may act. -/
inductive Grain
  | whole
  | perAccess
  deriving DecidableEq, Repr

/-- System memory: the bytes that differ from what an unlisted address reads as, by strictly rising
address (20_memory.md R60). -/
abbrev Memory := List Host.Cell

/-- The whole machine. -/
structure State where
  /-- CTRL.IE (10_state.md R23). -/
  ie : Bool
  /-- STATUS.DONE (10_state.md R25). -/
  done : Bool
  /-- STATUS.NUMERR (10_state.md R25). -/
  numerr : Bool
  /-- STATUS.WIGN (10_state.md R25). -/
  wign : Bool
  /-- STATUS.ERR (10_state.md R25). -/
  err : BitVec 4
  /-- CMD_LAST, what CMD reads as (10_state.md R27). -/
  cmdLast : Word
  /-- FAULT_ADDR (10_state.md R28). -/
  faultAddr : Word
  /-- TILE_BW (10_state.md R29). -/
  tileBw : BitVec 16
  /-- TILE_BH (10_state.md R29). -/
  tileBh : BitVec 16
  /-- PIX_BASE (10_state.md R30). -/
  pixBase : Word
  /-- PIX_STRIDE (10_state.md R30). -/
  pixStride : Word
  /-- PKT_BASE (10_state.md R31). -/
  pktBase : Word
  /-- PKT_BUFLEN (10_state.md R31). -/
  pktBuflen : Word
  /-- V, the BlockVector (10_state.md R40). -/
  v : BlockVec
  /-- C, the CoefficientVector (10_state.md R41). -/
  c : Coeffs
  /-- RMIN (10_state.md R42). -/
  rmin : Coeffs
  /-- RMAX (10_state.md R43). -/
  rmax : Coeffs
  /-- Q, the code registers (10_state.md R44). -/
  q : Codes
  /-- REC, the QuantizedBlock (10_state.md R45). -/
  record : Word
  /-- CBUF: MAX_BLOCKS entries of 8 values (10_state.md R47). -/
  cbuf : List Coeffs
  /-- The command in flight: what is left of its body, none when no command is in flight
  (10_state.md R48). STATUS.BUSY is whether there is one (R25). -/
  inflight : Option (List MicroOp)
  /-- The bytes the current load has read so far: `s`, `h` or `r` of 40_vectorizer.md R102,
  44_packet.md R173 and R176. -/
  rbuf : List Byte
  /-- System memory (20_memory.md R60). -/
  mem : Memory
  /-- The build and platform parameters, with the basis ROM (00_scope.md R9, 10_state.md R46). -/
  build : Build
  /-- Whether the hardware reset input is asserted (70_reset_and_hazards.md R240, R241). -/
  resetPin : Bool
  /-- The model's own: what happens next. -/
  events : List Event
  /-- The model's own: what the host's last action got back. -/
  reply : Reply
  /-- The model's own: how many unspecified values and prefix lengths have been drawn. -/
  draws : Nat
  /-- The model's own: which representation of a command is used (10_state.md R48). -/
  grain : Grain
  deriving DecidableEq, Repr

/-- Faults of the model. There is none: every error of the CORE is a result code in STATUS.ERR
(60_exceptions.md R210), after which the CORE takes the next command (R211), so no behaviour of
the spec stops the machine. Safe: nothing is left out by it. -/
inductive Fault
  deriving DecidableEq, Repr

/-- Refusals of the model. -/
inductive Refusal
  /-- Raised by an arm of `exec` whose command has no meaning yet; no arm is such an arm. Safe: a
  refused command proves nothing about the hardware. -/
  | notModelled (mnemonic : String)
  deriving DecidableEq, Repr

/-- The parameters this CORE was built with (00_scope.md R9). -/
def Build.configured : Build where
  mean := Vector.ofFn fun j => (Config.mean[j]).bits
  basis := Vector.ofFn fun i => Vector.ofFn fun j => (Config.basis[i][j]).bits
  maxBlocks := Config.maxBlocksPred.val + 1
  mmioBase := Config.mmioSlot ++ (0 : BitVec 14)
  regions := Config.regions

/-- The state right after a reset, on a given build (10_state.md R51). -/
def State.resetOn (b : Build) : State where
  ie := false
  done := false
  numerr := false
  wign := false
  err := 0
  cmdLast := 0
  faultAddr := 0
  tileBw := 20
  tileBh := 15
  pixBase := 0
  pixStride := 480
  pktBase := 0
  pktBuflen := 1264
  v := Vector.replicate 192 0
  c := Vector.replicate 8 0
  rmin := Vector.replicate 8 0
  rmax := Vector.replicate 8 0
  q := ⟨0, 0, 0, 0, 0, 0, 0, 0⟩
  record := 0
  -- DESIGN CHOICE (log 3): CBUF's reset value is unspecified and not observable (R47); zeros here.
  cbuf := List.replicate b.maxBlocks (Vector.replicate 8 0)
  inflight := none
  rbuf := []
  -- DESIGN CHOICE (log 2): the contents of system memory are not the CORE's; nothing is listed.
  mem := []
  build := b
  resetPin := false
  -- DESIGN CHOICE (logs 4, 5): no event waits, nothing was answered, commands run whole.
  events := []
  reply := .none
  draws := 0
  grain := .whole

/-- The machine right after reset (10_state.md R51, 70_reset_and_hazards.md R243). -/
def State.reset : State := State.resetOn Build.configured

end Sys2Proof.Machine
end

