-- ==== Sys2Proof/Machine/Operands.lean ====
section
/-! DEFINITION. The operand forms of the commands: bytes of words, the code registers, tile geometry,
pixel and packet addresses (spec 00_scope.md R15, R16; 20_memory.md R62, R65; 44_packet.md R170). -/

namespace Sys2Proof.Machine

/-- Byte b of a word in little-endian order: bits 8b+7:8b (20_memory.md R62). -/
def byteOf (w : Word) (b : Nat) : Byte := w.extractLsb' (8 * b) 8

/-- The word whose little-endian bytes 0..3 are the arguments (20_memory.md R62). -/
def wordOfBytes (b0 b1 b2 b3 : Byte) : Word := b3 ++ b2 ++ b1 ++ b0

/-- The width W[i] of coefficient i (00_scope.md R16, 43_quantizer.md R150). -/
def codeWidth (i : Fin 8) : Nat :=
  match i with
  | 0 => 8
  | 1 => 8
  | 2 => 4
  | 3 => 4
  | 4 => 2
  | 5 => 2
  | 6 => 2
  | 7 => 2

/-- The lowest bit of coefficient i's field in REC (43_quantizer.md R150). -/
def codeLowBit (i : Fin 8) : Nat :=
  match i with
  | 0 => 0
  | 1 => 8
  | 2 => 20
  | 3 => 16
  | 4 => 24
  | 5 => 26
  | 6 => 28
  | 7 => 30

/-- The level count L[i] = 2^W[i] - 1 (00_scope.md R16). -/
def levels (i : Fin 8) : Nat := 2 ^ codeWidth i - 1

/-- Code i as a number, `zext(Q[i])` (10_state.md R44). -/
def Codes.get (q : Codes) (i : Fin 8) : Nat :=
  match i with
  | 0 => q.q0.toNat
  | 1 => q.q1.toNat
  | 2 => q.q2.toNat
  | 3 => q.q3.toNat
  | 4 => q.q4.toNat
  | 5 => q.q5.toNat
  | 6 => q.q6.toNat
  | 7 => q.q7.toNat

/-- Write code i with the low W[i] bits of a word, the others being dropped (10_state.md R44). -/
def Codes.set (q : Codes) (i : Fin 8) (w : Word) : Codes :=
  match i with
  | 0 => { q with q0 := w.setWidth 8 }
  | 1 => { q with q1 := w.setWidth 8 }
  | 2 => { q with q2 := w.setWidth 4 }
  | 3 => { q with q3 := w.setWidth 4 }
  | 4 => { q with q4 := w.setWidth 2 }
  | 5 => { q with q5 := w.setWidth 2 }
  | 6 => { q with q6 := w.setWidth 2 }
  | 7 => { q with q7 := w.setWidth 2 }

/-- The eight codes given as numbers, each in its register's width (10_state.md R44). -/
def Codes.ofNats (f : Fin 8 → Nat) : Codes :=
  ⟨BitVec.ofNat 8 (f 0), BitVec.ofNat 8 (f 1), BitVec.ofNat 4 (f 2), BitVec.ofNat 4 (f 3),
   BitVec.ofNat 2 (f 4), BitVec.ofNat 2 (f 5), BitVec.ofNat 2 (f 6), BitVec.ofNat 2 (f 7)⟩

/-- n = TILE_BW · TILE_BH, the tile's block count (00_scope.md R15, 30_encoding.md R89). -/
def State.blocks (s : State) : Nat := s.tileBw.toNat * s.tileBh.toNat

/-- `geometry_valid()` (10_state.md R29, 30_encoding.md R89). -/
def State.geometryValid (s : State) : Bool :=
  decide (1 ≤ s.tileBw.toNat ∧ 1 ≤ s.tileBh.toNat ∧ s.blocks ≤ s.build.maxBlocks)

/-- `PixAddr(k, j)`, the address of sample j of block k, without wrap-around (20_memory.md R65). -/
def State.pixAddr (s : State) (k : Nat) (j : Fin 192) : Nat :=
  s.pixBase.toNat
    + (8 * (k / s.tileBw.toNat) + (j.val % 64) / 8) * s.pixStride.toNat
    + 3 * (8 * (k % s.tileBw.toNat) + j.val % 8)
    + j.val / 64

/-- The address of packet header byte b (44_packet.md R170, R172). -/
def State.hdrAddr (s : State) (b : Fin 64) : Nat := s.pktBase.toNat + b.val

/-- The address of byte b of block k's record (44_packet.md R170, R174). -/
def State.recAddr (s : State) (k : Nat) (b : Fin 4) : Nat :=
  s.pktBase.toNat + 64 + 4 * k + b.val

/-- The packet length 64 + 4·n, unbounded (44_packet.md R170). -/
def State.packetBytes (s : State) : Nat := 64 + 4 * s.blocks

/-- `hdr_byte(b)`: byte b of the 16 header values, RMIN[0..7] then RMAX[0..7], each little-endian
(44_packet.md R171). -/
def hdrByte (rmin rmax : Coeffs) (b : Fin 64) : Byte :=
  let e := b.val / 4
  byteOf (if e < 8 then rmin[e % 8]'(Nat.mod_lt _ (by decide))
    else rmax[(e - 8) % 8]'(Nat.mod_lt _ (by decide))) (b.val % 4)

/-- Header value e of 64 header bytes, little-endian (44_packet.md R173). -/
def hdrValue (h : List Byte) (e : Nat) : F32 :=
  wordOfBytes (h.getD (4 * e) 0) (h.getD (4 * e + 1) 0) (h.getD (4 * e + 2) 0)
    (h.getD (4 * e + 3) 0)

end Sys2Proof.Machine
end

