-- ==== Sys2Proof/Machine/Flags.lean ====
section
/-! DEFINITION. STATUS and CTRL as words, the result codes, and the interrupt output (spec
10_state.md R23, R25, R49; 60_exceptions.md R210, R222). -/

namespace Sys2Proof.Machine

/-- The result codes of 60_exceptions.md R210. -/
inductive ErrCode
  | ok
  | opc
  | cfg
  | arg
  | size
  | addr
  | bus
  deriving DecidableEq, Repr

/-- The number of a result code in STATUS.ERR (60_exceptions.md R210). -/
def ErrCode.bits : ErrCode → BitVec 4
  | .ok => 0
  | .opc => 1
  | .cfg => 2
  | .arg => 3
  | .size => 4
  | .addr => 5
  | .bus => 6

/-- STATUS.BUSY: a command has been accepted and has not completed (10_state.md R25). -/
def State.busy (s : State) : Bool := s.inflight.isSome

/-- STATUS as it reads: ERR in bits 11:8, WIGN 3, NUMERR 2, DONE 1, BUSY 0 (10_state.md R25). -/
def State.statusWord (s : State) : Word :=
  (0 : BitVec 20) ++ s.err ++ (0 : BitVec 4) ++ BitVec.ofBool s.wign ++ BitVec.ofBool s.numerr
    ++ BitVec.ofBool s.done ++ BitVec.ofBool s.busy

/-- CTRL as it reads: IE in bit 0, SRST always 0 (10_state.md R23). -/
def State.ctrlWord (s : State) : Word := (0 : BitVec 31) ++ BitVec.ofBool s.ie

/-- IRQ = STATUS.DONE ∧ CTRL.IE at every instant (10_state.md R49, 60_exceptions.md R222). -/
def State.irq (s : State) : Bool := s.done && s.ie

/-- A write of `w` to STATUS: a 1 in bit 1, 2 or 3 clears DONE, NUMERR or WIGN (10_state.md R26). -/
def clearStatus (w : Word) (s : State) : State :=
  { s with
    done := s.done && !w.getLsbD 1
    numerr := s.numerr && !w.getLsbD 2
    wign := s.wign && !w.getLsbD 3 }

end Sys2Proof.Machine
end

