-- ==== Sys2Proof/Machine/Float.lean ====
section
/-! DEFINITION. IEEE 754 binary32 arithmetic on 32-bit patterns (00_scope.md R12): one rounding to
nearest, ties to even, subnormals kept, every NaN result the canonical quiet NaN; and the helpers of
R13. A finite magnitude is counted in units of 2^-149, the spacing of the subnormals. -/

namespace Sys2Proof.Machine

/-- The canonical quiet NaN (00_scope.md R12). -/
def canonicalNaN : F32 := 0x7FC00000

/-- The pattern of +inf (00_scope.md R12). -/
def posInf : F32 := 0x7F800000

/-- The pattern of -inf (00_scope.md R12). -/
def negInf : F32 := 0xFF800000

/-- Sign bit 31 (00_scope.md R12). -/
def signOf (x : F32) : Bool := decide (2 ^ 31 ≤ x.toNat)

/-- Exponent and fraction, bits 30:0, as a number. Larger magnitudes have larger numbers
(00_scope.md R12). -/
def magOf (x : F32) : Nat := x.toNat % 2 ^ 31

/-- The value is a NaN: exponent 255 and a fraction that is not zero (00_scope.md R12). -/
def isNaN (x : F32) : Bool := decide (0x7F800000 < magOf x)

/-- The value is +inf or -inf (00_scope.md R12). -/
def isInf (x : F32) : Bool := magOf x == 0x7F800000

/-- The value is neither a NaN nor infinite (00_scope.md R12). -/
def isFinite (x : F32) : Bool := decide (magOf x < 0x7F800000)

/-- The magnitude of a finite value in units of 2^-149 (00_scope.md R12). -/
def unitsOf (x : F32) : Nat :=
  if magOf x / 2 ^ 23 = 0 then magOf x % 2 ^ 23
  else (2 ^ 23 + magOf x % 2 ^ 23) * 2 ^ (magOf x / 2 ^ 23 - 1)

/-- A finite value in units of 2^-149, with its sign (00_scope.md R12). -/
def signedUnits (x : F32) : Int := if signOf x then -(unitsOf x : Int) else unitsOf x

/-- The integer nearest to `num / den`, a tie going to the even one (00_scope.md R12). -/
def roundNearestEven (num den : Nat) : Nat :=
  if den < 2 * (num % den) ∨ (2 * (num % den) = den ∧ num / den % 2 = 1) then num / den + 1
  else num / den

/-- How far the leading bit of a magnitude of `u` units lies above bit 23: the spacing of binary32
values there is 2^this units (00_scope.md R12). -/
def spacingExp (u : Nat) : Nat := Nat.log2 u - 23

/-- Exponent and fraction bits of the magnitude `num / den` units, rounded once to nearest even; an
overflow gives the bits of inf (00_scope.md R12). -/
def roundedMag (num den : Nat) : Nat :=
  min 0x7F800000
    (spacingExp (num / den) * 2 ^ 23 + roundNearestEven num (den * 2 ^ spacingExp (num / den)))

/-- The pattern with the given sign and the given bits 30:0. -/
def ofSignMag (neg : Bool) (m : Nat) : F32 :=
  BitVec.ofNat 32 ((if neg then 2 ^ 31 else 0) + m)

/-- The value with its sign bit inverted. -/
def fneg (x : F32) : F32 := ofSignMag (!signOf x) (magOf x)

/-- a + b, rounded once (00_scope.md R12). An exact zero sum is +0.0 unless both operands have a
minus sign. -/
def fadd (a b : F32) : F32 :=
  if isNaN a || isNaN b then canonicalNaN
  else if isInf a then (if isInf b && (signOf a != signOf b) then canonicalNaN else a)
  else if isInf b then b
  else if signedUnits a + signedUnits b = 0 then ofSignMag (signOf a && signOf b) 0
  else
    ofSignMag (decide (signedUnits a + signedUnits b < 0))
      (roundedMag (signedUnits a + signedUnits b).natAbs 1)

/-- a - b, rounded once (00_scope.md R12). -/
def fsub (a b : F32) : F32 := fadd a (fneg b)

/-- a * b, rounded once (00_scope.md R12). -/
def fmul (a b : F32) : F32 :=
  if isNaN a || isNaN b then canonicalNaN
  else if isInf a || isInf b then
    (if magOf a = 0 ∨ magOf b = 0 then canonicalNaN
     else ofSignMag (signOf a != signOf b) 0x7F800000)
  else ofSignMag (signOf a != signOf b) (roundedMag (unitsOf a * unitsOf b) (2 ^ 149))

/-- a / b, rounded once (00_scope.md R12). -/
def fdiv (a b : F32) : F32 :=
  if isNaN a || isNaN b then canonicalNaN
  else if isInf a then
    (if isInf b then canonicalNaN else ofSignMag (signOf a != signOf b) 0x7F800000)
  else if isInf b then ofSignMag (signOf a != signOf b) 0
  else if magOf b = 0 then
    (if magOf a = 0 then canonicalNaN else ofSignMag (signOf a != signOf b) 0x7F800000)
  else ofSignMag (signOf a != signOf b) (roundedMag (unitsOf a * 2 ^ 149) (unitsOf b))

/-- The place of a value that is no NaN in the order of the reals and the infinities; -0.0 and +0.0
share one (00_scope.md R12). -/
def orderKey (x : F32) : Int := if signOf x then -(magOf x : Int) else magOf x

/-- a < b, false on a NaN (00_scope.md R12). -/
def flt (a b : F32) : Bool := !isNaN a && !isNaN b && decide (orderKey a < orderKey b)

/-- a > b, false on a NaN (00_scope.md R12). -/
def fgt (a b : F32) : Bool := flt b a

/-- a ≤ b, false on a NaN (00_scope.md R12). -/
def fle (a b : F32) : Bool := !isNaN a && !isNaN b && decide (orderKey a ≤ orderKey b)

/-- The rational `num / den` (negated when `neg`) rounded once to nearest even (00_scope.md R12;
30_encoding.md R93 `bits(r)`). -/
def f32OfRatio (neg : Bool) (num den : Nat) : F32 :=
  ofSignMag neg (roundedMag (num * 2 ^ 149) den)

/-- The exact value of an integer 0..255 (00_scope.md R12 `f32_of_nat`). -/
def f32OfNat (n : Nat) : F32 := f32OfRatio false n 1

/-- `clampf` (00_scope.md R13): a NaN passes through. -/
def clampf (x lo hi : F32) : F32 :=
  if isNaN x then x else if flt x lo then lo else if fgt x hi then hi else x

/-- The magnitude of a finite value rounded to an integer, a half going up: floor(|x| + 1/2)
(00_scope.md R13). -/
def roundedWhole (x : F32) : Nat := (unitsOf x + 2 ^ 148) / 2 ^ 149

/-- `roundf` (00_scope.md R13): to an integer-valued binary32, halves away from zero. -/
def roundf (x : F32) : F32 :=
  if isNaN x || isInf x then x else f32OfRatio (signOf x) (roundedWhole x) 1

/-- `to_nat` (00_scope.md R13) of an integer-valued x in [0, 255] or a NaN: the integer, and whether
STATUS.NUMERR is to be set. -/
def toNatFlag (x : F32) : Nat × Bool :=
  if isNaN x then (0, true) else (unitsOf x / 2 ^ 149, false)

end Sys2Proof.Machine
end

