-- ==== Sys2Proof/Machine/UnitMath.lean ====
section
/-! DEFINITION. The pure functions of the five units: sample conversion, projection, range
tracking, quantizer and dequantizer, pack and unpack (spec 40_vectorizer.md to 43_quantizer.md). -/

namespace Sys2Proof.Machine

/-- 255.0 (40_vectorizer.md R101). -/
def f255 : F32 := 0x437F0000

/-- 1.0 (43_quantizer.md R151). -/
def f1 : F32 := 0x3F800000

/-- +0.0. -/
def f0 : F32 := 0x00000000

/-- `vec_fwd_sample` (40_vectorizer.md R101): one rounded division by 255. -/
def vecFwdSample (s : Byte) : F32 := fdiv (f32OfNat s.toNat) f255

/-- `vec_inv_sample` (40_vectorizer.md R103): the byte 0..255, and whether NUMERR is to be set. -/
def vecInvSample (x : F32) : Nat × Bool :=
  toNatFlag (clampf (roundf (fmul x f255)) f0 f255)

/-- `proj_fwd(v)[i]` (41_projection.md R120): j ascending, each step rounded. -/
def projFwd (b : Build) (v : BlockVec) : Coeffs :=
  Vector.ofFn fun i =>
    (List.finRange 192).foldl
      (fun acc j => fadd acc (fmul (fsub v[j] b.mean[j]) (b.basis[i])[j])) f0

/-- `proj_inv(c)[j]` (41_projection.md R122): i ascending, the mean added last. -/
def projInv (b : Build) (co : Coeffs) : BlockVec :=
  Vector.ofFn fun j =>
    fadd b.mean[j] ((List.finRange 8).foldl
      (fun acc i => fadd acc (fmul co[i] (b.basis[i])[j])) f0)

/-- RMIN after RANGE_ACC (42_range.md R141). -/
def rangeMin (co rmin : Coeffs) : Coeffs :=
  Vector.ofFn fun i => if flt co[i] rmin[i] then co[i] else rmin[i]

/-- RMAX after RANGE_ACC (42_range.md R141). -/
def rangeMax (co rmax : Coeffs) : Coeffs :=
  Vector.ofFn fun i => if fgt co[i] rmax[i] then co[i] else rmax[i]

/-- RMIN of the empty range (42_range.md R140). -/
def emptyMin : Coeffs := Vector.replicate 8 posInf

/-- RMAX of the empty range (42_range.md R140). -/
def emptyMax : Coeffs := Vector.replicate 8 negInf

/-- `quant1(v, mn, mx, L)` (43_quantizer.md R151): the code, and whether NUMERR is to be set. -/
def quant1 (v mn mx : F32) (l : Nat) : Nat × Bool :=
  if fle mx mn then (0, false)
  else toNatFlag (roundf (fmul (clampf (fdiv (fsub v mn) (fsub mx mn)) f0 f1) (f32OfNat l)))

/-- `dequant1(code, mn, mx, L)` (43_quantizer.md R153). -/
def dequant1 (code : Nat) (mn mx : F32) (l : Nat) : F32 :=
  if l = 0 then mn
  else fadd mn (fmul (fdiv (f32OfNat (min code l)) (f32OfNat l)) (fsub mx mn))

/-- The codes of QUANT (43_quantizer.md R156). -/
def quantCodes (co rmin rmax : Coeffs) : Codes :=
  Codes.ofNats fun i => (quant1 co[i] rmin[i] rmax[i] (levels i)).1

/-- Whether QUANT sets NUMERR (43_quantizer.md R156). -/
def quantFlag (co rmin rmax : Coeffs) : Bool :=
  (List.finRange 8).any fun i => (quant1 co[i] rmin[i] rmax[i] (levels i)).2

/-- The coefficients of DEQUANT (43_quantizer.md R157). -/
def dequantCoeffs (q : Codes) (rmin rmax : Coeffs) : Coeffs :=
  Vector.ofFn fun i => dequant1 (q.get i) rmin[i] rmax[i] (levels i)

/-- `pack(q)` (43_quantizer.md R154): byte2 = (q2 << 4) | q3, byte3 = q4 | (q5 << 2) | (q6 << 4) |
(q7 << 6). -/
def packCodes (q : Codes) : Word :=
  (q.q7 ++ q.q6 ++ q.q5 ++ q.q4) ++ (q.q2 ++ q.q3) ++ q.q1 ++ q.q0

/-- `unpack(r)` (43_quantizer.md R155). -/
def unpackCodes (r : Word) : Codes where
  q0 := r.extractLsb' 0 8
  q1 := r.extractLsb' 8 8
  q2 := r.extractLsb' 20 4
  q3 := r.extractLsb' 16 4
  q4 := r.extractLsb' 24 2
  q5 := r.extractLsb' 26 2
  q6 := r.extractLsb' 28 2
  q7 := r.extractLsb' 30 2

end Sys2Proof.Machine
end

