-- ==== Sys2Proof/Machine/Ops.lean ====
section
/-! DEFINITION. The named operations over memory and registers: the byte memory, completion and
errors, the pieces of a command's body, and running them (spec 20_memory.md R61 to R69;
30_encoding.md R88 to R91; 60_exceptions.md R211, R216, R217). -/

namespace Sys2Proof.Machine

/-- What a byte of memory that nothing has written reads as. DESIGN CHOICE (log 2): the spec gives
system memory no contents. -/
def blankByte : Byte := 0

/-- The byte at an address (20_memory.md R61). -/
def Memory.read : Memory → Nat → Byte
  | [], _ => blankByte
  | (a, v) :: m, x => if x = a then v else Memory.read m x

/-- Put an entry in its place by address, before the first larger one. -/
def Memory.place : Memory → Nat → Byte → Memory
  | [], x, v => [(x, v)]
  | (a, w) :: m, x, v => if x < a then (x, v) :: (a, w) :: m else (a, w) :: Memory.place m x v

/-- Write one byte (20_memory.md R61): the address's entry goes, and a new one is placed unless the
byte is what an unlisted address reads as. -/
def Memory.write (m : Memory) (x : Nat) (v : Byte) : Memory :=
  let rest := m.filter fun cell => cell.1 != x
  if v = blankByte then rest else Memory.place rest x v

/-- The canonical form: addresses strictly rising, no entry equal to what an unlisted address reads
as. -/
def Memory.wf : Memory → Bool
  | [] => true
  | (_, v) :: [] => v != blankByte
  | (a, v) :: (b, w) :: m => v != blankByte && decide (a < b) && Memory.wf ((b, w) :: m)

/-- Writes in order, each at its address (20_memory.md R69, R77). -/
def Memory.writeAll (m : Memory) (l : List (Nat × Byte)) : Memory :=
  l.foldl (fun acc p => acc.write p.1 p.2) m

/-- What system memory answers to an access of the core engine (20_memory.md R61 ADMIT;
70_reset_and_hazards.md R263): the first region that holds the address says; an address in none is
refused. -/
def answerOf : List Region → Dir → Nat → Answer
  | [], _, _ => .refuses
  | r :: rs, dir, a =>
    if r.lo ≤ a ∧ a < r.hi then
      match dir with
      | .read => r.onRead
      | .write => r.onWrite
    else answerOf rs dir a

/-- The answer of this machine's system memory. -/
def State.answer (s : State) (dir : Dir) (a : Nat) : Answer := answerOf s.build.regions dir a

/-- `complete(code)` (30_encoding.md R91): ERR written, BUSY cleared, DONE set, in one instant. This
is the CORE's whole completion record (60_exceptions.md R221). -/
def complete (code : ErrCode) (s : State) : State :=
  { s with inflight := none, rbuf := [], err := code.bits, done := true }

/-- `raise Error(code, addr)` for ADDR and BUS (60_exceptions.md R211): FAULT_ADDR takes the low 32
bits of the address, then the command completes with the code; nothing is rolled back. -/
def raiseError (code : ErrCode) (a : Nat) (s : State) : State :=
  complete code { s with faultAddr := BitVec.ofNat 32 a }

/-- The host's acknowledgement of a completion, a write of 1 to STATUS bit 1 (60_exceptions.md
R223): it clears DONE, and there is nothing to restore. -/
def acknowledge (s : State) : State := clearStatus 2 s

/-- The byte a write of the engine carries, and whether computing it sets NUMERR (40_vectorizer.md
R105, 44_packet.md R171, R174). -/
def State.sourceByte (s : State) : Source → Byte × Bool
  | .sample j => (BitVec.ofNat 8 (vecInvSample s.v[j]).1, (vecInvSample s.v[j]).2)
  | .header b => (hdrByte s.rmin s.rmax b, false)
  | .record b => (byteOf s.record b.val, false)

/-- The vector of the 192 bytes read, converted forward (40_vectorizer.md R102). -/
def blockOfBytes (l : List Byte) : BlockVec :=
  Vector.ofFn fun j => vecFwdSample (l.getD j.val 0)

/-- Eight header values from the 64 bytes read, starting at value `first` (44_packet.md R173). -/
def coeffsOfBytes (l : List Byte) (first : Nat) : Coeffs :=
  Vector.ofFn fun i => hdrValue l (first + i.val)

/-- A register step of a command's body. -/
def unitStep (u : UnitOp) (s : State) : State :=
  match u with
  -- 40_vectorizer.md R102, second loop
  | .takeBlock => { s with v := blockOfBytes s.rbuf, rbuf := [] }
  -- 44_packet.md R173, second loop
  | .takeHeader =>
    { s with rmin := coeffsOfBytes s.rbuf 0, rmax := coeffsOfBytes s.rbuf 8, rbuf := [] }
  -- 44_packet.md R176
  | .takeRecord => { s with record := hdrValue s.rbuf 0, rbuf := [] }
  -- 41_projection.md R121
  | .projFwd => { s with c := projFwd s.build s.v }
  -- 41_projection.md R123
  | .projInv => { s with v := projInv s.build s.c }
  -- 42_range.md R140
  | .rangeClr => { s with rmin := emptyMin, rmax := emptyMax }
  -- 42_range.md R141
  | .rangeAcc => { s with rmin := rangeMin s.c s.rmin, rmax := rangeMax s.c s.rmax }
  -- 43_quantizer.md R156
  | .quant =>
    { s with
      q := quantCodes s.c s.rmin s.rmax
      record := packCodes (quantCodes s.c s.rmin s.rmax)
      numerr := s.numerr || quantFlag s.c s.rmin s.rmax }
  -- 43_quantizer.md R157
  | .dequant =>
    { s with
      q := unpackCodes s.record
      c := dequantCoeffs (unpackCodes s.record) s.rmin s.rmax }
  -- 45_tile.md R191, CBUF[k] <- C
  | .bufPut k => { s with cbuf := s.cbuf.set k s.c }
  -- 45_tile.md R191, C <- CBUF[k]
  | .bufGet k => { s with c := s.cbuf.getD k s.c }

/-- What one piece of a body comes to: the state after it, a refused access at an address, or an
access that memory does not answer. -/
inductive Progress
  | moved (s : State)
  | refused (a : Nat)
  | unanswered
  deriving DecidableEq, Repr

/-- The access a piece of a body makes, if any. -/
def MicroOp.access : MicroOp → Option (Dir × Nat)
  | .read a => some (.read, a)
  | .write a _ => some (.write, a)
  | .unit _ => none

/-- What a piece of a body does when its access, if it makes one, completes (20_memory.md R61). The
conversion of a sample is part of its write, and with it NUMERR (40_vectorizer.md R105). -/
def opEffect (op : MicroOp) (s : State) : State :=
  match op with
  | .read a => { s with rbuf := s.rbuf ++ [s.mem.read a] }
  | .write a src =>
    { s with
      mem := s.mem.write a (s.sourceByte src).1
      numerr := s.numerr || (s.sourceByte src).2 }
  | .unit u => unitStep u s

/-- What several pieces do, one after the other, when every access completes (20_memory.md R69). -/
def effects (ops : List MicroOp) (s : State) : State := ops.foldl (fun t op => opEffect op t) s

/-- One piece of a command's body (20_memory.md R61, R69). A refused access changes nothing, not even
NUMERR (40_vectorizer.md R105: that sample is not converted). An unanswered access changes nothing
either. DESIGN CHOICE (log 8): R105 gives NUMERR for writes that fail or complete; while the write of a
NaN sample is never answered, the model leaves NUMERR as it was. -/
def doOp (op : MicroOp) (s : State) : Progress :=
  match op.access with
  | none => .moved (opEffect op s)
  | some (dir, a) =>
    match s.answer dir a with
    | .completes => .moved (opEffect op s)
    | .refuses => .refused a
    | .silent => .unanswered

/-- Run a body to its end (30_encoding.md R88 `body`, `complete(OK)`), to its first refused access
(60_exceptions.md R217), or until memory does not answer, with the rest in flight
(70_reset_and_hazards.md R263). -/
def runOps : List MicroOp → State → State
  | [], s => complete .ok s
  | op :: rest, s =>
    match doOp op s with
    | .moved t => runOps rest t
    | .refused a => raiseError .bus a s
    | .unanswered => { s with inflight := some (op :: rest) }

/-- The core engine's next piece of work (10_state.md R48): nothing while idle (60_exceptions.md
R235), completion when the body is done. -/
def engineTick (s : State) : State :=
  match s.inflight with
  | none => s
  | some [] => complete .ok s
  | some (op :: rest) =>
    match doOp op s with
    | .moved t => { t with inflight := some rest }
    | .refused a => raiseError .bus a s
    | .unanswered => s

/-- `n` pieces of work in a row. -/
def engineTicks : Nat → State → State
  | 0, s => s
  | n + 1, s => engineTicks n (engineTick s)

/-- The command in flight run as one atomic step (10_state.md R48). -/
def finish (s : State) : State :=
  match s.inflight with
  | none => s
  | some ops => runOps ops s

/-- The access sequence of a body (20_memory.md R64). -/
def accessSeq (ops : List MicroOp) : List (Dir × Nat) := ops.filterMap MicroOp.access

/-- How many pieces of a body it takes to perform its first `k` accesses and no further one, the
register steps between them among these pieces (70_reset_and_hazards.md R242: a prefix of the access
sequence). -/
def piecesThrough (k : Nat) : List MicroOp → Nat
  | [] => 0
  | op :: rest =>
    match k, op.access with
    | 0, _ => 0
    | k' + 1, some _ => piecesThrough k' rest + 1
    | k' + 1, none => piecesThrough (k' + 1) rest + 1

/-- The command in flight with a drawn prefix of its access sequence performed: any length from 0 to
the full length (70_reset_and_hazards.md R242). -/
def performPart (s : State) : State :=
  match s.inflight with
  | none => s
  | some ops =>
    engineTicks
      (piecesThrough (Config.accessesPerformed s.draws % ((accessSeq ops).length + 1)) ops)
      { s with draws := s.draws + 1 }

/-- The first address of an access sequence that is not below 2^32 (20_memory.md R63). -/
def firstHigh (ops : List MicroOp) : Option Nat :=
  ((accessSeq ops).find? fun p => decide (2 ^ 32 ≤ p.2)).map Prod.snd

/-- The first of the checks CFG, ARG, SIZE that fails, in that order (30_encoding.md R88, R89).
`cfg`: the geometry is used; `arg`: the block index, if one is checked; `sizeOk`: `size_ok`. -/
def failedCheck (s : State) (cfg : Bool) (arg : Option Nat) (sizeOk : Bool) : Option ErrCode :=
  if cfg && !s.geometryValid then some .cfg
  else if arg.any fun k => decide (s.blocks ≤ k) then some .arg
  else if !sizeOk then some .size
  else none

/-- The checks of 30_encoding.md R88 and the start of the body: a failed check completes the command
with nothing else changed (FAULT_ADDR apart, for ADDR); otherwise the body is in flight. -/
def startWith (failed : Option ErrCode) (ops : List MicroOp) (s : State) : State :=
  match failed with
  | some code => complete code s
  | none =>
    match firstHigh ops with
    | some a => raiseError .addr a s
    | none => { s with inflight := some ops, rbuf := [] }

/-- Acceptance of a command word (30_encoding.md R87): CMD_LAST, DONE and BUSY are written, ERR,
NUMERR, WIGN and FAULT_ADDR are not. -/
def accept (w : Word) (s : State) : State :=
  { s with cmdLast := w, done := false, inflight := some [] }

end Sys2Proof.Machine
end

