-- ==== Sys2Proof/Machine/Projection.lean ====
section
/-! DEFINITION. The eigen-projection engine's commands PROJ_FWD and PROJ_INV (spec 41_projection.md
R121, R123). -/

namespace Sys2Proof.Machine

/-- PROJ_FWD begun; no check but OPC (41_projection.md R121). -/
def startProjFwd (s : State) : State :=
  startWith (failedCheck s false none true) [.unit .projFwd] s

/-- PROJ_INV begun; no check but OPC (41_projection.md R123). -/
def startProjInv (s : State) : State :=
  startWith (failedCheck s false none true) [.unit .projInv] s

/-- PROJ_FWD: C from V (41_projection.md R121). -/
def execProjFwd (s : State) : Host.Outcome State Fault Refusal :=
  .next (finish (startProjFwd s))

/-- PROJ_INV: V from C (41_projection.md R123). -/
def execProjInv (s : State) : Host.Outcome State Fault Refusal :=
  .next (finish (startProjInv s))

end Sys2Proof.Machine
end

