-- ==== Sys2Proof/Machine/Quantizer.lean ====
section
/-! DEFINITION. The quantizer's commands QUANT and DEQUANT (spec 43_quantizer.md R156, R157). -/

namespace Sys2Proof.Machine

/-- QUANT begun; no check but OPC (43_quantizer.md R156). -/
def startQuant (s : State) : State :=
  startWith (failedCheck s false none true) [.unit .quant] s

/-- DEQUANT begun; no check but OPC (43_quantizer.md R157). -/
def startDequant (s : State) : State :=
  startWith (failedCheck s false none true) [.unit .dequant] s

/-- QUANT: C against the range into Q and REC (43_quantizer.md R156). -/
def execQuant (s : State) : Host.Outcome State Fault Refusal :=
  .next (finish (startQuant s))

/-- DEQUANT: REC against the range into Q and C (43_quantizer.md R157). -/
def execDequant (s : State) : Host.Outcome State Fault Refusal :=
  .next (finish (startDequant s))

end Sys2Proof.Machine
end

