-- ==== Sys2Proof/Machine/Range.lean ====
section
/-! DEFINITION. The range tracker's commands RANGE_CLR and RANGE_ACC (spec 42_range.md R140,
R141). -/

namespace Sys2Proof.Machine

/-- RANGE_CLR begun; no check but OPC (42_range.md R140). -/
def startRangeClr (s : State) : State :=
  startWith (failedCheck s false none true) [.unit .rangeClr] s

/-- RANGE_ACC begun; no check but OPC (42_range.md R141). -/
def startRangeAcc (s : State) : State :=
  startWith (failedCheck s false none true) [.unit .rangeAcc] s

/-- RANGE_CLR: the empty range (42_range.md R140). -/
def execRangeClr (s : State) : Host.Outcome State Fault Refusal :=
  .next (finish (startRangeClr s))

/-- RANGE_ACC: the range widened to include C (42_range.md R141). -/
def execRangeAcc (s : State) : Host.Outcome State Fault Refusal :=
  .next (finish (startRangeAcc s))

end Sys2Proof.Machine
end

