-- ==== Sys2Proof/Machine/Packet.lean ====
section
/-! DEFINITION. The packet serializer's commands HDR_STORE, HDR_LOAD, REC_STORE and REC_LOAD (spec
44_packet.md R172, R173, R175, R176). -/

namespace Sys2Proof.Machine

/-- The body of HDR_STORE: the 64 writes (44_packet.md R172). -/
def hdrStoreOps (s : State) : List MicroOp :=
  (List.finRange 64).map fun b => .write (s.hdrAddr b) (.header b)

/-- The body of HDR_LOAD: the 64 reads, then the write of RMIN and RMAX (44_packet.md R173). -/
def hdrLoadOps (s : State) : List MicroOp :=
  (List.finRange 64).map (fun b => .read (s.hdrAddr b)) ++ [.unit .takeHeader]

/-- The body of REC_STORE k: the 4 writes (44_packet.md R175). -/
def recStoreOps (s : State) (k : Nat) : List MicroOp :=
  (List.finRange 4).map fun b => .write (s.recAddr k b) (.record b)

/-- The body of REC_LOAD k: the 4 reads, then the write of REC (44_packet.md R176). -/
def recLoadOps (s : State) (k : Nat) : List MicroOp :=
  (List.finRange 4).map (fun b => .read (s.recAddr k b)) ++ [.unit .takeRecord]

/-- `size_ok` of HDR_STORE and HDR_LOAD (30_encoding.md R89). -/
def State.hdrSizeOk (s : State) : Bool := decide (64 ≤ s.pktBuflen.toNat)

/-- `size_ok` of REC_STORE k and REC_LOAD k (30_encoding.md R89). -/
def State.recSizeOk (s : State) (k : Nat) : Bool := decide (64 + 4 * k + 4 ≤ s.pktBuflen.toNat)

/-- HDR_STORE checked and begun: SIZE, ADDR (44_packet.md R172). -/
def startHdrStore (s : State) : State :=
  startWith (failedCheck s false none s.hdrSizeOk) (hdrStoreOps s) s

/-- HDR_LOAD checked and begun: SIZE, ADDR (44_packet.md R173). -/
def startHdrLoad (s : State) : State :=
  startWith (failedCheck s false none s.hdrSizeOk) (hdrLoadOps s) s

/-- REC_STORE k checked and begun: CFG, ARG, SIZE, ADDR (44_packet.md R175). -/
def startRecStore (k : Nat) (s : State) : State :=
  startWith (failedCheck s true (some k) (s.recSizeOk k)) (recStoreOps s k) s

/-- REC_LOAD k checked and begun: CFG, ARG, SIZE, ADDR (44_packet.md R176). -/
def startRecLoad (k : Nat) (s : State) : State :=
  startWith (failedCheck s true (some k) (s.recSizeOk k)) (recLoadOps s k) s

/-- HDR_STORE: RMIN and RMAX into the packet header (44_packet.md R172). -/
def execHdrStore (s : State) : Host.Outcome State Fault Refusal :=
  .next (finish (startHdrStore s))

/-- HDR_LOAD: the packet header into RMIN and RMAX (44_packet.md R173). -/
def execHdrLoad (s : State) : Host.Outcome State Fault Refusal :=
  .next (finish (startHdrLoad s))

/-- REC_STORE k: REC into block k's record (44_packet.md R175). -/
def execRecStore (k : Nat) (s : State) : Host.Outcome State Fault Refusal :=
  .next (finish (startRecStore k s))

/-- REC_LOAD k: block k's record into REC (44_packet.md R176). -/
def execRecLoad (k : Nat) (s : State) : Host.Outcome State Fault Refusal :=
  .next (finish (startRecLoad k s))

end Sys2Proof.Machine
end

