-- ==== Sys2Proof/Machine/Vectorizer.lean ====
section
/-! DEFINITION. The RGB block vectorizer's commands VEC_LOAD and VEC_STORE (spec 40_vectorizer.md
R102, R105). -/

namespace Sys2Proof.Machine

/-- The body of VEC_LOAD k: the 192 reads, then the write of V (40_vectorizer.md R102). -/
def vecLoadOps (s : State) (k : Nat) : List MicroOp :=
  (List.finRange 192).map (fun j => .read (s.pixAddr k j)) ++ [.unit .takeBlock]

/-- The body of VEC_STORE k: the 192 writes (40_vectorizer.md R105). -/
def vecStoreOps (s : State) (k : Nat) : List MicroOp :=
  (List.finRange 192).map fun j => .write (s.pixAddr k j) (.sample j)

/-- VEC_LOAD k checked and begun: CFG, ARG, ADDR (40_vectorizer.md R102, 30_encoding.md R90). -/
def startVecLoad (k : Nat) (s : State) : State :=
  startWith (failedCheck s true (some k) true) (vecLoadOps s k) s

/-- VEC_STORE k checked and begun: CFG, ARG, ADDR (40_vectorizer.md R105, 30_encoding.md R90). -/
def startVecStore (k : Nat) (s : State) : State :=
  startWith (failedCheck s true (some k) true) (vecStoreOps s k) s

/-- VEC_LOAD k: block k of the tile into V (40_vectorizer.md R102). -/
def execVecLoad (k : Nat) (s : State) : Host.Outcome State Fault Refusal :=
  .next (finish (startVecLoad k s))

/-- VEC_STORE k: V into block k of the tile (40_vectorizer.md R105). -/
def execVecStore (k : Nat) (s : State) : Host.Outcome State Fault Refusal :=
  .next (finish (startVecStore k s))

end Sys2Proof.Machine
end

