-- ==== Sys2Proof/Machine/Tile.lean ====
section
/-! DEFINITION. The control and whole-tile commands NOP, ENC_TILE and DEC_TILE (spec 45_tile.md R190,
R191, R192). A tile command's body is a sequence of the unit commands' bodies. -/

namespace Sys2Proof.Machine

/-- Pass 1 of ENC_TILE for block k (45_tile.md R191). -/
def encPass1 (s : State) (k : Nat) : List MicroOp :=
  vecLoadOps s k ++ [.unit .projFwd, .unit .rangeAcc, .unit (.bufPut k)]

/-- Pass 2 of ENC_TILE for block k (45_tile.md R191). -/
def encPass2 (s : State) (k : Nat) : List MicroOp :=
  [.unit (.bufGet k), .unit .quant] ++ recStoreOps s k

/-- The body of ENC_TILE (45_tile.md R191). -/
def encTileOps (s : State) : List MicroOp :=
  [.unit .rangeClr] ++ (List.range s.blocks).flatMap (encPass1 s) ++ hdrStoreOps s
    ++ (List.range s.blocks).flatMap (encPass2 s)

/-- The work of DEC_TILE on block k (45_tile.md R192). -/
def decBlock (s : State) (k : Nat) : List MicroOp :=
  recLoadOps s k ++ [.unit .dequant, .unit .projInv] ++ vecStoreOps s k

/-- The body of DEC_TILE (45_tile.md R192). -/
def decTileOps (s : State) : List MicroOp :=
  hdrLoadOps s ++ (List.range s.blocks).flatMap (decBlock s)

/-- `size_ok(ENC_TILE)` (30_encoding.md R89). -/
def State.encSizeOk (s : State) : Bool := decide (s.packetBytes ≤ s.pktBuflen.toNat)

/-- `size_ok(DEC_TILE)` (30_encoding.md R89). -/
def State.decSizeOk (s : State) : Bool := decide (s.pktBuflen.toNat = s.packetBytes)

/-- NOP begun; no check but OPC (45_tile.md R190). -/
def startNop (s : State) : State :=
  startWith (failedCheck s false none true) [] s

/-- ENC_TILE checked and begun: CFG, SIZE, ADDR (45_tile.md R191). -/
def startEncTile (s : State) : State :=
  startWith (failedCheck s true none s.encSizeOk) (encTileOps s) s

/-- DEC_TILE checked and begun: CFG, SIZE, ADDR (45_tile.md R192). -/
def startDecTile (s : State) : State :=
  startWith (failedCheck s true none s.decSizeOk) (decTileOps s) s

/-- NOP: complete (45_tile.md R190). -/
def execNop (s : State) : Host.Outcome State Fault Refusal :=
  .next (finish (startNop s))

/-- ENC_TILE: the tile at PIX_BASE encoded into the packet at PKT_BASE (45_tile.md R191). -/
def execEncTile (s : State) : Host.Outcome State Fault Refusal :=
  .next (finish (startEncTile s))

/-- DEC_TILE: the packet at PKT_BASE decoded into the tile at PIX_BASE (45_tile.md R192). -/
def execDecTile (s : State) : Host.Outcome State Fault Refusal :=
  .next (finish (startDecTile s))

end Sys2Proof.Machine
end

