-- ==== Sys2Proof/Machine/Dispatch.lean ====
section
/-! DEFINITION. One arm per command: the whole effect of a command after its acceptance, its checks,
body and completion (spec 30_encoding.md R88). -/

namespace Sys2Proof.Machine

def exec (i : Instr) (s : State) : Host.Outcome State Fault Refusal :=
  match i with
  | .nop => Sys2Proof.Machine.execNop s
  | .encTile => Sys2Proof.Machine.execEncTile s
  | .decTile => Sys2Proof.Machine.execDecTile s
  | .vecLoad k => Sys2Proof.Machine.execVecLoad k s
  | .vecStore k => Sys2Proof.Machine.execVecStore k s
  | .projFwd => Sys2Proof.Machine.execProjFwd s
  | .projInv => Sys2Proof.Machine.execProjInv s
  | .rangeClr => Sys2Proof.Machine.execRangeClr s
  | .rangeAcc => Sys2Proof.Machine.execRangeAcc s
  | .quant => Sys2Proof.Machine.execQuant s
  | .dequant => Sys2Proof.Machine.execDequant s
  | .hdrStore => Sys2Proof.Machine.execHdrStore s
  | .hdrLoad => Sys2Proof.Machine.execHdrLoad s
  | .recStore k => Sys2Proof.Machine.execRecStore k s
  | .recLoad k => Sys2Proof.Machine.execRecLoad k s

end Sys2Proof.Machine
end

