-- ==== Sys2Proof/Machine/Registers.lean ====
section
/-! DEFINITION. The register window (spec 10_state.md R21 to R36, 20_memory.md R70, R71) and the two
resets (70_reset_and_hazards.md R240 to R243). -/

namespace Sys2Proof.Machine

/-- What stands at a word-aligned offset of the register window (10_state.md R21). -/
inductive Reg
  | id
  | version
  | param
  | ctrl
  | status
  | cmd
  | faultAddr
  | tileBw
  | tileBh
  | pixBase
  | pixStride
  | pktBase
  | pktBuflen
  | pktLen
  | c (i : Fin 8)
  | rmin (i : Fin 8)
  | rmax (i : Fin 8)
  | q (i : Fin 8)
  | record
  | v (j : Fin 192)
  | mean (j : Fin 192)
  | basis (i : Fin 8) (j : Fin 192)
  | reserved
  deriving DecidableEq, Repr

/-- The register at a word-aligned offset (10_state.md R21). -/
def regAt (off : BitVec 14) : Reg :=
  let o := off.toNat
  if o = 0x000 then .id
  else if o = 0x004 then .version
  else if o = 0x008 then .param
  else if o = 0x010 then .ctrl
  else if o = 0x014 then .status
  else if o = 0x018 then .cmd
  else if o = 0x01C then .faultAddr
  else if o = 0x020 then .tileBw
  else if o = 0x024 then .tileBh
  else if o = 0x028 then .pixBase
  else if o = 0x02C then .pixStride
  else if o = 0x030 then .pktBase
  else if o = 0x034 then .pktBuflen
  else if o = 0x038 then .pktLen
  else if 0x100 ≤ o ∧ o < 0x120 then .c (Fin.ofNat 8 ((o - 0x100) / 4))
  else if 0x120 ≤ o ∧ o < 0x140 then .rmin (Fin.ofNat 8 ((o - 0x120) / 4))
  else if 0x140 ≤ o ∧ o < 0x160 then .rmax (Fin.ofNat 8 ((o - 0x140) / 4))
  else if 0x160 ≤ o ∧ o < 0x180 then .q (Fin.ofNat 8 ((o - 0x160) / 4))
  else if o = 0x180 then .record
  else if 0x400 ≤ o ∧ o < 0x700 then .v (Fin.ofNat 192 ((o - 0x400) / 4))
  else if 0x1000 ≤ o ∧ o < 0x1300 then .mean (Fin.ofNat 192 ((o - 0x1000) / 4))
  else if 0x2000 ≤ o ∧ o < 0x3800 then
    .basis (Fin.ofNat 8 ((o - 0x2000) / 4 / 192)) (Fin.ofNat 192 ((o - 0x2000) / 4 % 192))
  else .reserved

/-- The offset of CMD (10_state.md R27). -/
def cmdOffset : BitVec 14 := 0x018

/-- The datapath registers V, C, RMIN, RMAX, Q and REC (10_state.md R20, R40 to R45). -/
def Reg.isDatapath : Reg → Bool
  | .c _ => true
  | .rmin _ => true
  | .rmax _ => true
  | .q _ => true
  | .record => true
  | .v _ => true
  | _ => false

/-- The configuration registers (10_state.md R35). -/
def Reg.isConfig : Reg → Bool
  | .tileBw => true
  | .tileBh => true
  | .pixBase => true
  | .pixStride => true
  | .pktBase => true
  | .pktBuflen => true
  | _ => false

/-- The registers a write to which is ignored and sets WIGN while BUSY: CMD, configuration and
datapath registers (10_state.md R35). -/
def Reg.isFrozen (r : Reg) : Bool := r == .cmd || r.isConfig || r.isDatapath

/-- PARAM: block edge 8, coefficient count 8, MAX_BLOCKS (10_state.md R22). -/
def State.paramWord (s : State) : Word :=
  (8 : BitVec 8) ++ (8 : BitVec 8) ++ BitVec.ofNat 16 s.build.maxBlocks

/-- PKT_LEN, computed when it is read, modulo 2^32 (10_state.md R32). -/
def State.pktLen (s : State) : Word := BitVec.ofNat 32 s.packetBytes

/-- The value a register reads as while it may be read (10_state.md R21 to R34, R40 to R46). -/
def regValue (r : Reg) (s : State) : Word :=
  match r with
  | .id => 0x4E535443
  | .version => 0x00070001
  | .param => s.paramWord
  | .ctrl => s.ctrlWord
  | .status => s.statusWord
  | .cmd => s.cmdLast
  | .faultAddr => s.faultAddr
  | .tileBw => s.tileBw.setWidth 32
  | .tileBh => s.tileBh.setWidth 32
  | .pixBase => s.pixBase
  | .pixStride => s.pixStride
  | .pktBase => s.pktBase
  | .pktBuflen => s.pktBuflen
  | .pktLen => s.pktLen
  | .c i => s.c[i]
  | .rmin i => s.rmin[i]
  | .rmax i => s.rmax[i]
  | .q i => BitVec.ofNat 32 (s.q.get i)
  | .record => s.record
  | .v j => s.v[j]
  | .mean j => s.build.mean[j]
  | .basis i j => (s.build.basis[i])[j]
  | .reserved => 0

/-- The read returns an unspecified value: a datapath register while BUSY (10_state.md R36), or any
register while the reset input is asserted (70_reset_and_hazards.md R241). -/
def readIsFree (r : Reg) (s : State) : Bool := s.resetPin || (s.busy && r.isDatapath)

/-- What a host read of a register gets (10_state.md R36). A free read draws the next unspecified
value. -/
def readReg (r : Reg) (s : State) : Word × State :=
  if readIsFree r s then (Config.unspecified s.draws, { s with draws := s.draws + 1 })
  else (regValue r s, s)

/-- Both resets (70_reset_and_hazards.md R241, R242): every register takes its reset value and the
command in flight is abandoned without completing. System memory, the build, the reset input and the
host side stay. CBUF's value is unspecified (10_state.md R47): it stays (DESIGN CHOICE, log 3). -/
def coreReset (s : State) : State :=
  { State.resetOn s.build with
    cbuf := s.cbuf
    mem := s.mem
    resetPin := s.resetPin
    events := s.events
    reply := s.reply
    draws := s.draws
    grain := s.grain }

/-- A host write to CTRL: bit 1 resets and the rest of the word is discarded; otherwise IE takes bit
0 (10_state.md R23, R24). -/
def writeCtrl (w : Word) (s : State) : State :=
  if w.getLsbD 1 then coreReset s else { s with ie := w.getLsbD 0 }

/-- The effect of a host write that is not ignored (10_state.md R23 to R34, R40 to R45). Writes to
read-only and reserved offsets have none; a write to CMD is `issue`'s. -/
def storeReg (r : Reg) (w : Word) (s : State) : State :=
  match r with
  | .ctrl => writeCtrl w s
  | .status => clearStatus w s
  | .tileBw => { s with tileBw := w.setWidth 16 }
  | .tileBh => { s with tileBh := w.setWidth 16 }
  | .pixBase => { s with pixBase := w }
  | .pixStride => { s with pixStride := w }
  | .pktBase => { s with pktBase := w }
  | .pktBuflen => { s with pktBuflen := w }
  | .c i => { s with c := s.c.set i w }
  | .rmin i => { s with rmin := s.rmin.set i w }
  | .rmax i => { s with rmax := s.rmax.set i w }
  | .q i => { s with q := s.q.set i w }
  | .record => { s with record := w }
  | .v j => { s with v := s.v.set j w }
  | .id => s
  | .version => s
  | .param => s
  | .cmd => s
  | .faultAddr => s
  | .pktLen => s
  | .mean _ => s
  | .basis _ _ => s
  | .reserved => s

/-- A host write to a register other than an accepted CMD write: ignored while the reset input is
asserted, ignored with WIGN set when the register is frozen by BUSY (10_state.md R35), else
stored. -/
def writeReg (r : Reg) (w : Word) (s : State) : State :=
  if s.resetPin then s
  else if s.busy && r.isFrozen then { s with wign := true }
  else storeReg r w s

/-- The port takes only naturally aligned 32-bit accesses (20_memory.md R70). -/
def portTakes (off : BitVec 14) (width : Nat) : Bool := width == 4 && off.toNat % 4 == 0

/-- The offset in the register window of a bus address: the window is 0x4000 bytes at MMIO_BASE
(20_memory.md R60, R76). -/
def windowOffset (base addr : Word) : Option (BitVec 14) :=
  if base.toNat ≤ addr.toNat ∧ addr.toNat < base.toNat + 0x4000 then
    some (BitVec.ofNat 14 (addr.toNat - base.toNat))
  else none

/-- A host action with a bus address inside the window turned into the access at its offset. -/
def HostAct.resolve (base : Word) (act : HostAct) : HostAct :=
  match act with
  | .busWrite addr width w =>
    match windowOffset base addr with
    | some off => .regWrite off width w
    | none => .busWrite addr width w
  | .busRead addr width =>
    match windowOffset base addr with
    | some off => .regRead off width
    | none => .busRead addr width
  | .regWrite off width w => .regWrite off width w
  | .regRead off width => .regRead off width
  | .memWrite a v => .memWrite a v
  | .memRead a => .memRead a
  | .assertReset => .assertReset
  | .releaseReset => .releaseReset

/-- A host action other than an accepted CMD write. A bus access outside the window is not the
CORE's and gets nothing from it. The host's own memory accesses move one byte (30_encoding.md R93
MEMW, MEMR; 20_memory.md R60). DESIGN CHOICE (log 9): 70_reset_and_hazards.md R241 describes the
assertion of a released reset input and the release of an asserted one; an assertion of an input that
is asserted, and a release of one that is not, reset the CORE as the others do. -/
def hostAct (act : HostAct) (s : State) : State :=
  match act with
  | .regWrite off width w =>
    if portTakes off width then { writeReg (regAt off) w s with reply := .ack }
    else { s with reply := .portError }
  | .regRead off width =>
    if portTakes off width then
      { (readReg (regAt off) s).2 with reply := .word (readReg (regAt off) s).1 }
    else { s with reply := .portError }
  | .busWrite _ _ _ => { s with reply := .none }
  | .busRead _ _ => { s with reply := .none }
  | .memWrite a v => { s with mem := s.mem.write a.toNat v, reply := .ack }
  | .memRead a => { s with reply := .byte (s.mem.read a.toNat) }
  | .assertReset => { coreReset s with resetPin := true, reply := .ack }
  | .releaseReset => { coreReset s with resetPin := false, reply := .ack }

end Sys2Proof.Machine
end

