-- ==== Sys2Proof/Machine/Issue.lean ====
section
/-! DEFINITION. Issue of commands and the landing of host actions (spec 30_encoding.md R87, R88;
10_state.md R48). -/

namespace Sys2Proof.Machine

/-- A command checked and begun, its body in flight: what a per-access representation does at
acceptance (10_state.md R48, 30_encoding.md R88). -/
def start (i : Instr) (s : State) : State :=
  match i with
  | .nop => startNop s
  | .encTile => startEncTile s
  | .decTile => startDecTile s
  | .vecLoad k => startVecLoad k s
  | .vecStore k => startVecStore k s
  | .projFwd => startProjFwd s
  | .projInv => startProjInv s
  | .rangeClr => startRangeClr s
  | .rangeAcc => startRangeAcc s
  | .quant => startQuant s
  | .dequant => startDequant s
  | .hdrStore => startHdrStore s
  | .hdrLoad => startHdrLoad s
  | .recStore k => startRecStore k s
  | .recLoad k => startRecLoad k s

/-- An accepted word taken up: an illegal one completes at once with OPC (30_encoding.md R84, R88;
60_exceptions.md R212); a command runs whole, or is begun with its body in flight. -/
def issue (w : Word) (s : State) : Host.Outcome State Fault Refusal :=
  match decode w with
  | .error _ => .next (complete .opc (accept w s))
  | .ok i =>
    match s.grain with
    | .whole => exec i (accept w s)
    | .perAccess => .next (start i (accept w s))

/-- The command word a host action issues: a full, aligned write to CMD while BUSY = 0 and the reset
input is released (30_encoding.md R87, 10_state.md R27). -/
def issuedWord (act : HostAct) (s : State) : Option Word :=
  match act with
  | .regWrite off width w =>
    if portTakes off width ∧ off = cmdOffset ∧ s.resetPin = false ∧ s.busy = false then some w
    else none
  | .regRead _ _ => none
  | .busWrite _ _ _ => none
  | .busRead _ _ => none
  | .memWrite _ _ => none
  | .memRead _ => none
  | .assertReset => none
  | .releaseReset => none

/-- A host action with its offset known lands. -/
def landAct (act : HostAct) (s : State) : Host.Outcome State Fault Refusal :=
  match issuedWord act s with
  | some w => issue w { s with reply := .ack }
  | none => .next (hostAct act s)

/-- A host action lands (10_state.md R26 to R36, 30_encoding.md R87). -/
def land (act : HostAct) (s : State) : Host.Outcome State Fault Refusal :=
  match act with
  | .regWrite off width w => landAct (.regWrite off width w) s
  | .regRead off width => landAct (.regRead off width) s
  | .busWrite addr width w => landAct (HostAct.resolve s.build.mmioBase (.busWrite addr width w)) s
  | .busRead addr width => landAct (HostAct.resolve s.build.mmioBase (.busRead addr width)) s
  | .memWrite a v => landAct (.memWrite a v) s
  | .memRead a => landAct (.memRead a) s
  | .assertReset => landAct .assertReset s
  | .releaseReset => landAct .releaseReset s

/-- The core engine's piece of work after what the host did in the same instant: of a clear of DONE
and a completion the completion wins (10_state.md R26). -/
def thenTick (o : Host.Outcome State Fault Refusal) : Host.Outcome State Fault Refusal :=
  match o with
  | .next s => .next (engineTick s)
  | .fault r => .fault r
  | .refused r => .refused r

/-- The command in flight, if any is left, run to its end after what the host did while it was in
flight (10_state.md R48). -/
def thenFinish (o : Host.Outcome State Fault Refusal) : Host.Outcome State Fault Refusal :=
  match o with
  | .next s => .next (finish s)
  | .fault r => .fault r
  | .refused r => .refused r

/-- An accepted word taken up with its body, if it has one, in flight (30_encoding.md R88). -/
def takeUp (w : Word) (s : State) : State :=
  match decode w with
  | .error _ => complete .opc (accept w s)
  | .ok i => start i (accept w s)

/-- A host that writes `w` to CMD and acts once more while that command is in flight. Where a command
is one atomic step, a drawn prefix of its accesses comes before the second action, and the rest of the
command, if it was not abandoned, after it (70_reset_and_hazards.md R242, 20_memory.md R73); where it
is a step for each piece, the second action comes before the first piece. A word that is not accepted
leaves the two actions one after the other. -/
def landDuring (w : Word) (act : HostAct) (s : State) : Host.Outcome State Fault Refusal :=
  match issuedWord (.regWrite cmdOffset 4 w) s with
  | none => land act (hostAct (.regWrite cmdOffset 4 w) s)
  | some v =>
    match s.grain with
    | .whole => thenFinish (land act (performPart (takeUp v { s with reply := .ack })))
    | .perAccess => land act (takeUp v { s with reply := .ack })

/-- One round of a host's poll (30_encoding.md R93 POLL): it reads the register; the poll is over
when the masked value is there, else it stays the next event and the core engine does a piece of
work. -/
def pollRound (off : BitVec 14) (mask value : Word) (s : State) (rest : List Event) : State :=
  if portTakes off 4 then
    if (readReg (regAt off) s).1 &&& mask = value then
      { hostAct (.regRead off 4) s with events := rest }
    else engineTick (hostAct (.regRead off 4) s)
  else { hostAct (.regRead off 4) s with events := rest }

/-- The next event happens (20_memory.md R73: any interleaving, as the events say). With no event
left the core engine goes on alone (70_reset_and_hazards.md R263). -/
def nextEvent (s : State) : Host.Outcome State Fault Refusal :=
  match s.events with
  | [] => .next (engineTick s)
  | .core :: rest => .next (engineTick { s with events := rest })
  | .host act :: rest => land act { s with events := rest }
  | .both act :: rest => thenTick (land act { s with events := rest })
  | .poll off mask value :: rest => .next (pollRound off mask value s rest)
  | .during w act :: rest => landDuring w act { s with events := rest }

/-- The state with the word written to CMD as the very next event, idle, out of reset, and with
commands run whole: what the next step needs to run exactly that word. -/
def withCommand (w : Word) (s : State) : State :=
  { s with
    events := .host (.regWrite cmdOffset 4 w) :: s.events
    inflight := none
    rbuf := []
    resetPin := false
    grain := .whole }

end Sys2Proof.Machine
end

