-- ==== Sys2Proof/Machine/Step.lean ====
section
/-! DEFINITION. One step of the machine, and the placing of a word where the next step takes it. -/

namespace Sys2Proof.Machine

/-- One step: the next event happens. The CORE fetches nothing (00_scope.md R4): a command comes as a
host write to CMD. -/
def step (s : State) : Host.Outcome State Fault Refusal := nextEvent s

/-- `s` with the instruction's word (its low `nbits` bits) written to CMD by the very next event. -/
def State.withFetchWord (s : State) (nbits w : Nat) : State :=
  withCommand (BitVec.ofNat 32 (w % 2 ^ nbits)) s

end Sys2Proof.Machine
end

