-- ==== Sys2Proof/Safety.lean ====
section
/-! DEFINITION. The terms in which claims about runs are stated: what a binary32 pattern stands for
and what its rounding is, said apart from the machine's arithmetic; the invariant of the machine, a
well-formed build, the checks each command makes (spec 30_encoding.md R90), the body of each command,
and what an answered body is. -/

namespace Sys2Proof.Machine

/-- The exponent field, bits 30:23 (00_scope.md R12). -/
def f32Exponent (x : F32) : Nat := (x.extractLsb' 23 8).toNat

/-- The fraction field, bits 22:0 (00_scope.md R12). -/
def f32Fraction (x : F32) : Nat := (x.extractLsb' 0 23).toNat

/-- The number a pattern that is no NaN stands for, in IEEE 754 binary32 (00_scope.md R12): the
subnormals and zeros share the smallest exponent, the others have a leading 1. The infinities get
±2^128, beyond every finite value, so that order among values is order among numbers. -/
def f32Value (x : F32) : ℚ :=
  (if x.getLsbD 31 then -1 else 1)
    * (if f32Exponent x = 0 then (f32Fraction x : ℚ)
       else (2 ^ 23 + f32Fraction x : ℚ) * 2 ^ (f32Exponent x - 1))
    / 2 ^ 149

/-- `r` is the number `q` rounded once to nearest, ties to even (00_scope.md R12): an infinity from
halfway past the largest finite value on; else finite, no finite value nearer, an even fraction where
another is as near; and of q's sign, even where the magnitude rounds to zero. -/
structure RoundsTo (q : ℚ) (r : F32) : Prop where
  overflow : 2 ^ 128 - 2 ^ 103 ≤ |q| → f32Exponent r = 255 ∧ f32Fraction r = 0
  finite : |q| < 2 ^ 128 - 2 ^ 103 → f32Exponent r ≠ 255
  nearest : |q| < 2 ^ 128 - 2 ^ 103 →
    ∀ y : F32, f32Exponent y ≠ 255 → |f32Value r - q| ≤ |f32Value y - q|
  tieToEven : |q| < 2 ^ 128 - 2 ^ 103 →
    ∀ y : F32, f32Exponent y ≠ 255 → |f32Value y - q| = |f32Value r - q| →
      f32Value y ≠ f32Value r → r.getLsbD 0 = false
  negative : q < 0 → r.getLsbD 31 = true
  positive : 0 < q → r.getLsbD 31 = false

/-- A build as 00_scope.md R9 asks for it: finite basis, 1 ≤ MAX_BLOCKS ≤ 65535, MMIO_BASE a multiple
of 0x4000. -/
def Build.WellFormed (b : Build) : Prop :=
  (∀ j : Fin 192, isFinite b.mean[j] = true)
  ∧ (∀ (i : Fin 8) (j : Fin 192), isFinite (b.basis[i])[j] = true)
  ∧ 1 ≤ b.maxBlocks ∧ b.maxBlocks ≤ 65535
  ∧ b.mmioBase.toNat % 0x4000 = 0

/-- Every listed byte lies in the 2^32 byte addresses of system memory (20_memory.md R60). -/
def Memory.InSpace (m : Memory) : Prop := ∀ cell ∈ m, cell.1 < 2 ^ 32

/-- Every address of a body is below 2^32 (20_memory.md R63). -/
def BodyInSpace (ops : List MicroOp) : Prop := ∀ p ∈ accessSeq ops, p.2 < 2 ^ 32

/-- Every access of a body completes (20_memory.md R61). -/
def BodyAnswered (s : State) (ops : List MicroOp) : Prop :=
  ∀ p ∈ accessSeq ops, s.answer p.1 p.2 = .completes

/-- What every step keeps: the memory's canonical form and its bounds (20_memory.md R60), CBUF's size
(10_state.md R47), ERR never one of the reserved codes (60_exceptions.md R210), no address of the
command in flight outside the address space (20_memory.md R63), DONE clear while BUSY
(30_encoding.md R87, R91), no bytes held by an idle engine, and no command in flight and no
completion shown while the reset input is asserted (70_reset_and_hazards.md R241). -/
structure State.Inv (s : State) : Prop where
  memWf : s.mem.wf = true
  memInSpace : s.mem.InSpace
  cbufSize : s.cbuf.length = s.build.maxBlocks
  errCode : s.err.toNat ≤ 6
  bodyInSpace : ∀ ops, s.inflight = some ops → BodyInSpace ops
  busyNotDone : s.inflight ≠ none → s.done = false
  idleEmpty : s.inflight = none → s.rbuf = []
  heldInReset : s.resetPin = true → s.inflight = none ∧ s.done = false

/-- The block vector of block k of the tile in memory: its 192 samples converted forward
(40_vectorizer.md R102). -/
def State.tileBlock (s : State) (k : Nat) : BlockVec :=
  Vector.ofFn fun j => vecFwdSample (s.mem.read (s.pixAddr k j))

/-- The coefficients of block k of the tile in memory (41_projection.md R121). -/
def State.tileCoeffs (s : State) (k : Nat) : Coeffs := projFwd s.build (s.tileBlock k)

/-- RMIN over the first n blocks of the tile in memory (45_tile.md R191, pass 1). -/
def State.tileMin (s : State) (n : Nat) : Coeffs :=
  (List.range n).foldl (fun lo k => rangeMin (s.tileCoeffs k) lo) emptyMin

/-- RMAX over the first n blocks of the tile in memory (45_tile.md R191, pass 1). -/
def State.tileMax (s : State) (n : Nat) : Coeffs :=
  (List.range n).foldl (fun hi k => rangeMax (s.tileCoeffs k) hi) emptyMax

/-- The codes ENC_TILE gives block k, against the range of the whole tile (45_tile.md R191,
pass 2). -/
def State.tileCodes (s : State) (k : Nat) : Codes :=
  quantCodes (s.tileCoeffs k) (s.tileMin s.blocks) (s.tileMax s.blocks)

/-- The little-endian word at four header bytes of a memory (44_packet.md R171). -/
def State.hdrWord (s : State) (e : Fin 16) : Word :=
  wordOfBytes (s.mem.read (s.hdrAddr (Fin.ofNat 64 (4 * e.val))))
    (s.mem.read (s.hdrAddr (Fin.ofNat 64 (4 * e.val + 1))))
    (s.mem.read (s.hdrAddr (Fin.ofNat 64 (4 * e.val + 2))))
    (s.mem.read (s.hdrAddr (Fin.ofNat 64 (4 * e.val + 3))))

/-- RMIN as the packet header in memory holds it (44_packet.md R173). -/
def State.packetMin (s : State) : Coeffs := Vector.ofFn fun i => s.hdrWord (Fin.ofNat 16 i.val)

/-- RMAX as the packet header in memory holds it (44_packet.md R173). -/
def State.packetMax (s : State) : Coeffs :=
  Vector.ofFn fun i => s.hdrWord (Fin.ofNat 16 (8 + i.val))

/-- The record of block k as a memory holds it (44_packet.md R174, R176). -/
def State.recordIn (s : State) (m : Memory) (k : Nat) : Word :=
  wordOfBytes (m.read (s.recAddr k 0)) (m.read (s.recAddr k 1)) (m.read (s.recAddr k 2))
    (m.read (s.recAddr k 3))

/-- The coefficients a record stands for, against the range in the packet header (43_quantizer.md
R157). -/
def State.decodedCoeffs (s : State) (r : Word) : Coeffs :=
  dequantCoeffs (unpackCodes r) s.packetMin s.packetMax

/-- The block vector a record stands for (41_projection.md R123). -/
def State.decodedBlock (s : State) (r : Word) : BlockVec :=
  projInv s.build (s.decodedCoeffs r)

/-- A memory with a block vector written as block k of the tile (40_vectorizer.md R105). -/
def State.withBlock (s : State) (m : Memory) (k : Nat) (v : BlockVec) : Memory :=
  m.writeAll ((List.finRange 192).map fun j =>
    (s.pixAddr k j, BitVec.ofNat 8 (vecInvSample v[j]).1))

/-- Memory after DEC_TILE has decoded the first n blocks: record k is read from the memory that
blocks 0..k-1 have been written to (45_tile.md R192). -/
def State.decodedMem (s : State) (n : Nat) : Memory :=
  (List.range n).foldl (fun m k => s.withBlock m k (s.decodedBlock (s.recordIn m k))) s.mem

/-- The record DEC_TILE reads for block k (45_tile.md R192). -/
def State.decodedRecord (s : State) (k : Nat) : Word := s.recordIn (s.decodedMem k) k

end Sys2Proof.Machine

namespace Sys2Proof

open Sys2Proof.Machine

/-- The command makes the check CFG (30_encoding.md R90). -/
def Instr.needsCfg : Instr → Bool
  | .encTile => true
  | .decTile => true
  | .vecLoad _ => true
  | .vecStore _ => true
  | .recStore _ => true
  | .recLoad _ => true
  | .nop => false
  | .projFwd => false
  | .projInv => false
  | .rangeClr => false
  | .rangeAcc => false
  | .quant => false
  | .dequant => false
  | .hdrStore => false
  | .hdrLoad => false

/-- The check SIZE passes, for the commands that make it (30_encoding.md R89, R90); true for the
others. -/
def Instr.SizeOk (i : Instr) (s : State) : Prop :=
  match i with
  | .encTile => 64 + 4 * (s.tileBw.toNat * s.tileBh.toNat) ≤ s.pktBuflen.toNat
  | .decTile => s.pktBuflen.toNat = 64 + 4 * (s.tileBw.toNat * s.tileBh.toNat)
  | .hdrStore => 64 ≤ s.pktBuflen.toNat
  | .hdrLoad => 64 ≤ s.pktBuflen.toNat
  | .recStore k => 64 + 4 * k + 4 ≤ s.pktBuflen.toNat
  | .recLoad k => 64 + 4 * k + 4 ≤ s.pktBuflen.toNat
  | .nop => True
  | .vecLoad _ => True
  | .vecStore _ => True
  | .projFwd => True
  | .projInv => True
  | .rangeClr => True
  | .rangeAcc => True
  | .quant => True
  | .dequant => True

/-- The check CFG passes where it is made (30_encoding.md R89, R90). -/
def Instr.CfgOk (i : Instr) (s : State) : Prop :=
  i.needsCfg = true →
    1 ≤ s.tileBw.toNat ∧ 1 ≤ s.tileBh.toNat ∧ s.tileBw.toNat * s.tileBh.toNat ≤ s.build.maxBlocks

/-- The check ARG passes where it is made (30_encoding.md R89, R90). -/
def Instr.ArgOk (i : Instr) (s : State) : Prop :=
  ∀ k, i.blockIndex = some k → k < s.tileBw.toNat * s.tileBh.toNat

/-- The body of each command (30_encoding.md R88 `body`). -/
def Instr.body (i : Instr) (s : State) : List MicroOp :=
  match i with
  | .nop => []
  | .encTile => encTileOps s
  | .decTile => decTileOps s
  | .vecLoad k => vecLoadOps s k
  | .vecStore k => vecStoreOps s k
  | .projFwd => [.unit .projFwd]
  | .projInv => [.unit .projInv]
  | .rangeClr => [.unit .rangeClr]
  | .rangeAcc => [.unit .rangeAcc]
  | .quant => [.unit .quant]
  | .dequant => [.unit .dequant]
  | .hdrStore => hdrStoreOps s
  | .hdrLoad => hdrLoadOps s
  | .recStore k => recStoreOps s k
  | .recLoad k => recLoadOps s k

end Sys2Proof
end

