-- ==== Sys2Proof/Certificates/Slice0/Obligations.lean ====
section
/-! DEFINITION. The statements about this machine, for the provers. Every statement about a command
is about `exec` on a state in which the command has been accepted; none of them needs more of that
state than it says. A next state is given as the old one with the named fields replaced, so each
statement is a frame as well: every field it does not name is unchanged. -/

open Sys2Proof Sys2Proof.Machine

/-! ### The command word -/

/-- Decoding the word of a well-formed command gives the command back, with every operand at every
value K can hold (30_encoding.md R80, R81, R82, R92). -/
def Obligations.DecodeOfEncode : Prop :=
  ∀ i : Instr, i.wellFormed = true → decode (encode i) = .ok i

/-- A legal word is the word of the command it decodes to, so no bit of it is dropped
(30_encoding.md R80, R82). -/
def Obligations.EncodeOfDecode : Prop :=
  ∀ (w : Word) (i : Instr), decode w = .ok i → encode i = w ∧ i.wellFormed = true

/-- R83: which words are which command, as match and mask. -/
def Obligations.CommandsMatchTheirMasks : Prop :=
  ∀ w : Word,
    ((∃ k, decode w = .ok (.vecLoad k)) ↔ w &&& 0xFF0000FF = 0x10)
    ∧ ((∃ k, decode w = .ok (.vecStore k)) ↔ w &&& 0xFF0000FF = 0x11)
    ∧ ((∃ k, decode w = .ok (.recStore k)) ↔ w &&& 0xFF0000FF = 0x52)
    ∧ ((∃ k, decode w = .ok (.recLoad k)) ↔ w &&& 0xFF0000FF = 0x53)
    ∧ (decode w = .ok .nop ↔ w = 0x00)
    ∧ (decode w = .ok .encTile ↔ w = 0x01)
    ∧ (decode w = .ok .decTile ↔ w = 0x02)
    ∧ (decode w = .ok .projFwd ↔ w = 0x20)
    ∧ (decode w = .ok .projInv ↔ w = 0x21)
    ∧ (decode w = .ok .rangeClr ↔ w = 0x30)
    ∧ (decode w = .ok .rangeAcc ↔ w = 0x31)
    ∧ (decode w = .ok .quant ↔ w = 0x40)
    ∧ (decode w = .ok .dequant ↔ w = 0x41)
    ∧ (decode w = .ok .hdrStore ↔ w = 0x50)
    ∧ (decode w = .ok .hdrLoad ↔ w = 0x51)

/-- R84: a word is illegal exactly when OP is not in the table, RSV is not zero, or OP is non-indexed
and K is not zero; and a host that writes an illegal word to CMD of an idle CORE sees it accepted and
completed at once with OPC, nothing but CMD_LAST and STATUS changed. -/
def Obligations.IllegalWordsCompleteWithOpc : Prop :=
  (∀ w : Word, (∃ e, decode w = .error e) ↔
      ((opField w).toNat ∉
          [0x00, 0x01, 0x02, 0x10, 0x11, 0x20, 0x21, 0x30, 0x31, 0x40, 0x41, 0x50, 0x51, 0x52, 0x53]
        ∨ rsvField w ≠ 0
        ∨ ((opField w).toNat ∈
            [0x00, 0x01, 0x02, 0x20, 0x21, 0x30, 0x31, 0x40, 0x41, 0x50, 0x51]
          ∧ kField w ≠ 0)))
  ∧ (∀ (s : State) (w : Word) (rest : List Event),
      s.events = .host (.regWrite 0x018 4 w) :: rest →
      s.inflight = none → s.resetPin = false → (∃ e, decode w = .error e) →
      step s = .next { s with
        events := rest, reply := .ack, cmdLast := w, rbuf := [], err := 1, done := true })

/-- The words of R94, as the spec writes them, decode as its table says. -/
def Obligations.ExampleWordsDecode : Prop :=
  decode 0x00000000 = .ok .nop
  ∧ decode 0x00000001 = .ok .encTile
  ∧ decode 0x00000002 = .ok .decTile
  ∧ decode 0x00000011 = .ok (.vecStore 0)
  ∧ decode 0x00012C10 = .ok (.vecLoad 300)
  ∧ decode 0x00000021 = .ok .projInv
  ∧ decode 0x00000031 = .ok .rangeAcc
  ∧ decode 0x00000040 = .ok .quant
  ∧ decode 0x00012B52 = .ok (.recStore 299)
  ∧ decode 0x00000753 = .ok (.recLoad 7)
  ∧ decode 0x00000140 = .error .strayIndex
  ∧ decode 0x01000001 = .error .reservedBits
  ∧ decode 0x00000003 = .error .reservedOp

/-- What the assembler of R92 makes of a mnemonic with or without an operand: the word
`(k << 8) | OP` or `OP`, and no word for an operand on a non-indexed command, a missing operand on an
indexed one, or k > 65535. -/
def Obligations.AssemblerGivesWordsAndRefuses : Prop :=
  ∀ i : Instr,
    (i.blockIndex = none →
      assemble i.mnemonic none = some (i.opcode.setWidth 32)
      ∧ ∀ text, assemble i.mnemonic (some text) = none)
    ∧ (∀ k, i.blockIndex = some k →
      assemble i.mnemonic none = none
      ∧ ∀ text j, indexOfText text = some j →
          assemble i.mnemonic (some text) =
            if j ≤ 65535 then some ((BitVec.ofNat 32 j <<< 8) ||| i.opcode.setWidth 32) else none)

/-! ### Steps -/

/-- When the next event is a full write of a legal word to CMD of an idle CORE out of reset, and
commands run whole, the step is `exec` of the decoded command on the accepted state: the event taken,
the write acknowledged, and CMD_LAST, DONE and BUSY as acceptance leaves them. -/
def Obligations.StepRunsTheDecodedCommand : Prop :=
  ∀ (s : State) (w : Word) (i : Instr) (rest : List Event),
    s.events = .host (.regWrite 0x018 4 w) :: rest →
    s.inflight = none → s.resetPin = false → s.grain = .whole → decode w = .ok i →
    step s = exec i { s with
      events := rest, reply := .ack, cmdLast := w, done := false, inflight := some [] }

/-- R87: acceptance of a command writes CMD_LAST, clears DONE and sets BUSY, and leaves ERR, NUMERR,
WIGN and FAULT_ADDR; a CMD write while BUSY = 1 is dropped and sets WIGN. Seen where commands run
piece by piece, on a command whose checks pass. -/
def Obligations.AcceptanceAndBusyWritesOfCmd : Prop :=
  (∀ (s : State) (w : Word) (i : Instr) (rest : List Event),
    s.events = .host (.regWrite 0x018 4 w) :: rest →
    s.inflight = none → s.resetPin = false → s.grain = .perAccess → decode w = .ok i →
    i.CfgOk s → i.ArgOk s → i.SizeOk s → BodyInSpace (i.body s) →
    ∃ t, step s = .next t
      ∧ t = { s with
          events := rest, reply := .ack, cmdLast := w, done := false
          inflight := some (i.body s), rbuf := [] }
      ∧ t.busy = true)
  ∧ (∀ (s : State) (w : Word) (rest : List Event),
    s.events = .host (.regWrite 0x018 4 w) :: rest →
    s.busy = true → s.resetPin = false →
    step s = .next { s with events := rest, reply := .ack, wign := true })

/-- A command run as one atomic step and the same command run one access at a time agree
(10_state.md R48), and the pieces it needs are counted by its body (70_reset_and_hazards.md R263). -/
def Obligations.PiecewiseRunEqualsWholeCommand : Prop :=
  ∀ (i : Instr) (s : State) (n : Nat),
    ((start i s).inflight.getD []).length + 1 ≤ n →
    exec i s = .next (engineTicks n (start i s))

/-- No state stops the machine: every step has a next state (60_exceptions.md R211: an error leaves
no stuck state). -/
def Obligations.EveryStepHasNextState : Prop :=
  ∀ s : State, ∃ t, step s = .next t

/-! ### Checks and errors -/

/-- R213: a command that uses the geometry and finds it not valid reports CFG, and changes no
datapath register, memory byte or FAULT_ADDR. -/
def Obligations.InvalidGeometryReportsCfg : Prop :=
  ∀ (i : Instr) (s : State),
    i.needsCfg = true →
    ¬ (1 ≤ s.tileBw.toNat ∧ 1 ≤ s.tileBh.toNat
        ∧ s.tileBw.toNat * s.tileBh.toNat ≤ s.build.maxBlocks) →
    exec i s = .next { s with inflight := none, rbuf := [], err := 2, done := true }

/-- R214: an indexed command that names a block k ≥ n reports ARG, and changes no datapath register,
memory byte or FAULT_ADDR. -/
def Obligations.BlockIndexOutOfTileReportsArg : Prop :=
  ∀ (i : Instr) (s : State) (k : Nat),
    i.blockIndex = some k → i.CfgOk s → s.tileBw.toNat * s.tileBh.toNat ≤ k →
    exec i s = .next { s with inflight := none, rbuf := [], err := 3, done := true }

/-- R215: a PKT_BUFLEN that does not fit the command is reported as SIZE, and changes no datapath
register, memory byte or FAULT_ADDR. -/
def Obligations.UnfitBufferLengthReportsSize : Prop :=
  ∀ (i : Instr) (s : State),
    i.CfgOk s → i.ArgOk s → ¬ i.SizeOk s →
    exec i s = .next { s with inflight := none, rbuf := [], err := 4, done := true }

/-- R216: with an address of 2^32 or more in the access sequence the command makes no access and
reports ADDR, FAULT_ADDR being the low 32 bits of the first such address. -/
def Obligations.HighAddressReportsAddr : Prop :=
  ∀ (i : Instr) (s : State) (pre post : List (Dir × Nat)) (d : Dir) (a : Nat),
    i.CfgOk s → i.ArgOk s → i.SizeOk s →
    accessSeq (i.body s) = pre ++ (d, a) :: post → (∀ p ∈ pre, p.2 < 2 ^ 32) → 2 ^ 32 ≤ a →
    exec i s = .next { s with
      inflight := none, rbuf := [], err := 5, done := true, faultAddr := BitVec.ofNat 32 a }

/-- R217: the first refused access ends the command with BUS; FAULT_ADDR is its address, the effects
of everything before it stay, and it and everything after it have none. -/
def Obligations.RefusedAccessReportsBus : Prop :=
  ∀ (i : Instr) (s : State) (pre post : List MicroOp) (op : MicroOp) (d : Dir) (a : Nat),
    i.CfgOk s → i.ArgOk s → i.SizeOk s → BodyInSpace (i.body s) →
    i.body s = pre ++ op :: post → BodyAnswered s pre →
    op.access = some (d, a) → s.answer d a = .refuses →
    exec i s = .next { effects pre { s with inflight := none, rbuf := [] } with
      inflight := none, rbuf := [], err := 6, done := true, faultAddr := BitVec.ofNat 32 a }

/-- A memory that never answers an access leaves the core engine at that access with BUSY = 1, however
long it runs, and a soft reset gets it out (70_reset_and_hazards.md R263, R242). That NUMERR does not yet
count the sample of the unanswered write is the model's choice (log 8). -/
def Obligations.UnansweredAccessStallsUntilReset : Prop :=
  ∀ (i : Instr) (s : State) (pre post : List MicroOp) (op : MicroOp) (d : Dir) (a : Nat),
    i.CfgOk s → i.ArgOk s → i.SizeOk s → BodyInSpace (i.body s) →
    i.body s = pre ++ op :: post → BodyAnswered s pre →
    op.access = some (d, a) → s.answer d a = .silent → s.resetPin = false →
    ∃ t, exec i s = .next t
      ∧ t = { effects pre { s with inflight := none, rbuf := [] } with
              inflight := some (op :: post) }
      ∧ t.busy = true
      ∧ (∀ n, engineTicks n t = t)
      ∧ (hostAct (.regWrite 0x010 4 2) t).busy = false

/-- If system memory answers every access of a command, with data or a refusal, the command completes
(70_reset_and_hazards.md R263): run whole in its one step, run piece by piece after as many pieces as
its body has, and one. -/
def Obligations.CommandCompletesWhenMemoryAnswers : Prop :=
  ∀ (i : Instr) (s : State),
    (∀ p ∈ accessSeq (i.body s), s.answer p.1 p.2 ≠ .silent) →
    ∃ t, exec i s = .next t ∧ t.busy = false ∧ t.done = true
      ∧ engineTicks (((start i s).inflight.getD []).length + 1) (start i s) = t

/-- The accesses of a command number at most 192·n + 64 + 4·n (70_reset_and_hazards.md R263). -/
def Obligations.AccessCountBounded : Prop :=
  ∀ (i : Instr) (s : State) (ops : List MicroOp),
    (start i s).inflight = some ops →
    (accessSeq ops).length
      ≤ 192 * (s.tileBw.toNat * s.tileBh.toNat) + 64 + 4 * (s.tileBw.toNat * s.tileBh.toNat)

/-- The access sequences of the table of 20_memory.md R64, with the addresses of R65 and of
44_packet.md R170 written out; the commands not in the table make no access. -/
def Obligations.AccessSequencesFollowTheTable : Prop :=
  ∀ s : State,
    let pix (k j : Nat) : Nat :=
      s.pixBase.toNat + (8 * (k / s.tileBw.toNat) + (j % 64) / 8) * s.pixStride.toNat
        + 3 * (8 * (k % s.tileBw.toNat) + j % 8) + j / 64
    let n := s.tileBw.toNat * s.tileBh.toNat
    let block (d : Dir) (k : Nat) := (List.range 192).map fun j => (d, pix k j)
    let header (d : Dir) := (List.range 64).map fun b => (d, s.pktBase.toNat + b)
    let record (d : Dir) (k : Nat) :=
      (List.range 4).map fun b => (d, s.pktBase.toNat + 64 + 4 * k + b)
    (∀ k, accessSeq (Instr.body (.vecLoad k) s) = block .read k)
    ∧ (∀ k, accessSeq (Instr.body (.vecStore k) s) = block .write k)
    ∧ accessSeq (Instr.body .hdrStore s) = header .write
    ∧ accessSeq (Instr.body .hdrLoad s) = header .read
    ∧ (∀ k, accessSeq (Instr.body (.recStore k) s) = record .write k)
    ∧ (∀ k, accessSeq (Instr.body (.recLoad k) s) = record .read k)
    ∧ accessSeq (Instr.body .encTile s)
        = (List.range n).flatMap (block .read) ++ header .write
            ++ (List.range n).flatMap (record .write)
    ∧ accessSeq (Instr.body .decTile s)
        = header .read ++ (List.range n).flatMap (fun k => record .read k ++ block .write k)
    ∧ ∀ i ∈ [Instr.nop, .projFwd, .projInv, .rangeClr, .rangeAcc, .quant, .dequant],
        accessSeq (i.body s) = []

/-! ### What each command does -/

/-- R190: NOP completes with OK and changes nothing else. -/
def Obligations.NopOnlyCompletes : Prop :=
  ∀ s : State,
    exec .nop s = .next { s with inflight := none, rbuf := [], err := 0, done := true }

/-- PROJ_FWD: each C[i] is the sum, j ascending and each step rounded, of (V[j] - MEAN[j])·BASIS[i][j]
from +0.0; nothing else but the completion changes (41_projection.md R120, R121). -/
def Obligations.ProjFwdComputesCoefficients : Prop :=
  ∀ s : State, ∃ t, exec .projFwd s = .next t
    ∧ t = { s with c := t.c, inflight := none, rbuf := [], err := 0, done := true }
    ∧ ∀ i : Fin 8, t.c[i] =
        (List.finRange 192).foldl
          (fun acc j =>
            fadd acc (fmul (fsub s.v[j] s.build.mean[j]) (s.build.basis[i])[j])) 0x00000000

/-- PROJ_INV: each V[j] is MEAN[j] plus the sum, i ascending and each step rounded, of
C[i]·BASIS[i][j] from +0.0; nothing else but the completion changes (41_projection.md R122, R123). -/
def Obligations.ProjInvReconstructsBlock : Prop :=
  ∀ s : State, ∃ t, exec .projInv s = .next t
    ∧ t = { s with v := t.v, inflight := none, rbuf := [], err := 0, done := true }
    ∧ ∀ j : Fin 192, t.v[j] =
        fadd s.build.mean[j]
          ((List.finRange 8).foldl
            (fun acc i => fadd acc (fmul s.c[i] (s.build.basis[i])[j])) 0x00000000)

/-- RANGE_CLR: every RMIN[i] is +inf and every RMAX[i] is -inf; nothing else but the completion
changes (42_range.md R140). -/
def Obligations.RangeClrEmptiesTheRange : Prop :=
  ∀ s : State, ∃ t, exec .rangeClr s = .next t
    ∧ t = { s with
        rmin := t.rmin, rmax := t.rmax, inflight := none, rbuf := [], err := 0, done := true }
    ∧ ∀ i : Fin 8, t.rmin[i] = 0x7F800000 ∧ t.rmax[i] = 0xFF800000

/-- RANGE_ACC: each channel of RMIN and RMAX takes C[i] when it is strictly less, strictly greater;
nothing else but the completion changes (42_range.md R141). -/
def Obligations.RangeAccWidensTheRange : Prop :=
  ∀ s : State, ∃ t, exec .rangeAcc s = .next t
    ∧ t = { s with
        rmin := t.rmin, rmax := t.rmax, inflight := none, rbuf := [], err := 0, done := true }
    ∧ ∀ i : Fin 8,
        t.rmin[i] = (if flt s.c[i] s.rmin[i] then s.c[i] else s.rmin[i])
        ∧ t.rmax[i] = (if fgt s.c[i] s.rmax[i] then s.c[i] else s.rmax[i])

/-- QUANT: each Q[i] is the code of C[i] on its channel's range with L = (255, 255, 15, 15, 3, 3, 3, 3):
0 where RMAX[i] ≤ RMIN[i]; else (C[i] - RMIN[i]) / (RMAX[i] - RMIN[i]), clamped to [0, 1], times L[i],
rounded to an integer, each step rounded, and 0 where that is a NaN. None of it is lost to the
register's width; REC has the codes in the bits of the record layout; NUMERR is set when some
conversion meets a NaN; nothing else but the completion changes (43_quantizer.md R150, R151, R154,
R156). -/
def Obligations.QuantCodesAndPacks : Prop :=
  ∀ s : State, ∃ t, exec .quant s = .next t
    ∧ t = { s with
        q := t.q, record := t.record, numerr := t.numerr
        inflight := none, rbuf := [], err := 0, done := true }
    ∧ let scaled (i : Fin 8) : F32 :=
        roundf (fmul
          (clampf (fdiv (fsub s.c[i] s.rmin[i]) (fsub s.rmax[i] s.rmin[i])) 0x00000000 0x3F800000)
          (f32OfNat (#v[255, 255, 15, 15, 3, 3, 3, 3][i])))
      (∀ i : Fin 8,
        (t.q.get i = if fle s.rmax[i] s.rmin[i] then 0 else (toNatFlag (scaled i)).1)
        ∧ (t.record.toNat / 2 ^ codeLowBit i) % 2 ^ codeWidth i = t.q.get i)
      ∧ (t.numerr = true ↔
          s.numerr = true
            ∨ ∃ i : Fin 8, fle s.rmax[i] s.rmin[i] = false ∧ isNaN (scaled i) = true)

/-- DEQUANT: each Q[i] is its field of REC, and each C[i] is
RMIN[i] + (Q[i] / L[i])·(RMAX[i] - RMIN[i]), each step rounded; nothing else but the completion changes
(43_quantizer.md R153, R155, R157). -/
def Obligations.DequantUnpacksAndScales : Prop :=
  ∀ s : State, ∃ t, exec .dequant s = .next t
    ∧ t = { s with q := t.q, c := t.c, inflight := none, rbuf := [], err := 0, done := true }
    ∧ ∀ i : Fin 8,
        t.q.get i = (s.record.toNat / 2 ^ codeLowBit i) % 2 ^ codeWidth i
        ∧ t.c[i] =
            fadd s.rmin[i]
              (fmul (fdiv (f32OfNat (t.q.get i)) (f32OfNat (2 ^ codeWidth i - 1)))
                (fsub s.rmax[i] s.rmin[i]))

/-- VEC_LOAD k on a valid geometry, a block of the tile, and 192 addresses below 2^32 whose reads
complete: each V[j] is the byte at PixAddr(k, j) divided by 255; nothing else but the completion
changes, no byte of memory among it (40_vectorizer.md R101, R102). -/
def Obligations.VecLoadUnpacksTheBlock : Prop :=
  ∀ (s : State) (k : Nat),
    Instr.CfgOk (.vecLoad k) s → Instr.ArgOk (.vecLoad k) s →
    (∀ j : Fin 192, s.pixAddr k j < 2 ^ 32 ∧ s.answer .read (s.pixAddr k j) = .completes) →
    ∃ t, exec (.vecLoad k) s = .next t
      ∧ t = { s with v := t.v, inflight := none, rbuf := [], err := 0, done := true }
      ∧ ∀ j : Fin 192,
          t.v[j] = fdiv (f32OfNat (s.mem.read (s.pixAddr k j)).toNat) 0x437F0000

/-- VEC_STORE k on a valid geometry, a block of the tile, and 192 addresses below 2^32 whose writes
complete: the byte at PixAddr(k, j) is V[j]·255 rounded, clamped to 0..255 (of several samples at
one address the last); every other byte is unchanged; NUMERR is set when some V[j] is a NaN; nothing
else but the completion changes (40_vectorizer.md R103, R105). -/
def Obligations.VecStorePacksTheBlock : Prop :=
  ∀ (s : State) (k : Nat),
    Instr.CfgOk (.vecStore k) s → Instr.ArgOk (.vecStore k) s →
    (∀ j : Fin 192, s.pixAddr k j < 2 ^ 32 ∧ s.answer .write (s.pixAddr k j) = .completes) →
    ∃ t, exec (.vecStore k) s = .next t
      ∧ t = { s with
          mem := t.mem, numerr := t.numerr, inflight := none, rbuf := [], err := 0, done := true }
      ∧ (∀ j : Fin 192, (∀ j' : Fin 192, j < j' → s.pixAddr k j' ≠ s.pixAddr k j) →
          (t.mem.read (s.pixAddr k j)).toNat =
            (toNatFlag (clampf (roundf (fmul s.v[j] 0x437F0000)) 0x00000000 0x437F0000)).1)
      ∧ (∀ a, (∀ j : Fin 192, s.pixAddr k j ≠ a) → t.mem.read a = s.mem.read a)
      ∧ (t.numerr = true ↔ s.numerr = true ∨ ∃ j : Fin 192, isNaN s.v[j] = true)

/-- HDR_STORE with room for 64 bytes, all below 2^32, whose writes complete: bytes 0..31 of the packet
are RMIN and bytes 32..63 are RMAX, each value little-endian and bit for bit; every other byte is
unchanged; nothing else but the completion changes (44_packet.md R171, R172). -/
def Obligations.HdrStoreWritesTheHeader : Prop :=
  ∀ s : State,
    64 ≤ s.pktBuflen.toNat →
    (∀ b : Fin 64, s.hdrAddr b < 2 ^ 32 ∧ s.answer .write (s.hdrAddr b) = .completes) →
    ∃ t, exec .hdrStore s = .next t
      ∧ t = { s with mem := t.mem, inflight := none, rbuf := [], err := 0, done := true }
      ∧ (∀ (e : Fin 8) (b : Fin 4),
          t.mem.read (s.hdrAddr (Fin.ofNat 64 (4 * e.val + b.val)))
            = (s.rmin[e]).extractLsb' (8 * b.val) 8
          ∧ t.mem.read (s.hdrAddr (Fin.ofNat 64 (32 + 4 * e.val + b.val)))
            = (s.rmax[e]).extractLsb' (8 * b.val) 8)
      ∧ ∀ a, (∀ b : Fin 64, s.hdrAddr b ≠ a) → t.mem.read a = s.mem.read a

/-- HDR_LOAD with a buffer of 64 bytes, all below 2^32, whose reads complete: RMIN[e] and RMAX[e] are
the little-endian words of header bytes 4e.. and 32 + 4e..; nothing else but the completion changes,
no byte of memory among it (44_packet.md R173). -/
def Obligations.HdrLoadReadsTheHeader : Prop :=
  ∀ s : State,
    64 ≤ s.pktBuflen.toNat →
    (∀ b : Fin 64, s.hdrAddr b < 2 ^ 32 ∧ s.answer .read (s.hdrAddr b) = .completes) →
    ∃ t, exec .hdrLoad s = .next t
      ∧ t = { s with
          rmin := t.rmin, rmax := t.rmax, inflight := none, rbuf := [], err := 0, done := true }
      ∧ ∀ (e : Fin 8) (b : Fin 4),
          (t.rmin[e]).extractLsb' (8 * b.val) 8
            = s.mem.read (s.hdrAddr (Fin.ofNat 64 (4 * e.val + b.val)))
          ∧ (t.rmax[e]).extractLsb' (8 * b.val) 8
            = s.mem.read (s.hdrAddr (Fin.ofNat 64 (32 + 4 * e.val + b.val)))

/-- REC_STORE k on a valid geometry, a block of the tile, a buffer that holds its record, and 4
addresses below 2^32 whose writes complete: record byte b is REC[8b+7:8b]; every other byte is
unchanged; nothing else but the completion changes (44_packet.md R174, R175). -/
def Obligations.RecStoreWritesTheRecord : Prop :=
  ∀ (s : State) (k : Nat),
    Instr.CfgOk (.recStore k) s → Instr.ArgOk (.recStore k) s → Instr.SizeOk (.recStore k) s →
    (∀ b : Fin 4, s.recAddr k b < 2 ^ 32 ∧ s.answer .write (s.recAddr k b) = .completes) →
    ∃ t, exec (.recStore k) s = .next t
      ∧ t = { s with mem := t.mem, inflight := none, rbuf := [], err := 0, done := true }
      ∧ (∀ b : Fin 4, t.mem.read (s.recAddr k b) = s.record.extractLsb' (8 * b.val) 8)
      ∧ ∀ a, (∀ b : Fin 4, s.recAddr k b ≠ a) → t.mem.read a = s.mem.read a

/-- REC_LOAD k on a valid geometry, a block of the tile, a buffer that holds its record, and 4
addresses below 2^32 whose reads complete: REC[8b+7:8b] is record byte b; nothing else but the
completion changes, no byte of memory among it (44_packet.md R174, R176). -/
def Obligations.RecLoadReadsTheRecord : Prop :=
  ∀ (s : State) (k : Nat),
    Instr.CfgOk (.recLoad k) s → Instr.ArgOk (.recLoad k) s → Instr.SizeOk (.recLoad k) s →
    (∀ b : Fin 4, s.recAddr k b < 2 ^ 32 ∧ s.answer .read (s.recAddr k b) = .completes) →
    ∃ t, exec (.recLoad k) s = .next t
      ∧ t = { s with record := t.record, inflight := none, rbuf := [], err := 0, done := true }
      ∧ ∀ b : Fin 4, t.record.extractLsb' (8 * b.val) 8 = s.mem.read (s.recAddr k b)

/-- ENC_TILE on a valid geometry, a buffer that holds the packet, and addresses below 2^32 whose
accesses complete. The header is the range of the coefficients of all blocks, the record of block k is
the packed codes of its coefficients against that range, all computed from the pixel bytes as they
stood; every other byte is unchanged; V, C, Q and REC are left as block n-1 leaves them, RMIN and RMAX
as the header; NUMERR is set as QUANT sets it; nothing else but CBUF and the completion changes
(45_tile.md R191, R194). CBUF's size is the invariant of `State.Inv`. -/
def Obligations.EncTileEncodesTheTile : Prop :=
  ∀ s : State,
    Instr.CfgOk .encTile s → Instr.SizeOk .encTile s →
    s.cbuf.length = s.build.maxBlocks →
    (∀ k < s.blocks, ∀ j : Fin 192,
      s.pixAddr k j < 2 ^ 32 ∧ s.answer .read (s.pixAddr k j) = .completes) →
    (∀ b : Fin 64, s.hdrAddr b < 2 ^ 32 ∧ s.answer .write (s.hdrAddr b) = .completes) →
    (∀ k < s.blocks, ∀ b : Fin 4,
      s.recAddr k b < 2 ^ 32 ∧ s.answer .write (s.recAddr k b) = .completes) →
    ∃ t, exec .encTile s = .next t
      ∧ t = { s with
          v := s.tileBlock (s.blocks - 1)
          c := s.tileCoeffs (s.blocks - 1)
          rmin := s.tileMin s.blocks
          rmax := s.tileMax s.blocks
          q := s.tileCodes (s.blocks - 1)
          record := packCodes (s.tileCodes (s.blocks - 1))
          cbuf := t.cbuf, mem := t.mem, numerr := t.numerr
          inflight := none, rbuf := [], err := 0, done := true }
      ∧ (∀ b : Fin 64,
          t.mem.read (s.hdrAddr b) = hdrByte (s.tileMin s.blocks) (s.tileMax s.blocks) b)
      ∧ (∀ k < s.blocks, ∀ b : Fin 4,
          t.mem.read (s.recAddr k b) = byteOf (packCodes (s.tileCodes k)) b.val)
      ∧ (∀ a, (∀ b : Fin 64, s.hdrAddr b ≠ a) →
          (∀ k < s.blocks, ∀ b : Fin 4, s.recAddr k b ≠ a) → t.mem.read a = s.mem.read a)
      ∧ (t.numerr = true ↔ s.numerr = true
          ∨ ∃ k < s.blocks,
              quantFlag (s.tileCoeffs k) (s.tileMin s.blocks) (s.tileMax s.blocks) = true)

/-- DEC_TILE on a valid geometry, a buffer of exactly the packet's length, and addresses below 2^32
whose accesses complete. RMIN and RMAX are the header; block by block, record k is read from memory as
the pixels of the blocks before it have left it, dequantized, inverse-projected and written as block k;
every byte of no pixel is unchanged; REC, Q, C and V are left as block n-1 leaves them; NUMERR is set
when a reconstructed sample is a NaN; nothing else but the completion changes (45_tile.md R192,
R194; 20_memory.md R77). -/
def Obligations.DecTileDecodesThePacket : Prop :=
  ∀ s : State,
    Instr.CfgOk .decTile s → Instr.SizeOk .decTile s →
    (∀ b : Fin 64, s.hdrAddr b < 2 ^ 32 ∧ s.answer .read (s.hdrAddr b) = .completes) →
    (∀ k < s.blocks, ∀ b : Fin 4,
      s.recAddr k b < 2 ^ 32 ∧ s.answer .read (s.recAddr k b) = .completes) →
    (∀ k < s.blocks, ∀ j : Fin 192,
      s.pixAddr k j < 2 ^ 32 ∧ s.answer .write (s.pixAddr k j) = .completes) →
    ∃ t, exec .decTile s = .next t
      ∧ t = { s with
          v := s.decodedBlock (s.decodedRecord (s.blocks - 1))
          c := s.decodedCoeffs (s.decodedRecord (s.blocks - 1))
          rmin := s.packetMin
          rmax := s.packetMax
          q := unpackCodes (s.decodedRecord (s.blocks - 1))
          record := s.decodedRecord (s.blocks - 1)
          mem := t.mem, numerr := t.numerr
          inflight := none, rbuf := [], err := 0, done := true }
      ∧ (∀ a, t.mem.read a = (s.decodedMem s.blocks).read a)
      ∧ (∀ a, (∀ k < s.blocks, ∀ j : Fin 192, s.pixAddr k j ≠ a) →
          t.mem.read a = s.mem.read a)
      ∧ (t.numerr = true ↔ s.numerr = true
          ∨ ∃ k < s.blocks, ∃ j : Fin 192,
              isNaN (s.decodedBlock (s.decodedRecord k))[j] = true)

/-! ### Properties of the codec -/

/-- R193: two runs of a tile command on the same configuration and build, whose memories agree on what
the rule lets it depend on (ENC_TILE: the tile's pixel bytes; DEC_TILE: the packet bytes, pixel bytes
among them where the regions overlap), write the same bytes: at every address the memories afterwards
agree, or both are as they were. Whatever the datapath registers, CBUF's contents and STATUS were.
CBUF's size is the invariant of `State.Inv`. -/
def Obligations.TileCommandsAreStateless : Prop :=
  ∀ (i : Instr) (s s' t t' : State),
    (i = .encTile ∧ ∀ k < s.blocks, ∀ j : Fin 192,
        s.mem.read (s.pixAddr k j) = s'.mem.read (s.pixAddr k j))
      ∨ (i = .decTile
        ∧ (∀ b : Fin 64, s.mem.read (s.hdrAddr b) = s'.mem.read (s.hdrAddr b))
        ∧ ∀ k < s.blocks, ∀ b : Fin 4,
            s.mem.read (s.recAddr k b) = s'.mem.read (s.recAddr k b)) →
    s.build = s'.build → s.tileBw = s'.tileBw → s.tileBh = s'.tileBh →
    s.pixBase = s'.pixBase → s.pixStride = s'.pixStride →
    s.pktBase = s'.pktBase → s.pktBuflen = s'.pktBuflen →
    s.cbuf.length = s.build.maxBlocks → s'.cbuf.length = s'.build.maxBlocks →
    exec i s = .next t → exec i s' = .next t' →
    ∀ a, t.mem.read a = t'.mem.read a
      ∨ (t.mem.read a = s.mem.read a ∧ t'.mem.read a = s'.mem.read a)

/-- R106: the inverse sample conversion undoes the forward one on every byte, without NUMERR. -/
def Obligations.SampleConversionRoundTrip : Prop :=
  ∀ b : Byte, vecInvSample (vecFwdSample b) = (b.toNat, false)

/-- VEC_LOAD k and then VEC_STORE k leave every byte of memory as it was, where the reads and the
writes complete (40_vectorizer.md R106). -/
def Obligations.VecLoadThenStoreRestoresMemory : Prop :=
  ∀ (s t : State) (k : Nat),
    Instr.CfgOk (.vecLoad k) s → Instr.ArgOk (.vecLoad k) s →
    (∀ j : Fin 192, s.pixAddr k j < 2 ^ 32 ∧ s.answer .read (s.pixAddr k j) = .completes
      ∧ s.answer .write (s.pixAddr k j) = .completes) →
    exec (.vecLoad k) s = .next t →
    ∃ u, exec (.vecStore k) t = .next u ∧ u.err = 0
      ∧ ∀ a, u.mem.read a = s.mem.read a

/-- R104: the inverse sample conversion is total, its value is in 0..255, and it asks for NUMERR
exactly when its argument is a NaN. It, and every unit, computes with the arithmetic of
00_scope.md R12 and R13, said here in numbers: each of fadd, fsub, fmul and fdiv on finite values is the
exact result rounded once to nearest, ties to even, subnormals kept, overflow to an infinity
(`RoundsTo`), with IEEE's signs of zeros, infinities, and the canonical NaN for every NaN result; the
comparisons are those of the numbers, false on a NaN; f32OfNat is exact; roundf goes to the nearest
integer, halves away from zero; clampf lets a NaN through; to_nat gives the integer, or 0 and NUMERR
for a NaN. -/
def Obligations.InverseSampleTotalAndFlagged : Prop :=
  (∀ x : F32, (vecInvSample x).1 ≤ 255 ∧ (vecInvSample x).2 = isNaN x)
  -- NaN and infinity are IEEE's
  ∧ (∀ x : F32,
      (isNaN x = true ↔ f32Exponent x = 255 ∧ f32Fraction x ≠ 0)
      ∧ (isInf x = true ↔ f32Exponent x = 255 ∧ f32Fraction x = 0))
  -- finite operands: one rounding of the exact result
  ∧ (∀ a b : F32, f32Exponent a ≠ 255 → f32Exponent b ≠ 255 →
      RoundsTo (f32Value a + f32Value b) (fadd a b)
      ∧ RoundsTo (f32Value a - f32Value b) (fsub a b)
      ∧ RoundsTo (f32Value a * f32Value b) (fmul a b)
      ∧ (f32Value b ≠ 0 → RoundsTo (f32Value a / f32Value b) (fdiv a b)))
  -- zeros: an exact zero sum is +0.0 unless both operands have a minus sign; a product and a quotient
  -- have the product of the signs
  ∧ (∀ a b : F32, f32Exponent a ≠ 255 → f32Exponent b ≠ 255 →
      (f32Value a + f32Value b = 0 →
        fadd a b = if a.getLsbD 31 && b.getLsbD 31 then 0x80000000 else 0x00000000)
      ∧ (f32Value a * f32Value b = 0 → fmul a b = (a ^^^ b) &&& 0x80000000)
      ∧ (f32Value b ≠ 0 → f32Value a = 0 → fdiv a b = (a ^^^ b) &&& 0x80000000)
      ∧ (f32Value b = 0 → fdiv a b =
          if f32Value a = 0 then 0x7FC00000 else ((a ^^^ b) &&& 0x80000000) ||| 0x7F800000))
  -- a difference is the sum with the second operand's sign inverted
  ∧ (∀ a b : F32, fsub a b = fadd a (b ^^^ 0x80000000))
  -- an infinite operand
  ∧ (∀ a b : F32, isInf a = true → isNaN b = false →
      fadd a b = (if isInf b && (a.getLsbD 31 != b.getLsbD 31) then 0x7FC00000 else a)
      ∧ fadd b a = fadd a b
      ∧ fmul a b = (if f32Value b = 0 then 0x7FC00000
          else ((a ^^^ b) &&& 0x80000000) ||| 0x7F800000)
      ∧ fmul b a = fmul a b
      ∧ fdiv a b = (if isInf b then 0x7FC00000 else ((a ^^^ b) &&& 0x80000000) ||| 0x7F800000)
      ∧ (isInf b = false → fdiv b a = (a ^^^ b) &&& 0x80000000))
  -- a NaN operand
  ∧ (∀ a b : F32, isNaN a = true ∨ isNaN b = true →
      fadd a b = 0x7FC00000 ∧ fsub a b = 0x7FC00000 ∧ fmul a b = 0x7FC00000
        ∧ fdiv a b = 0x7FC00000)
  -- comparisons
  ∧ (∀ a b : F32,
      (flt a b = true ↔ isNaN a = false ∧ isNaN b = false ∧ f32Value a < f32Value b)
      ∧ (fgt a b = true ↔ isNaN a = false ∧ isNaN b = false ∧ f32Value a > f32Value b)
      ∧ (fle a b = true ↔ isNaN a = false ∧ isNaN b = false ∧ f32Value a ≤ f32Value b))
  -- conversions and the helpers of R13
  ∧ (∀ n : Nat, n ≤ 255 → f32Value (f32OfNat n) = n ∧ (f32OfNat n).getLsbD 31 = false)
  ∧ (∀ x : F32, f32Exponent x ≠ 255 →
      f32Value (roundf x) = (if x.getLsbD 31 then -1 else 1) * (⌊|f32Value x| + 1 / 2⌋ : ℚ)
      ∧ (roundf x).getLsbD 31 = x.getLsbD 31)
  ∧ (∀ x : F32, f32Exponent x = 255 → roundf x = x)
  ∧ (∀ x lo hi : F32, clampf x lo hi =
      if isNaN x then x else if flt x lo then lo else if fgt x hi then hi else x)
  ∧ (∀ x : F32, isNaN x = true → toNatFlag x = (0, true))
  ∧ (∀ (x : F32) (n : Nat), n ≤ 255 → isNaN x = false → f32Value x = n → toNatFlag x = (n, false))

/-- R152: a code is in [0, L[i]], so it always fits its W[i] bits. -/
def Obligations.CodesFitTheirWidths : Prop :=
  ∀ (v mn mx : F32) (i : Fin 8),
    (quant1 v mn mx (2 ^ codeWidth i - 1)).1 ≤ 2 ^ codeWidth i - 1
    ∧ (quant1 v mn mx (2 ^ codeWidth i - 1)).1 < 2 ^ codeWidth i

/-- R159: on a degenerate range the code is 0 whatever v and L, and NUMERR is asked for exactly when
the bound is a NaN. -/
def Obligations.DegenerateRangeGivesCodeZero : Prop :=
  ∀ (v m : F32) (l : Nat), quant1 v m m l = (0, isNaN m)

/-- The range tracker after the empty range and any sequence of coefficient vectors: a channel that
saw a value that is no NaN holds the first least and the first greatest of them, and they are in
order; a channel that saw none is (+inf, -inf) (42_range.md R142). -/
def Obligations.RangeTrackerHoldsLeastAndGreatest : Prop :=
  ∀ (cs : List Coeffs) (i : Fin 8),
    let lo := (cs.foldl (fun r co => rangeMin co r) emptyMin)[i]
    let hi := (cs.foldl (fun r co => rangeMax co r) emptyMax)[i]
    ((∀ co ∈ cs, isNaN co[i] = true) → lo = 0x7F800000 ∧ hi = 0xFF800000)
    ∧ ((∃ co ∈ cs, isNaN co[i] = false) →
        fle lo hi = true
        ∧ (∃ pre co post, cs = pre ++ co :: post ∧ co[i] = lo
            ∧ (∀ d ∈ pre, isNaN d[i] = true ∨ flt lo d[i] = true)
            ∧ ∀ d ∈ post, flt d[i] lo = false)
        ∧ (∃ pre co post, cs = pre ++ co :: post ∧ co[i] = hi
            ∧ (∀ d ∈ pre, isNaN d[i] = true ∨ flt d[i] hi = true)
            ∧ ∀ d ∈ post, flt hi d[i] = false))

/-- R158: packing and unpacking undo each other, and the spec's instance of it with its four record
bytes. -/
def Obligations.PackAndUnpackAreInverse : Prop :=
  (∀ q : Codes, unpackCodes (packCodes q) = q)
  ∧ (∀ r : Word, packCodes (unpackCodes r) = r)
  ∧ packCodes ⟨5, 200, 3, 12, 1, 2, 3, 0⟩ = 0x393CC805
  ∧ unpackCodes 0x393CC805 = ⟨5, 200, 3, 12, 1, 2, 3, 0⟩
  ∧ (List.range 4).map (byteOf 0x393CC805) = [0x05, 0xC8, 0x3C, 0x39]

/-- R171: HDR_STORE and then HDR_LOAD bring RMIN and RMAX back bit for bit, whatever they were
changed to in between, NaN payloads and the sign of zero included. -/
def Obligations.HeaderRoundTripKeepsPatterns : Prop :=
  ∀ (s t : State) (lo hi : Coeffs),
    64 ≤ s.pktBuflen.toNat →
    (∀ b : Fin 64, s.hdrAddr b < 2 ^ 32 ∧ s.answer .write (s.hdrAddr b) = .completes
      ∧ s.answer .read (s.hdrAddr b) = .completes) →
    exec .hdrStore s = .next t →
    ∃ u, exec .hdrLoad { t with rmin := lo, rmax := hi } = .next u
      ∧ u.rmin = s.rmin ∧ u.rmax = s.rmax ∧ u.mem = t.mem

/-! ### Partial effects -/

/-- The loads write their destination registers only after all their reads: a load stopped by a
refused read changes nothing but FAULT_ADDR and the completion (20_memory.md R67). -/
def Obligations.RefusedLoadLeavesRegisters : Prop :=
  ∀ (i : Instr) (s : State) (pre post : List MicroOp) (op : MicroOp) (d : Dir) (a : Nat),
    (∃ k, i = .vecLoad k) ∨ i = .hdrLoad ∨ (∃ k, i = .recLoad k) →
    i.CfgOk s → i.ArgOk s → i.SizeOk s → BodyInSpace (i.body s) →
    i.body s = pre ++ op :: post → BodyAnswered s pre →
    op.access = some (d, a) → s.answer d a = .refuses →
    exec i s = .next { s with
      inflight := none, rbuf := [], err := 6, done := true, faultAddr := BitVec.ofNat 32 a }

/-- VEC_STORE stopped by a refused write at sample j0: the bytes of the samples before it are written
(of several at one address the last), no other byte is changed, and NUMERR is set when one of those
samples is a NaN (40_vectorizer.md R105). -/
def Obligations.RefusedVecStoreKeepsItsFront : Prop :=
  ∀ (s : State) (k : Nat) (j0 : Fin 192),
    Instr.CfgOk (.vecStore k) s → Instr.ArgOk (.vecStore k) s →
    (∀ j : Fin 192, s.pixAddr k j < 2 ^ 32) →
    (∀ j < j0, s.answer .write (s.pixAddr k j) = .completes) →
    s.answer .write (s.pixAddr k j0) = .refuses →
    ∃ t, exec (.vecStore k) s = .next t
      ∧ t = { s with
          mem := t.mem, numerr := t.numerr, faultAddr := BitVec.ofNat 32 (s.pixAddr k j0)
          inflight := none, rbuf := [], err := 6, done := true }
      ∧ (∀ j < j0, (∀ j' < j0, j < j' → s.pixAddr k j' ≠ s.pixAddr k j) →
          (t.mem.read (s.pixAddr k j)).toNat = (vecInvSample s.v[j]).1)
      ∧ (∀ a, (∀ j < j0, s.pixAddr k j ≠ a) → t.mem.read a = s.mem.read a)
      ∧ (t.numerr = true ↔ s.numerr = true ∨ ∃ j < j0, isNaN s.v[j] = true)

/-! ### Registers, reset and interrupt -/

/-- The offsets of 10_state.md R21, each with the register the map gives it. -/
def Obligations.WindowMapFollowsTheTable : Prop :=
  regAt 0x000 = .id ∧ regAt 0x004 = .version ∧ regAt 0x008 = .param ∧ regAt 0x00C = .reserved
  ∧ regAt 0x010 = .ctrl ∧ regAt 0x014 = .status ∧ regAt 0x018 = .cmd ∧ regAt 0x01C = .faultAddr
  ∧ regAt 0x020 = .tileBw ∧ regAt 0x024 = .tileBh ∧ regAt 0x028 = .pixBase
  ∧ regAt 0x02C = .pixStride ∧ regAt 0x030 = .pktBase ∧ regAt 0x034 = .pktBuflen
  ∧ regAt 0x038 = .pktLen ∧ regAt 0x180 = .record
  ∧ (∀ i : Fin 8,
      regAt (BitVec.ofNat 14 (0x100 + 4 * i.val)) = .c i
      ∧ regAt (BitVec.ofNat 14 (0x120 + 4 * i.val)) = .rmin i
      ∧ regAt (BitVec.ofNat 14 (0x140 + 4 * i.val)) = .rmax i
      ∧ regAt (BitVec.ofNat 14 (0x160 + 4 * i.val)) = .q i)
  ∧ (∀ j : Fin 192,
      regAt (BitVec.ofNat 14 (0x400 + 4 * j.val)) = .v j
      ∧ regAt (BitVec.ofNat 14 (0x1000 + 4 * j.val)) = .mean j)
  ∧ (∀ (i : Fin 8) (j : Fin 192),
      regAt (BitVec.ofNat 14 (0x2000 + 4 * (192 * i.val + j.val))) = .basis i j)
  ∧ (∀ o : BitVec 14, o.toNat % 4 = 0 →
      (0x03C ≤ o.toNat ∧ o.toNat ≤ 0x0FC) ∨ (0x184 ≤ o.toNat ∧ o.toNat ≤ 0x3FC)
        ∨ (0x700 ≤ o.toNat ∧ o.toNat ≤ 0xFFC) ∨ (0x1300 ≤ o.toNat ∧ o.toNat ≤ 0x1FFC)
        ∨ 0x3800 ≤ o.toNat →
      regAt o = .reserved)

/-- What a host write to CMD, a configuration register or a datapath register does. While BUSY = 1 it is
ignored and sets WIGN (10_state.md R35). On an idle CORE it stores: TILE_BW and TILE_BH take bits 15:0
(R29), PIX_BASE, PIX_STRIDE, PKT_BASE and PKT_BUFLEN the word (R30, R31), C, RMIN, RMAX, V and REC the
word at the index of the offset (R40 to R43, R45), Q[i] the low W[i] bits (R44); WIGN and everything
else stay. No reset of the platform's is asserted. (A write to CMD on an idle CORE is
`StepRunsTheDecodedCommand`'s and `IllegalWordsCompleteWithOpc`'s.) -/
def Obligations.WritesWhileBusyAreIgnored : Prop :=
  (∀ (s : State) (off : BitVec 14) (w : Word) (rest : List Event),
    s.events = .host (.regWrite off 4 w) :: rest →
    off.toNat % 4 = 0 → s.busy = true → s.resetPin = false →
    (off = 0x018 ∨ (0x020 ≤ off.toNat ∧ off.toNat ≤ 0x034)
      ∨ (0x100 ≤ off.toNat ∧ off.toNat ≤ 0x180) ∨ (0x400 ≤ off.toNat ∧ off.toNat < 0x700)) →
    step s = .next { s with events := rest, reply := .ack, wign := true })
  ∧ (∀ (s : State) (off : BitVec 14) (w : Word) (rest : List Event),
    s.events = .host (.regWrite off 4 w) :: rest → s.busy = false → s.resetPin = false →
    let t := { s with events := rest, reply := .ack }
    (off = 0x020 → step s = .next { t with tileBw := w.extractLsb' 0 16 })
    ∧ (off = 0x024 → step s = .next { t with tileBh := w.extractLsb' 0 16 })
    ∧ (off = 0x028 → step s = .next { t with pixBase := w })
    ∧ (off = 0x02C → step s = .next { t with pixStride := w })
    ∧ (off = 0x030 → step s = .next { t with pktBase := w })
    ∧ (off = 0x034 → step s = .next { t with pktBuflen := w })
    ∧ (off = 0x180 → step s = .next { t with record := w })
    ∧ (∀ i : Fin 8,
      (off.toNat = 0x100 + 4 * i.val → ∃ u, step s = .next { t with c := u }
        ∧ ∀ i' : Fin 8, u[i'] = if i' = i then w else s.c[i'])
      ∧ (off.toNat = 0x120 + 4 * i.val → ∃ u, step s = .next { t with rmin := u }
        ∧ ∀ i' : Fin 8, u[i'] = if i' = i then w else s.rmin[i'])
      ∧ (off.toNat = 0x140 + 4 * i.val → ∃ u, step s = .next { t with rmax := u }
        ∧ ∀ i' : Fin 8, u[i'] = if i' = i then w else s.rmax[i'])
      ∧ (off.toNat = 0x160 + 4 * i.val → ∃ u, step s = .next { t with q := u }
        ∧ ∀ i' : Fin 8, u.get i' =
            if i' = i then w.toNat % 2 ^ (#v[8, 8, 4, 4, 2, 2, 2, 2][i]) else s.q.get i'))
    ∧ (∀ j : Fin 192, off.toNat = 0x400 + 4 * j.val → ∃ u, step s = .next { t with v := u }
        ∧ ∀ j' : Fin 192, u[j'] = if j' = j then w else s.v[j']))

/-- A write to a read-only register or to a reserved offset has no effect and never sets WIGN, BUSY or
not (10_state.md R33, R34). -/
def Obligations.ReadOnlyWritesHaveNoEffect : Prop :=
  ∀ (s : State) (off : BitVec 14) (w : Word) (rest : List Event),
    s.events = .host (.regWrite off 4 w) :: rest → off.toNat % 4 = 0 →
    regAt off ∈ [.id, .version, .param, .faultAddr, .pktLen, .reserved]
      ∨ (∃ j, regAt off = .mean j) ∨ (∃ i j, regAt off = .basis i j) →
    step s = .next { s with events := rest, reply := .ack }

/-- A read of the register window changes no state of the CORE. While BUSY = 1 a datapath register
reads as an unspecified value, whichever it is, and every other register as its current value
(10_state.md R36, 20_memory.md R71). The current values: ID, VERSION and PARAM with MAX_BLOCKS, 8 and 8
(R22); CTRL's IE in bit 0 (R23); STATUS's BUSY, DONE, NUMERR, WIGN in bits 0 to 3 and ERR in bits 11:8
(R25); CMD_LAST (R27); FAULT_ADDR (R28); the configuration registers (R29 to R31); PKT_LEN, which is
(64 + 4·TILE_BW·TILE_BH) mod 2^32 (R32); 0 at a reserved offset (R33); the datapath registers, Q zero
extended (R40 to R45); and the basis ROM (R46). -/
def Obligations.RegisterReadsHaveNoSideEffect : Prop :=
  (∀ (s : State) (off : BitVec 14) (rest : List Event),
    s.events = .host (.regRead off 4) :: rest → off.toNat % 4 = 0 → s.resetPin = false →
    (s.busy = true ∧ (regAt off).isDatapath = true →
      step s = .next { s with
        events := rest, reply := .word (Config.unspecified s.draws), draws := s.draws + 1 })
    ∧ (¬ (s.busy = true ∧ (regAt off).isDatapath = true) →
      step s = .next { s with events := rest, reply := .word (regValue (regAt off) s) }))
  ∧ ∀ s : State,
    regValue .id s = 0x4E535443 ∧ regValue .version s = 0x00070001
    ∧ (regValue .param s).toNat = 2 ^ 24 * 8 + 2 ^ 16 * 8 + s.build.maxBlocks % 2 ^ 16
    ∧ (regValue .ctrl s).toNat = s.ie.toNat
    ∧ (regValue .status s).toNat = (s.inflight.isSome).toNat + 2 * s.done.toNat
        + 4 * s.numerr.toNat + 8 * s.wign.toNat + 256 * s.err.toNat
    ∧ regValue .cmd s = s.cmdLast ∧ regValue .faultAddr s = s.faultAddr
    ∧ (regValue .tileBw s).toNat = s.tileBw.toNat ∧ (regValue .tileBh s).toNat = s.tileBh.toNat
    ∧ regValue .pixBase s = s.pixBase ∧ regValue .pixStride s = s.pixStride
    ∧ regValue .pktBase s = s.pktBase ∧ regValue .pktBuflen s = s.pktBuflen
    ∧ (regValue .pktLen s).toNat = (64 + 4 * (s.tileBw.toNat * s.tileBh.toNat)) % 2 ^ 32
    ∧ regValue .reserved s = 0 ∧ regValue .record s = s.record
    ∧ (∀ i : Fin 8, regValue (.c i) s = s.c[i] ∧ regValue (.rmin i) s = s.rmin[i]
        ∧ regValue (.rmax i) s = s.rmax[i])
    ∧ (regValue (.q 0) s).toNat = s.q.q0.toNat ∧ (regValue (.q 1) s).toNat = s.q.q1.toNat
    ∧ (regValue (.q 2) s).toNat = s.q.q2.toNat ∧ (regValue (.q 3) s).toNat = s.q.q3.toNat
    ∧ (regValue (.q 4) s).toNat = s.q.q4.toNat ∧ (regValue (.q 5) s).toNat = s.q.q5.toNat
    ∧ (regValue (.q 6) s).toNat = s.q.q6.toNat ∧ (regValue (.q 7) s).toNat = s.q.q7.toNat
    ∧ (∀ j : Fin 192, regValue (.v j) s = s.v[j] ∧ regValue (.mean j) s = s.build.mean[j])
    ∧ ∀ (i : Fin 8) (j : Fin 192), regValue (.basis i j) s = (s.build.basis[i])[j]

/-- R26: a write of `w` to STATUS clears DONE, NUMERR and WIGN where w has a 1 in bit 1, 2 and 3, and
leaves BUSY, ERR and everything else; it acts while BUSY too. In one instant with a completion of
the command in flight, with or without error, the completion wins. -/
def Obligations.StatusWriteClearsWhatItNames : Prop :=
  (∀ (s : State) (w : Word) (rest : List Event),
    s.events = .host (.regWrite 0x014 4 w) :: rest → s.resetPin = false →
    step s = .next { s with
      events := rest, reply := .ack
      done := if w.getLsbD 1 then false else s.done
      numerr := if w.getLsbD 2 then false else s.numerr
      wign := if w.getLsbD 3 then false else s.wign })
  ∧ (∀ (s : State) (w : Word) (rest : List Event),
    s.events = .both (.regWrite 0x014 4 w) :: rest → s.resetPin = false →
    s.busy = true → (engineTick s).busy = false →
    ∃ t, step s = .next t ∧ t.done = true ∧ t.busy = false)

/-- Writes to CTRL. With bit 1 = 1 every register has its reset value at once, IE and STATUS among them,
the command in flight is abandoned without completing, and system memory and the build stay; CBUF's
contents are unspecified, and the model leaves them (log 3). With bit 1 = 0 IE takes bit 0 and nothing
else changes. Both BUSY or not (10_state.md R23, R24, R51; 70_reset_and_hazards.md R242). Where a
command is one atomic step, a soft reset that lands while it is in flight finds a prefix of its access
sequence performed, of a drawn length: any from 0 to the full length (the form of the draw is the
model's, log 10); the rest never is (R242; here for a command whose checks pass and whose accesses
memory completes). -/
def Obligations.SoftResetRestoresRegisters : Prop :=
  let afterReset (s : State) : State := {
      ie := false, done := false, numerr := false, wign := false, err := 0
      cmdLast := 0, faultAddr := 0, tileBw := 20, tileBh := 15
      pixBase := 0, pixStride := 480, pktBase := 0, pktBuflen := 1264
      v := Vector.replicate 192 0, c := Vector.replicate 8 0
      rmin := Vector.replicate 8 0, rmax := Vector.replicate 8 0
      q := ⟨0, 0, 0, 0, 0, 0, 0, 0⟩, record := 0
      cbuf := s.cbuf, inflight := none, rbuf := [], mem := s.mem, build := s.build
      resetPin := false, events := s.events, reply := .ack, draws := s.draws, grain := s.grain }
  (∀ (s : State) (w : Word) (rest : List Event),
    s.events = .host (.regWrite 0x010 4 w) :: rest → s.resetPin = false →
    w.getLsbD 1 = true →
    step s = .next (afterReset { s with events := rest }))
  ∧ (∀ (s : State) (w : Word) (rest : List Event),
    s.events = .host (.regWrite 0x010 4 w) :: rest → s.resetPin = false →
    w.getLsbD 1 = false →
    step s = .next { s with events := rest, reply := .ack, ie := w.getLsbD 0 })
  ∧ (∀ (s : State) (cmd w : Word) (i : Instr) (rest : List Event),
    s.events = .during cmd (.regWrite 0x010 4 w) :: rest →
    s.inflight = none → s.resetPin = false → s.grain = .whole → w.getLsbD 1 = true →
    decode cmd = .ok i → i.CfgOk s → i.ArgOk s → i.SizeOk s →
    BodyInSpace (i.body s) → BodyAnswered s (i.body s) →
    ∃ pre post, i.body s = pre ++ post
      ∧ (accessSeq pre).length
          = Config.accessesPerformed s.draws % ((accessSeq (i.body s)).length + 1)
      ∧ step s = .next (afterReset { s with
          events := rest, draws := s.draws + 1
          mem := (effects pre { s with rbuf := [] }).mem
          cbuf := (effects pre { s with rbuf := [] }).cbuf }))

/-- R51: what the registers read as after reset. -/
def Obligations.ResetValuesOfRegisters : Prop :=
  regValue .ctrl State.reset = 0 ∧ regValue .status State.reset = 0
  ∧ regValue .cmd State.reset = 0 ∧ regValue .faultAddr State.reset = 0
  ∧ regValue .tileBw State.reset = 20 ∧ regValue .tileBh State.reset = 15
  ∧ regValue .pixBase State.reset = 0 ∧ regValue .pixStride State.reset = 480
  ∧ regValue .pktBase State.reset = 0 ∧ regValue .pktBuflen State.reset = 1264
  ∧ regValue .pktLen State.reset = 1264
  ∧ (∀ j, regValue (.v j) State.reset = 0)
  ∧ (∀ i, regValue (.c i) State.reset = 0 ∧ regValue (.rmin i) State.reset = 0
      ∧ regValue (.rmax i) State.reset = 0 ∧ regValue (.q i) State.reset = 0)
  ∧ regValue .record State.reset = 0
  ∧ State.reset.inflight = none ∧ State.reset.irq = false
  ∧ regValue .id State.reset = 0x4E535443 ∧ regValue .version State.reset = 0x00070001

/-- The hardware reset: while it is asserted the core engine does nothing and a register read gives an
unspecified value, whichever it is; once released the CORE is idle with IRQ = 0, a register write
having had no effect in between; memory is untouched (70_reset_and_hazards.md R241). That a write is
ignored meanwhile is the model's choice (log 9), not observable after the release. -/
def Obligations.HardwareResetHoldsAndReleases : Prop :=
  ∀ s : State,
    let held := hostAct .assertReset s
    let freed := hostAct .releaseReset held
    held.mem = s.mem ∧ engineTick held = held ∧ held.irq = false
    ∧ (∀ r, (readReg r held).1 = Config.unspecified held.draws)
    ∧ (∀ r w, writeReg r w held = held)
    ∧ freed.mem = s.mem ∧ freed.build = s.build ∧ freed.inflight = none ∧ freed.irq = false
    ∧ (∀ r, readReg r freed = (regValue r (State.resetOn s.build), freed))

/-- A command that completes, with or without error, has DONE = 1, so the interrupt output is CTRL.IE;
and no command changes IE (60_exceptions.md R222). -/
def Obligations.CompletionRaisesTheInterrupt : Prop :=
  ∀ (i : Instr) (s t : State),
    exec i s = .next t → t.busy = false → t.done = true ∧ t.irq = s.ie

/-- What no command changes: CTRL, WIGN, CMD_LAST, the configuration registers, the build with the
basis ROM, and the host side; and no command clears NUMERR (10_state.md R25, R35, R46). -/
def Obligations.CommandsLeaveConfiguration : Prop :=
  ∀ (i : Instr) (s t : State), exec i s = .next t →
    t.ie = s.ie ∧ t.wign = s.wign ∧ t.cmdLast = s.cmdLast
    ∧ t.tileBw = s.tileBw ∧ t.tileBh = s.tileBh ∧ t.pixBase = s.pixBase
    ∧ t.pixStride = s.pixStride ∧ t.pktBase = s.pktBase ∧ t.pktBuflen = s.pktBuflen
    ∧ t.build = s.build ∧ t.resetPin = s.resetPin ∧ t.events = s.events ∧ t.reply = s.reply
    ∧ t.draws = s.draws ∧ t.grain = s.grain ∧ (s.numerr = true → t.numerr = true)

/-- A register-window access of another width than 32 bits, or misaligned, gets the error response and
has no effect (20_memory.md R70). -/
def Obligations.PortRejectsOddAccesses : Prop :=
  ∀ (s : State) (off : BitVec 14) (width : Nat) (w : Word) (rest : List Event),
    width ≠ 4 ∨ off.toNat % 4 ≠ 0 →
    (s.events = .host (.regWrite off width w) :: rest →
      step s = .next { s with events := rest, reply := .portError })
    ∧ (s.events = .host (.regRead off width) :: rest →
      step s = .next { s with events := rest, reply := .portError })

/-! ### Invariants -/

/-- The invariant of `State.Inv` holds at reset. -/
def Obligations.ResetMeetsInvariant : Prop := State.reset.Inv

/-- Every step keeps the invariant of `State.Inv`: the memory's canonical form and bounds, CBUF's size,
ERR never a reserved code, the command in flight inside the address space, DONE clear while BUSY, an
idle engine holding no bytes, and an idle CORE while the reset input is asserted. -/
def Obligations.EveryStepKeepsInvariant : Prop :=
  ∀ s t : State, s.Inv → step s = .next t → t.Inv

/-- R46: no step changes the basis ROM or any other build parameter, whatever the host does. -/
def Obligations.NoStepChangesTheBuild : Prop :=
  ∀ s t : State, step s = .next t → t.build = s.build

/-- The configuration a command reads is fixed from its acceptance to its completion: a step from a
BUSY state to a BUSY state leaves the configuration registers and CMD_LAST (10_state.md R35). -/
def Obligations.ConfigurationFrozenWhileBusy : Prop :=
  ∀ s t : State, s.busy = true → step s = .next t → t.busy = true →
    t.tileBw = s.tileBw ∧ t.tileBh = s.tileBh ∧ t.pixBase = s.pixBase
    ∧ t.pixStride = s.pixStride ∧ t.pktBase = s.pktBase ∧ t.pktBuflen = s.pktBuflen
    ∧ t.cmdLast = s.cmdLast
end

