-- ==== Sys2Proof/Laws/Memory.lean ====
section
/-! SUPPORT. The laws of the byte memory: what a read sees after a write, and that every operation
keeps the canonical form. -/

namespace Sys2Proof.Machine

theorem Memory.read_cons (a : Nat) (v : Byte) (m : Memory) (x : Nat) :
    Memory.read ((a, v) :: m) x = if x = a then v else Memory.read m x := rfl

theorem Memory.read_nil (x : Nat) : Memory.read [] x = blankByte := rfl

theorem Memory.read_of_absent (m : Memory) (x : Nat) (h : ∀ cell ∈ m, cell.1 ≠ x) :
    m.read x = blankByte := by
  induction m with
  | nil => rfl
  | cons cell m ih =>
    obtain ⟨a, v⟩ := cell
    have ha : x ≠ a := fun e => h (a, v) (by simp) e.symm
    rw [Memory.read_cons, if_neg ha]
    exact ih fun c hc => h c (by simp [hc])

theorem Memory.read_filter_other (m : Memory) (x y : Nat) (h : y ≠ x) :
    Memory.read (m.filter fun cell => cell.1 != x) y = m.read y := by
  induction m with
  | nil => rfl
  | cons cell m ih =>
    obtain ⟨a, v⟩ := cell
    by_cases hax : a = x
    · subst hax
      simp [Memory.read_cons, h, ih]
    · simp [hax, Memory.read_cons, ih]

theorem Memory.read_place (m : Memory) (x y : Nat) (v : Byte) (h : ∀ cell ∈ m, cell.1 ≠ x) :
    (Memory.place m x v).read y = if y = x then v else m.read y := by
  induction m with
  | nil => simp [Memory.place, Memory.read_cons]
  | cons cell m ih =>
    obtain ⟨a, w⟩ := cell
    have hax : a ≠ x := h (a, w) (by simp)
    have ih' := ih fun c hc => h c (by simp [hc])
    simp only [Memory.place]
    split
    · simp [Memory.read_cons]
    · simp only [Memory.read_cons, ih']
      by_cases hya : y = a <;> by_cases hyx : y = x <;> simp_all

/-- A read after a write: the written address gives the written byte, every other address what it
gave before. -/
theorem Memory.read_write (m : Memory) (x y : Nat) (v : Byte) :
    (m.write x v).read y = if y = x then v else m.read y := by
  have habs : ∀ cell ∈ m.filter (fun cell => cell.1 != x), cell.1 ≠ x := by
    intro cell hc
    simpa using (List.mem_filter.mp hc).2
  unfold Memory.write
  simp only
  split
  · rename_i hv
    by_cases hy : y = x
    · subst hy
      rw [if_pos rfl, hv]
      exact Memory.read_of_absent _ _ habs
    · rw [if_neg hy]
      exact Memory.read_filter_other m x y hy
  · rw [Memory.read_place _ _ _ _ habs]
    by_cases hy : y = x
    · simp [hy]
    · rw [if_neg hy, if_neg hy]
      exact Memory.read_filter_other m x y hy

@[simp] theorem Memory.read_write_same (m : Memory) (x : Nat) (v : Byte) :
    (m.write x v).read x = v := by simp [Memory.read_write]

theorem Memory.read_write_other (m : Memory) (x y : Nat) (v : Byte) (h : y ≠ x) :
    (m.write x v).read y = m.read y := by simp [Memory.read_write, h]

/-- The canonical form, said pairwise. -/
theorem Memory.wf_iff (m : Memory) :
    m.wf = true ↔
      m.Pairwise (fun p q => p.1 < q.1) ∧ ∀ cell ∈ m, cell.2 ≠ blankByte := by
  induction m with
  | nil => simp [Memory.wf]
  | cons cell m ih =>
    obtain ⟨a, v⟩ := cell
    cases m with
    | nil => simp [Memory.wf]
    | cons cell' m =>
      obtain ⟨b, w⟩ := cell'
      simp only [Memory.wf, Bool.and_eq_true, bne_iff_ne, ne_eq, decide_eq_true_eq, ih]
      constructor
      · rintro ⟨⟨hv, hab⟩, hp, hn⟩
        refine ⟨List.pairwise_cons.mpr ⟨?_, hp⟩, ?_⟩
        · intro q hq
          rcases List.mem_cons.mp hq with rfl | hq
          · exact hab
          · exact lt_trans hab ((List.pairwise_cons.mp hp).1 q hq)
        · intro cell hc
          rcases List.mem_cons.mp hc with rfl | hc
          · exact hv
          · exact hn cell hc
      · rintro ⟨hp, hn⟩
        have hp' := List.pairwise_cons.mp hp
        exact ⟨⟨hn (a, v) (by simp), hp'.1 (b, w) (by simp)⟩, hp'.2,
          fun cell hc => hn cell (List.mem_cons_of_mem _ hc)⟩

theorem Memory.mem_place (m : Memory) (x : Nat) (v : Byte) (cell : Host.Cell) :
    cell ∈ Memory.place m x v ↔ cell = (x, v) ∨ cell ∈ m := by
  induction m with
  | nil => simp [Memory.place]
  | cons c m ih =>
    obtain ⟨a, w⟩ := c
    simp only [Memory.place]
    split
    · simp
    · simp only [List.mem_cons, ih]
      tauto

theorem Memory.mem_write (m : Memory) (x : Nat) (v : Byte) (cell : Host.Cell)
    (h : cell ∈ m.write x v) : cell = (x, v) ∨ cell ∈ m := by
  unfold Memory.write at h
  simp only at h
  split at h
  · exact .inr (List.mem_filter.mp h).1
  · rcases (Memory.mem_place _ _ _ _).mp h with h | h
    · exact .inl h
    · exact .inr (List.mem_filter.mp h).1

theorem Memory.place_pairwise (m : Memory) (x : Nat) (v : Byte)
    (hp : m.Pairwise (fun p q => p.1 < q.1)) (h : ∀ cell ∈ m, cell.1 ≠ x) :
    (Memory.place m x v).Pairwise (fun p q => p.1 < q.1) := by
  induction m with
  | nil => simp [Memory.place]
  | cons c m ih =>
    obtain ⟨a, w⟩ := c
    have hp' := List.pairwise_cons.mp hp
    simp only [Memory.place]
    split
    · rename_i hxa
      refine List.pairwise_cons.mpr ⟨?_, hp⟩
      intro q hq
      rcases List.mem_cons.mp hq with rfl | hq
      · exact hxa
      · exact lt_trans hxa (hp'.1 q hq)
    · rename_i hxa
      have hne : a ≠ x := h (a, w) (by simp)
      refine List.pairwise_cons.mpr ⟨?_, ih hp'.2 fun c hc => h c (by simp [hc])⟩
      intro q hq
      rcases (Memory.mem_place _ _ _ _).mp hq with rfl | hq
      · show a < x
        omega
      · exact hp'.1 q hq

/-- A write keeps the canonical form. -/
theorem Memory.wf_write (m : Memory) (x : Nat) (v : Byte) (h : m.wf = true) :
    (m.write x v).wf = true := by
  rw [Memory.wf_iff] at h ⊢
  obtain ⟨hp, hn⟩ := h
  have habs : ∀ cell ∈ m.filter (fun cell => cell.1 != x), cell.1 ≠ x := by
    intro cell hc
    simpa using (List.mem_filter.mp hc).2
  unfold Memory.write
  simp only
  split
  · exact ⟨hp.filter _, fun cell hc => hn cell (List.mem_filter.mp hc).1⟩
  · rename_i hv
    refine ⟨Memory.place_pairwise _ _ _ (hp.filter _) habs, ?_⟩
    intro cell hc
    rcases (Memory.mem_place _ _ _ _).mp hc with rfl | hc
    · exact hv
    · exact hn cell (List.mem_filter.mp hc).1

/-- A write below 2^32 keeps the memory inside the address space. -/
theorem Memory.inSpace_write (m : Memory) (x : Nat) (v : Byte) (hm : m.InSpace) (hx : x < 2 ^ 32) :
    (m.write x v).InSpace := by
  intro cell hc
  rcases Memory.mem_write _ _ _ _ hc with rfl | hc
  · exact hx
  · exact hm cell hc

@[simp] theorem Memory.writeAll_nil (m : Memory) : m.writeAll [] = m := rfl

@[simp] theorem Memory.writeAll_cons (m : Memory) (p : Nat × Byte) (l : List (Nat × Byte)) :
    m.writeAll (p :: l) = (m.write p.1 p.2).writeAll l := rfl

theorem Memory.writeAll_append (m : Memory) (l l' : List (Nat × Byte)) :
    m.writeAll (l ++ l') = (m.writeAll l).writeAll l' := by
  simp [Memory.writeAll, List.foldl_append]

/-- An address none of the writes names reads as before. -/
theorem Memory.read_writeAll_other (l : List (Nat × Byte)) (m : Memory) (y : Nat)
    (h : ∀ p ∈ l, p.1 ≠ y) : (m.writeAll l).read y = m.read y := by
  induction l generalizing m with
  | nil => rfl
  | cons p l ih =>
    rw [Memory.writeAll_cons, ih _ fun q hq => h q (by simp [hq])]
    exact Memory.read_write_other _ _ _ _ (Ne.symm (h p (by simp)))

/-- The last write that names an address is what it reads as. -/
theorem Memory.read_writeAll_last (l l' : List (Nat × Byte)) (m : Memory) (x : Nat) (v : Byte)
    (h : ∀ p ∈ l', p.1 ≠ x) : (m.writeAll (l ++ (x, v) :: l')).read x = v := by
  rw [Memory.writeAll_append, Memory.writeAll_cons, Memory.read_writeAll_other l' _ _ h]
  simp

theorem Memory.wf_writeAll (l : List (Nat × Byte)) (m : Memory) (h : m.wf = true) :
    (m.writeAll l).wf = true := by
  induction l generalizing m with
  | nil => exact h
  | cons p l ih => exact ih _ (Memory.wf_write m p.1 p.2 h)

theorem Memory.inSpace_writeAll (l : List (Nat × Byte)) (m : Memory) (h : m.InSpace)
    (hl : ∀ p ∈ l, p.1 < 2 ^ 32) : (m.writeAll l).InSpace := by
  induction l generalizing m with
  | nil => exact h
  | cons p l ih =>
    exact ih _ (Memory.inSpace_write m p.1 p.2 h (hl p (by simp))) fun q hq => hl q (by simp [hq])

/-- Canonical memories that read alike everywhere are equal. -/
theorem Memory.ext_of_wf (m m' : Memory) (h : m.wf = true) (h' : m'.wf = true)
    (hr : ∀ x, m.read x = m'.read x) : m = m' := by
  induction m generalizing m' with
  | nil =>
    cases m' with
    | nil => rfl
    | cons c m' =>
      obtain ⟨b, w⟩ := c
      have hw := ((Memory.wf_iff _).mp h').2 (b, w) (by simp)
      have := hr b
      simp only [Memory.read_nil, Memory.read_cons, if_true] at this
      exact absurd this.symm hw
  | cons c m ih =>
    obtain ⟨a, v⟩ := c
    obtain ⟨hp, hn⟩ := (Memory.wf_iff _).mp h
    have hv := hn (a, v) (by simp)
    have hpa := List.pairwise_cons.mp hp
    cases m' with
    | nil =>
      have := hr a
      simp only [Memory.read_nil, Memory.read_cons, if_true] at this
      exact absurd this hv
    | cons c' m' =>
      obtain ⟨b, w⟩ := c'
      obtain ⟨hp', hn'⟩ := (Memory.wf_iff _).mp h'
      have hw := hn' (b, w) (by simp)
      have hpb := List.pairwise_cons.mp hp'
      have hab : a = b := by
        rcases Nat.lt_trichotomy a b with hlt | heq | hgt
        · have h1 := hr a
          rw [Memory.read_cons, if_pos rfl, Memory.read_cons, if_neg (by omega),
            Memory.read_of_absent m' a fun q hq => by have := hpb.1 q hq; dsimp at this; omega] at h1
          exact absurd h1 hv
        · exact heq
        · have h1 := hr b
          rw [Memory.read_cons, if_neg (by omega), Memory.read_cons, if_pos rfl,
            Memory.read_of_absent m b fun q hq => by have := hpa.1 q hq; dsimp at this; omega] at h1
          exact absurd h1.symm hw
      subst hab
      have hvw : v = w := by simpa [Memory.read_cons] using hr a
      subst hvw
      have hm : m = m' := by
        refine ih m' ((Memory.wf_iff _).mpr ⟨hpa.2, fun q hq => hn q (by simp [hq])⟩)
          ((Memory.wf_iff _).mpr ⟨hpb.2, fun q hq => hn' q (by simp [hq])⟩) fun x => ?_
        have hx := hr x
        rw [Memory.read_cons, Memory.read_cons] at hx
        by_cases hxa : x = a
        · subst hxa
          rw [Memory.read_of_absent m x fun q hq => by have := hpa.1 q hq; dsimp at this; omega,
            Memory.read_of_absent m' x fun q hq => by have := hpb.1 q hq; dsimp at this; omega]
        · simpa [hxa] using hx
      rw [hm]

end Sys2Proof.Machine
end

