-- ==== Sys2Proof/Laws/State.lean ====
section
/-! SUPPORT. What each named update of State leaves in each field: one lemma per field per update, so
that no later proof unfolds a record update. -/

namespace Sys2Proof.Machine

@[simp] theorem complete_ie (code : ErrCode) (s : State) : (complete code s).ie = s.ie := rfl
@[simp] theorem complete_done (code : ErrCode) (s : State) : (complete code s).done = true := rfl
@[simp] theorem complete_numerr (code : ErrCode) (s : State) : (complete code s).numerr = s.numerr := rfl
@[simp] theorem complete_wign (code : ErrCode) (s : State) : (complete code s).wign = s.wign := rfl
@[simp] theorem complete_err (code : ErrCode) (s : State) : (complete code s).err = code.bits := rfl
@[simp] theorem complete_cmdLast (code : ErrCode) (s : State) : (complete code s).cmdLast = s.cmdLast := rfl
@[simp] theorem complete_faultAddr (code : ErrCode) (s : State) : (complete code s).faultAddr = s.faultAddr := rfl
@[simp] theorem complete_tileBw (code : ErrCode) (s : State) : (complete code s).tileBw = s.tileBw := rfl
@[simp] theorem complete_tileBh (code : ErrCode) (s : State) : (complete code s).tileBh = s.tileBh := rfl
@[simp] theorem complete_pixBase (code : ErrCode) (s : State) : (complete code s).pixBase = s.pixBase := rfl
@[simp] theorem complete_pixStride (code : ErrCode) (s : State) : (complete code s).pixStride = s.pixStride := rfl
@[simp] theorem complete_pktBase (code : ErrCode) (s : State) : (complete code s).pktBase = s.pktBase := rfl
@[simp] theorem complete_pktBuflen (code : ErrCode) (s : State) : (complete code s).pktBuflen = s.pktBuflen := rfl
@[simp] theorem complete_v (code : ErrCode) (s : State) : (complete code s).v = s.v := rfl
@[simp] theorem complete_c (code : ErrCode) (s : State) : (complete code s).c = s.c := rfl
@[simp] theorem complete_rmin (code : ErrCode) (s : State) : (complete code s).rmin = s.rmin := rfl
@[simp] theorem complete_rmax (code : ErrCode) (s : State) : (complete code s).rmax = s.rmax := rfl
@[simp] theorem complete_q (code : ErrCode) (s : State) : (complete code s).q = s.q := rfl
@[simp] theorem complete_record (code : ErrCode) (s : State) : (complete code s).record = s.record := rfl
@[simp] theorem complete_cbuf (code : ErrCode) (s : State) : (complete code s).cbuf = s.cbuf := rfl
@[simp] theorem complete_inflight (code : ErrCode) (s : State) : (complete code s).inflight = none := rfl
@[simp] theorem complete_rbuf (code : ErrCode) (s : State) : (complete code s).rbuf = [] := rfl
@[simp] theorem complete_mem (code : ErrCode) (s : State) : (complete code s).mem = s.mem := rfl
@[simp] theorem complete_build (code : ErrCode) (s : State) : (complete code s).build = s.build := rfl
@[simp] theorem complete_resetPin (code : ErrCode) (s : State) : (complete code s).resetPin = s.resetPin := rfl
@[simp] theorem complete_events (code : ErrCode) (s : State) : (complete code s).events = s.events := rfl
@[simp] theorem complete_reply (code : ErrCode) (s : State) : (complete code s).reply = s.reply := rfl
@[simp] theorem complete_draws (code : ErrCode) (s : State) : (complete code s).draws = s.draws := rfl
@[simp] theorem complete_grain (code : ErrCode) (s : State) : (complete code s).grain = s.grain := rfl

@[simp] theorem raiseError_ie (code : ErrCode) (a : Nat) (s : State) : (raiseError code a s).ie = s.ie := rfl
@[simp] theorem raiseError_done (code : ErrCode) (a : Nat) (s : State) : (raiseError code a s).done = true := rfl
@[simp] theorem raiseError_numerr (code : ErrCode) (a : Nat) (s : State) : (raiseError code a s).numerr = s.numerr := rfl
@[simp] theorem raiseError_wign (code : ErrCode) (a : Nat) (s : State) : (raiseError code a s).wign = s.wign := rfl
@[simp] theorem raiseError_err (code : ErrCode) (a : Nat) (s : State) : (raiseError code a s).err = code.bits := rfl
@[simp] theorem raiseError_cmdLast (code : ErrCode) (a : Nat) (s : State) : (raiseError code a s).cmdLast = s.cmdLast := rfl
@[simp] theorem raiseError_faultAddr (code : ErrCode) (a : Nat) (s : State) : (raiseError code a s).faultAddr = BitVec.ofNat 32 a := rfl
@[simp] theorem raiseError_tileBw (code : ErrCode) (a : Nat) (s : State) : (raiseError code a s).tileBw = s.tileBw := rfl
@[simp] theorem raiseError_tileBh (code : ErrCode) (a : Nat) (s : State) : (raiseError code a s).tileBh = s.tileBh := rfl
@[simp] theorem raiseError_pixBase (code : ErrCode) (a : Nat) (s : State) : (raiseError code a s).pixBase = s.pixBase := rfl
@[simp] theorem raiseError_pixStride (code : ErrCode) (a : Nat) (s : State) : (raiseError code a s).pixStride = s.pixStride := rfl
@[simp] theorem raiseError_pktBase (code : ErrCode) (a : Nat) (s : State) : (raiseError code a s).pktBase = s.pktBase := rfl
@[simp] theorem raiseError_pktBuflen (code : ErrCode) (a : Nat) (s : State) : (raiseError code a s).pktBuflen = s.pktBuflen := rfl
@[simp] theorem raiseError_v (code : ErrCode) (a : Nat) (s : State) : (raiseError code a s).v = s.v := rfl
@[simp] theorem raiseError_c (code : ErrCode) (a : Nat) (s : State) : (raiseError code a s).c = s.c := rfl
@[simp] theorem raiseError_rmin (code : ErrCode) (a : Nat) (s : State) : (raiseError code a s).rmin = s.rmin := rfl
@[simp] theorem raiseError_rmax (code : ErrCode) (a : Nat) (s : State) : (raiseError code a s).rmax = s.rmax := rfl
@[simp] theorem raiseError_q (code : ErrCode) (a : Nat) (s : State) : (raiseError code a s).q = s.q := rfl
@[simp] theorem raiseError_record (code : ErrCode) (a : Nat) (s : State) : (raiseError code a s).record = s.record := rfl
@[simp] theorem raiseError_cbuf (code : ErrCode) (a : Nat) (s : State) : (raiseError code a s).cbuf = s.cbuf := rfl
@[simp] theorem raiseError_inflight (code : ErrCode) (a : Nat) (s : State) : (raiseError code a s).inflight = none := rfl
@[simp] theorem raiseError_rbuf (code : ErrCode) (a : Nat) (s : State) : (raiseError code a s).rbuf = [] := rfl
@[simp] theorem raiseError_mem (code : ErrCode) (a : Nat) (s : State) : (raiseError code a s).mem = s.mem := rfl
@[simp] theorem raiseError_build (code : ErrCode) (a : Nat) (s : State) : (raiseError code a s).build = s.build := rfl
@[simp] theorem raiseError_resetPin (code : ErrCode) (a : Nat) (s : State) : (raiseError code a s).resetPin = s.resetPin := rfl
@[simp] theorem raiseError_events (code : ErrCode) (a : Nat) (s : State) : (raiseError code a s).events = s.events := rfl
@[simp] theorem raiseError_reply (code : ErrCode) (a : Nat) (s : State) : (raiseError code a s).reply = s.reply := rfl
@[simp] theorem raiseError_draws (code : ErrCode) (a : Nat) (s : State) : (raiseError code a s).draws = s.draws := rfl
@[simp] theorem raiseError_grain (code : ErrCode) (a : Nat) (s : State) : (raiseError code a s).grain = s.grain := rfl

@[simp] theorem accept_ie (w : Word) (s : State) : (accept w s).ie = s.ie := rfl
@[simp] theorem accept_done (w : Word) (s : State) : (accept w s).done = false := rfl
@[simp] theorem accept_numerr (w : Word) (s : State) : (accept w s).numerr = s.numerr := rfl
@[simp] theorem accept_wign (w : Word) (s : State) : (accept w s).wign = s.wign := rfl
@[simp] theorem accept_err (w : Word) (s : State) : (accept w s).err = s.err := rfl
@[simp] theorem accept_cmdLast (w : Word) (s : State) : (accept w s).cmdLast = w := rfl
@[simp] theorem accept_faultAddr (w : Word) (s : State) : (accept w s).faultAddr = s.faultAddr := rfl
@[simp] theorem accept_tileBw (w : Word) (s : State) : (accept w s).tileBw = s.tileBw := rfl
@[simp] theorem accept_tileBh (w : Word) (s : State) : (accept w s).tileBh = s.tileBh := rfl
@[simp] theorem accept_pixBase (w : Word) (s : State) : (accept w s).pixBase = s.pixBase := rfl
@[simp] theorem accept_pixStride (w : Word) (s : State) : (accept w s).pixStride = s.pixStride := rfl
@[simp] theorem accept_pktBase (w : Word) (s : State) : (accept w s).pktBase = s.pktBase := rfl
@[simp] theorem accept_pktBuflen (w : Word) (s : State) : (accept w s).pktBuflen = s.pktBuflen := rfl
@[simp] theorem accept_v (w : Word) (s : State) : (accept w s).v = s.v := rfl
@[simp] theorem accept_c (w : Word) (s : State) : (accept w s).c = s.c := rfl
@[simp] theorem accept_rmin (w : Word) (s : State) : (accept w s).rmin = s.rmin := rfl
@[simp] theorem accept_rmax (w : Word) (s : State) : (accept w s).rmax = s.rmax := rfl
@[simp] theorem accept_q (w : Word) (s : State) : (accept w s).q = s.q := rfl
@[simp] theorem accept_record (w : Word) (s : State) : (accept w s).record = s.record := rfl
@[simp] theorem accept_cbuf (w : Word) (s : State) : (accept w s).cbuf = s.cbuf := rfl
@[simp] theorem accept_inflight (w : Word) (s : State) : (accept w s).inflight = some [] := rfl
@[simp] theorem accept_rbuf (w : Word) (s : State) : (accept w s).rbuf = s.rbuf := rfl
@[simp] theorem accept_mem (w : Word) (s : State) : (accept w s).mem = s.mem := rfl
@[simp] theorem accept_build (w : Word) (s : State) : (accept w s).build = s.build := rfl
@[simp] theorem accept_resetPin (w : Word) (s : State) : (accept w s).resetPin = s.resetPin := rfl
@[simp] theorem accept_events (w : Word) (s : State) : (accept w s).events = s.events := rfl
@[simp] theorem accept_reply (w : Word) (s : State) : (accept w s).reply = s.reply := rfl
@[simp] theorem accept_draws (w : Word) (s : State) : (accept w s).draws = s.draws := rfl
@[simp] theorem accept_grain (w : Word) (s : State) : (accept w s).grain = s.grain := rfl

@[simp] theorem clearStatus_ie (w : Word) (s : State) : (clearStatus w s).ie = s.ie := rfl
@[simp] theorem clearStatus_done (w : Word) (s : State) : (clearStatus w s).done = (s.done && !w.getLsbD 1) := rfl
@[simp] theorem clearStatus_numerr (w : Word) (s : State) : (clearStatus w s).numerr = (s.numerr && !w.getLsbD 2) := rfl
@[simp] theorem clearStatus_wign (w : Word) (s : State) : (clearStatus w s).wign = (s.wign && !w.getLsbD 3) := rfl
@[simp] theorem clearStatus_err (w : Word) (s : State) : (clearStatus w s).err = s.err := rfl
@[simp] theorem clearStatus_cmdLast (w : Word) (s : State) : (clearStatus w s).cmdLast = s.cmdLast := rfl
@[simp] theorem clearStatus_faultAddr (w : Word) (s : State) : (clearStatus w s).faultAddr = s.faultAddr := rfl
@[simp] theorem clearStatus_tileBw (w : Word) (s : State) : (clearStatus w s).tileBw = s.tileBw := rfl
@[simp] theorem clearStatus_tileBh (w : Word) (s : State) : (clearStatus w s).tileBh = s.tileBh := rfl
@[simp] theorem clearStatus_pixBase (w : Word) (s : State) : (clearStatus w s).pixBase = s.pixBase := rfl
@[simp] theorem clearStatus_pixStride (w : Word) (s : State) : (clearStatus w s).pixStride = s.pixStride := rfl
@[simp] theorem clearStatus_pktBase (w : Word) (s : State) : (clearStatus w s).pktBase = s.pktBase := rfl
@[simp] theorem clearStatus_pktBuflen (w : Word) (s : State) : (clearStatus w s).pktBuflen = s.pktBuflen := rfl
@[simp] theorem clearStatus_v (w : Word) (s : State) : (clearStatus w s).v = s.v := rfl
@[simp] theorem clearStatus_c (w : Word) (s : State) : (clearStatus w s).c = s.c := rfl
@[simp] theorem clearStatus_rmin (w : Word) (s : State) : (clearStatus w s).rmin = s.rmin := rfl
@[simp] theorem clearStatus_rmax (w : Word) (s : State) : (clearStatus w s).rmax = s.rmax := rfl
@[simp] theorem clearStatus_q (w : Word) (s : State) : (clearStatus w s).q = s.q := rfl
@[simp] theorem clearStatus_record (w : Word) (s : State) : (clearStatus w s).record = s.record := rfl
@[simp] theorem clearStatus_cbuf (w : Word) (s : State) : (clearStatus w s).cbuf = s.cbuf := rfl
@[simp] theorem clearStatus_inflight (w : Word) (s : State) : (clearStatus w s).inflight = s.inflight := rfl
@[simp] theorem clearStatus_rbuf (w : Word) (s : State) : (clearStatus w s).rbuf = s.rbuf := rfl
@[simp] theorem clearStatus_mem (w : Word) (s : State) : (clearStatus w s).mem = s.mem := rfl
@[simp] theorem clearStatus_build (w : Word) (s : State) : (clearStatus w s).build = s.build := rfl
@[simp] theorem clearStatus_resetPin (w : Word) (s : State) : (clearStatus w s).resetPin = s.resetPin := rfl
@[simp] theorem clearStatus_events (w : Word) (s : State) : (clearStatus w s).events = s.events := rfl
@[simp] theorem clearStatus_reply (w : Word) (s : State) : (clearStatus w s).reply = s.reply := rfl
@[simp] theorem clearStatus_draws (w : Word) (s : State) : (clearStatus w s).draws = s.draws := rfl
@[simp] theorem clearStatus_grain (w : Word) (s : State) : (clearStatus w s).grain = s.grain := rfl

@[simp] theorem coreReset_ie (s : State) : (coreReset s).ie = false := rfl
@[simp] theorem coreReset_done (s : State) : (coreReset s).done = false := rfl
@[simp] theorem coreReset_numerr (s : State) : (coreReset s).numerr = false := rfl
@[simp] theorem coreReset_wign (s : State) : (coreReset s).wign = false := rfl
@[simp] theorem coreReset_err (s : State) : (coreReset s).err = 0 := rfl
@[simp] theorem coreReset_cmdLast (s : State) : (coreReset s).cmdLast = 0 := rfl
@[simp] theorem coreReset_faultAddr (s : State) : (coreReset s).faultAddr = 0 := rfl
@[simp] theorem coreReset_tileBw (s : State) : (coreReset s).tileBw = 20 := rfl
@[simp] theorem coreReset_tileBh (s : State) : (coreReset s).tileBh = 15 := rfl
@[simp] theorem coreReset_pixBase (s : State) : (coreReset s).pixBase = 0 := rfl
@[simp] theorem coreReset_pixStride (s : State) : (coreReset s).pixStride = 480 := rfl
@[simp] theorem coreReset_pktBase (s : State) : (coreReset s).pktBase = 0 := rfl
@[simp] theorem coreReset_pktBuflen (s : State) : (coreReset s).pktBuflen = 1264 := rfl
@[simp] theorem coreReset_v (s : State) : (coreReset s).v = Vector.replicate 192 0 := rfl
@[simp] theorem coreReset_c (s : State) : (coreReset s).c = Vector.replicate 8 0 := rfl
@[simp] theorem coreReset_rmin (s : State) : (coreReset s).rmin = Vector.replicate 8 0 := rfl
@[simp] theorem coreReset_rmax (s : State) : (coreReset s).rmax = Vector.replicate 8 0 := rfl
@[simp] theorem coreReset_q (s : State) : (coreReset s).q = ⟨0, 0, 0, 0, 0, 0, 0, 0⟩ := rfl
@[simp] theorem coreReset_record (s : State) : (coreReset s).record = 0 := rfl
@[simp] theorem coreReset_cbuf (s : State) : (coreReset s).cbuf = s.cbuf := rfl
@[simp] theorem coreReset_inflight (s : State) : (coreReset s).inflight = none := rfl
@[simp] theorem coreReset_rbuf (s : State) : (coreReset s).rbuf = [] := rfl
@[simp] theorem coreReset_mem (s : State) : (coreReset s).mem = s.mem := rfl
@[simp] theorem coreReset_build (s : State) : (coreReset s).build = s.build := rfl
@[simp] theorem coreReset_resetPin (s : State) : (coreReset s).resetPin = s.resetPin := rfl
@[simp] theorem coreReset_events (s : State) : (coreReset s).events = s.events := rfl
@[simp] theorem coreReset_reply (s : State) : (coreReset s).reply = s.reply := rfl
@[simp] theorem coreReset_draws (s : State) : (coreReset s).draws = s.draws := rfl
@[simp] theorem coreReset_grain (s : State) : (coreReset s).grain = s.grain := rfl

end Sys2Proof.Machine
end

