-- ==== Sys2Proof/Laws/Engine.lean ====
section
/-! SUPPORT. What the core engine's operations can do: one piece of a body, a body whose accesses all
complete, and the checks before a body. -/

namespace Sys2Proof.Machine

/-! ### Pieces of a body -/

/-- What a piece of a body can do: move on with its effect (no access, or one that completes), be
refused, or wait. -/
theorem doOp_cases (op : MicroOp) (s : State) :
    (doOp op s = .moved (opEffect op s)
        ∧ ∀ dir a, op.access = some (dir, a) → s.answer dir a = .completes)
      ∨ (∃ dir a, op.access = some (dir, a) ∧ s.answer dir a = .refuses ∧ doOp op s = .refused a)
      ∨ (∃ dir a, op.access = some (dir, a) ∧ s.answer dir a = .silent
          ∧ doOp op s = .unanswered) := by
  unfold doOp
  cases hacc : op.access with
  | none => exact .inl ⟨rfl, fun _ _ h => by cases h⟩
  | some p =>
    obtain ⟨dir, a⟩ := p
    cases hans : s.answer dir a with
    | completes =>
      refine .inl ⟨by simp [hans], ?_⟩
      rintro _ _ ⟨⟩
      exact hans
    | refuses => exact .inr (.inl ⟨dir, a, rfl, hans, by simp [hans]⟩)
    | silent => exact .inr (.inr ⟨dir, a, rfl, hans, by simp [hans]⟩)

/-- A piece whose access completes, or that makes none, has its effect. -/
theorem doOp_of_answered (op : MicroOp) (s : State)
    (h : ∀ dir a, op.access = some (dir, a) → s.answer dir a = .completes) :
    doOp op s = .moved (opEffect op s) := by
  rcases doOp_cases op s with ⟨h', _⟩ | ⟨dir, a, hacc, hans, _⟩ | ⟨dir, a, hacc, hans, _⟩
  · exact h'
  · rw [h dir a hacc] at hans; cases hans
  · rw [h dir a hacc] at hans; cases hans

/-- A piece whose access is refused is refused. -/
theorem doOp_of_refused (op : MicroOp) (s : State) (dir : Dir) (a : Nat)
    (hacc : op.access = some (dir, a)) (hans : s.answer dir a = .refuses) :
    doOp op s = .refused a := by
  unfold doOp
  rw [hacc]
  simp only [hans]

/-- A piece whose access is not answered waits. -/
theorem doOp_of_silent (op : MicroOp) (s : State) (dir : Dir) (a : Nat)
    (hacc : op.access = some (dir, a)) (hans : s.answer dir a = .silent) :
    doOp op s = .unanswered := by
  unfold doOp
  rw [hacc]
  simp only [hans]

/-- What no piece of a body touches. -/
theorem opEffect_frame (op : MicroOp) (s : State) :
    opEffect op s =
      { s with
        numerr := (opEffect op s).numerr
        v := (opEffect op s).v
        c := (opEffect op s).c
        rmin := (opEffect op s).rmin
        rmax := (opEffect op s).rmax
        q := (opEffect op s).q
        record := (opEffect op s).record
        cbuf := (opEffect op s).cbuf
        rbuf := (opEffect op s).rbuf
        mem := (opEffect op s).mem } := by
  cases op with
  | read a => rfl
  | write a src => rfl
  | unit u => cases u <;> simp only [opEffect, unitStep]

@[simp] theorem opEffect_build (op : MicroOp) (s : State) : (opEffect op s).build = s.build := by
  rw [opEffect_frame]

@[simp] theorem opEffect_inflight (op : MicroOp) (s : State) :
    (opEffect op s).inflight = s.inflight := by rw [opEffect_frame]

@[simp] theorem opEffect_answer (op : MicroOp) (s : State) :
    (opEffect op s).answer = s.answer := by
  funext dir a
  simp [State.answer]

/-- A piece of a body never clears NUMERR (10_state.md R25). -/
theorem opEffect_numerr_mono (op : MicroOp) (s : State) (h : s.numerr = true) :
    (opEffect op s).numerr = true := by
  cases op with
  | read a => exact h
  | write a src => simp [opEffect, h]
  | unit u => cases u <;> simp [opEffect, unitStep, h]

/-- A piece of a body keeps CBUF's size. -/
theorem opEffect_cbuf_length (op : MicroOp) (s : State) :
    (opEffect op s).cbuf.length = s.cbuf.length := by
  cases op with
  | read a => rfl
  | write a src => rfl
  | unit u => cases u <;> simp [opEffect, unitStep]

/-- A piece of a body writes memory at most at its own address. -/
theorem opEffect_mem (op : MicroOp) (s : State) :
    (opEffect op s).mem = s.mem
      ∨ ∃ a v, op.access = some (.write, a) ∧ (opEffect op s).mem = s.mem.write a v := by
  cases op with
  | read a => exact .inl rfl
  | write a src => exact .inr ⟨a, _, rfl, rfl⟩
  | unit u => cases u <;> simp only [opEffect, unitStep, true_or]

/-- What a piece of a body is in flight behind does not matter to it. -/
theorem opEffect_with_inflight (op : MicroOp) (s : State) (f : Option (List MicroOp)) :
    opEffect op { s with inflight := f } = { opEffect op s with inflight := f } := by
  cases op with
  | read a => rfl
  | write a src => cases src <;> rfl
  | unit u => cases u <;> rfl

/-! ### Bodies -/

@[simp] theorem effects_nil (s : State) : effects [] s = s := rfl

@[simp] theorem effects_cons (op : MicroOp) (ops : List MicroOp) (s : State) :
    effects (op :: ops) s = effects ops (opEffect op s) := rfl

theorem effects_append (ops ops' : List MicroOp) (s : State) :
    effects (ops ++ ops') s = effects ops' (effects ops s) := by
  simp [effects, List.foldl_append]

@[simp] theorem effects_build (ops : List MicroOp) (s : State) :
    (effects ops s).build = s.build := by
  induction ops generalizing s with
  | nil => rfl
  | cons op ops ih => rw [effects_cons, ih, opEffect_build]

@[simp] theorem effects_answer (ops : List MicroOp) (s : State) :
    (effects ops s).answer = s.answer := by
  funext dir a
  simp [State.answer]

theorem accessSeq_append (ops ops' : List MicroOp) :
    accessSeq (ops ++ ops') = accessSeq ops ++ accessSeq ops' := by
  simp [accessSeq]

@[simp] theorem accessSeq_nil : accessSeq [] = [] := rfl

theorem accessSeq_cons (op : MicroOp) (ops : List MicroOp) :
    accessSeq (op :: ops) = op.access.toList ++ accessSeq ops := by
  unfold accessSeq
  cases h : op.access <;> simp [h]

@[simp] theorem accessSeq_reads {ι : Type} (l : List ι) (f : ι → Nat) :
    accessSeq (l.map fun i => .read (f i)) = l.map fun i => (.read, f i) := by
  induction l with
  | nil => rfl
  | cons i l ih => simpa [accessSeq_cons, MicroOp.access] using ih

@[simp] theorem accessSeq_writes {ι : Type} (l : List ι) (f : ι → Nat) (g : ι → Source) :
    accessSeq (l.map fun i => .write (f i) (g i)) = l.map fun i => (.write, f i) := by
  induction l with
  | nil => rfl
  | cons i l ih => simpa [accessSeq_cons, MicroOp.access] using ih

@[simp] theorem accessSeq_unit (u : UnitOp) : accessSeq [.unit u] = [] := rfl

theorem accessSeq_flatMap {ι : Type} (l : List ι) (f : ι → List MicroOp) :
    accessSeq (l.flatMap f) = l.flatMap fun i => accessSeq (f i) := by
  induction l with
  | nil => rfl
  | cons i l ih => simp [List.flatMap_cons, accessSeq_append, ih]

theorem BodyAnswered.append_iff (s : State) (ops ops' : List MicroOp) :
    BodyAnswered s (ops ++ ops') ↔ BodyAnswered s ops ∧ BodyAnswered s ops' := by
  simp only [BodyAnswered, accessSeq_append, List.mem_append]
  constructor
  · intro h
    exact ⟨fun p hp => h p (.inl hp), fun p hp => h p (.inr hp)⟩
  · rintro ⟨h, h'⟩ p (hp | hp)
    · exact h p hp
    · exact h' p hp

theorem BodyAnswered.of_answer_eq {s t : State} (h : t.answer = s.answer) (ops : List MicroOp) :
    BodyAnswered t ops ↔ BodyAnswered s ops := by
  simp [BodyAnswered, h]

/-- The answered front of a body has its effects, and the rest runs from there (20_memory.md
R69). -/
theorem runOps_append (ops rest : List MicroOp) (s : State) (h : BodyAnswered s ops) :
    runOps (ops ++ rest) s = runOps rest (effects ops s) := by
  induction ops generalizing s with
  | nil => rfl
  | cons op ops ih =>
    rw [BodyAnswered, accessSeq_cons] at h
    have hop : doOp op s = .moved (opEffect op s) := by
      refine doOp_of_answered op s fun dir a hacc => ?_
      exact h (dir, a) (by simp [hacc])
    rw [List.cons_append, runOps, hop, effects_cons]
    refine ih _ fun p hp => ?_
    rw [opEffect_answer]
    exact h p (by simp [hp])

/-- A body whose accesses all complete has its effects and completes with OK (30_encoding.md R88,
R91). -/
theorem runOps_of_answered (ops : List MicroOp) (s : State) (h : BodyAnswered s ops) :
    runOps ops s = complete .ok (effects ops s) := by
  have := runOps_append ops [] s h
  simpa [runOps] using this

/-- A refused access ends the command there (60_exceptions.md R217). -/
theorem runOps_of_refused (op : MicroOp) (rest : List MicroOp) (s : State) (dir : Dir) (a : Nat)
    (hacc : op.access = some (dir, a)) (hans : s.answer dir a = .refuses) :
    runOps (op :: rest) s = raiseError .bus a s := by
  rw [runOps, doOp_of_refused op s dir a hacc hans]

/-- An access that is not answered leaves the command there (70_reset_and_hazards.md R263). -/
theorem runOps_of_silent (op : MicroOp) (rest : List MicroOp) (s : State) (dir : Dir) (a : Nat)
    (hacc : op.access = some (dir, a)) (hans : s.answer dir a = .silent) :
    runOps (op :: rest) s = { s with inflight := some (op :: rest) } := by
  rw [runOps, doOp_of_silent op s dir a hacc hans]

/-- What is in flight does not matter to the effects of a body but for staying there. -/
theorem effects_with_inflight (ops : List MicroOp) (s : State) (f : Option (List MicroOp)) :
    effects ops { s with inflight := f } = { effects ops s with inflight := f } := by
  induction ops generalizing s with
  | nil => rfl
  | cons op ops ih => rw [effects_cons, effects_cons, opEffect_with_inflight, ih]

/-- Running a body does not depend on what is in flight. -/
theorem runOps_with_inflight (ops : List MicroOp) (s : State) (f : Option (List MicroOp)) :
    runOps ops { s with inflight := f } = runOps ops s := by
  induction ops generalizing s with
  | nil => rfl
  | cons op ops ih =>
    rcases doOp_cases op s with ⟨hdo, hacc⟩ | ⟨d, a, hacc, hans, hdo⟩ | ⟨d, a, hacc, hans, hdo⟩
    · have hdo' : doOp op { s with inflight := f } = .moved (opEffect op { s with inflight := f }) :=
        doOp_of_answered op _ hacc
      rw [runOps, runOps, hdo, hdo', opEffect_with_inflight]
      exact ih _
    · rw [runOps_of_refused op ops s d a hacc hans,
        runOps_of_refused op ops { s with inflight := f } d a hacc hans]
      rfl
    · rw [runOps_of_silent op ops s d a hacc hans,
        runOps_of_silent op ops { s with inflight := f } d a hacc hans]

/-- How a body can end: completed with OK after all its effects; stopped by a refused access after
the effects of what stands before it; or waiting for an answer. -/
theorem runOps_cases (ops : List MicroOp) (s : State) :
    (BodyAnswered s ops ∧ runOps ops s = complete .ok (effects ops s))
      ∨ (∃ pre op post dir a, ops = pre ++ op :: post ∧ BodyAnswered s pre
          ∧ op.access = some (dir, a) ∧ s.answer dir a = .refuses
          ∧ runOps ops s = raiseError .bus a (effects pre s))
      ∨ (∃ pre op post dir a, ops = pre ++ op :: post ∧ BodyAnswered s pre
          ∧ op.access = some (dir, a) ∧ s.answer dir a = .silent
          ∧ runOps ops s = { effects pre s with inflight := some (op :: post) }) := by
  induction ops generalizing s with
  | nil => exact .inl ⟨fun p hp => by simp at hp, rfl⟩
  | cons op ops ih =>
    rcases doOp_cases op s with ⟨hdo, hacc⟩ | ⟨dir, a, hacc, hans, hdo⟩ | ⟨dir, a, hacc, hans, hdo⟩
    · have hop : BodyAnswered s [op] := by
        intro p hp
        rw [accessSeq_cons, accessSeq_nil, List.append_nil, Option.mem_toList] at hp
        exact hacc p.1 p.2 hp
      have key : ∀ pre, BodyAnswered (opEffect op s) pre → BodyAnswered s (op :: pre) := by
        intro pre hpre
        rw [BodyAnswered.of_answer_eq (opEffect_answer op s)] at hpre
        exact (BodyAnswered.append_iff s [op] pre).mpr ⟨hop, hpre⟩
      rcases ih (opEffect op s) with ⟨hb, hr⟩ | ⟨pre, o, post, d, a, he, hb, ha, hn, hr⟩
        | ⟨pre, o, post, d, a, he, hb, ha, hn, hr⟩
      · exact .inl ⟨key ops hb, by rw [runOps, hdo]; exact hr⟩
      · rw [opEffect_answer] at hn
        exact .inr (.inl ⟨op :: pre, o, post, d, a, by rw [he]; rfl, key pre hb, ha, hn,
          by rw [runOps, hdo]; exact hr⟩)
      · rw [opEffect_answer] at hn
        exact .inr (.inr ⟨op :: pre, o, post, d, a, by rw [he]; rfl, key pre hb, ha, hn,
          by rw [runOps, hdo]; exact hr⟩)
    · exact .inr (.inl ⟨[], op, ops, dir, a, rfl, fun p hp => by simp at hp, hacc, hans,
        by rw [runOps, hdo]; rfl⟩)
    · exact .inr (.inr ⟨[], op, ops, dir, a, rfl, fun p hp => by simp at hp, hacc, hans,
        by rw [runOps, hdo]; rfl⟩)

/-! ### Reads and writes in a row -/

/-- Reads in a row append the bytes they read, and touch nothing else. -/
theorem effects_reads {ι : Type} (l : List ι) (f : ι → Nat) (s : State) :
    effects (l.map fun i => .read (f i)) s =
      { s with rbuf := s.rbuf ++ l.map fun i => s.mem.read (f i) } := by
  induction l generalizing s with
  | nil => simp
  | cons i l ih => simp [effects_cons, opEffect, ih]

/-- Writes in a row whose bytes come from the registers: memory takes them in order, NUMERR gathers
the conversions' flags, and nothing else is touched (20_memory.md R77). -/
theorem effects_writes {ι : Type} (l : List ι) (f : ι → Nat) (g : ι → Source) (s : State) :
    effects (l.map fun i => .write (f i) (g i)) s =
      { s with
        mem := s.mem.writeAll (l.map fun i => (f i, (s.sourceByte (g i)).1))
        numerr := s.numerr || l.any fun i => (s.sourceByte (g i)).2 } := by
  induction l generalizing s with
  | nil => simp
  | cons i l ih =>
    have hsrc : ∀ j, (opEffect (.write (f i) (g i)) s).sourceByte (g j) = s.sourceByte (g j) := by
      intro j
      cases g j <;> rfl
    rw [List.map_cons, effects_cons, ih]
    simp only [hsrc, List.map_cons, Memory.writeAll_cons, List.any_cons]
    simp [opEffect, Bool.or_assoc]

/-! ### The checks and the start of a body -/

/-- No address of a body is 2^32 or more, said by `firstHigh` (20_memory.md R63). -/
theorem firstHigh_eq_none (ops : List MicroOp) : firstHigh ops = none ↔ BodyInSpace ops := by
  simp [firstHigh, BodyInSpace]

/-- The first address of 2^32 or more is the one `firstHigh` finds (20_memory.md R63). -/
theorem firstHigh_of_split (ops : List MicroOp) (pre post : List (Dir × Nat)) (d : Dir) (a : Nat)
    (hs : accessSeq ops = pre ++ (d, a) :: post) (hpre : ∀ p ∈ pre, p.2 < 2 ^ 32)
    (ha : 2 ^ 32 ≤ a) : firstHigh ops = some a := by
  have hnone : List.find? (fun p : Dir × Nat => decide (2 ^ 32 ≤ p.2)) pre = none := by
    simpa using hpre
  have hhead : List.find? (fun p : Dir × Nat => decide (2 ^ 32 ≤ p.2)) ((d, a) :: post)
      = some (d, a) := List.find?_cons_of_pos (by simpa using ha)
  rw [firstHigh, hs, List.find?_append, hnone, Option.none_or, hhead]
  rfl

/-- A failed check completes the command with nothing else changed (30_encoding.md R88). -/
theorem startWith_failed (code : ErrCode) (ops : List MicroOp) (s : State) :
    startWith (some code) ops s = complete code s := rfl

/-- With the checks passed and every address below 2^32 the body is in flight. -/
theorem startWith_inSpace (ops : List MicroOp) (s : State) (h : BodyInSpace ops) :
    startWith none ops s = { s with inflight := some ops, rbuf := [] } := by
  rw [startWith, (firstHigh_eq_none ops).mpr h]

/-- What the start of a command can come to. -/
theorem startWith_cases (failed : Option ErrCode) (ops : List MicroOp) (s : State) :
    (∃ code, failed = some code ∧ startWith failed ops s = complete code s)
      ∨ (∃ a, failed = none ∧ firstHigh ops = some a
          ∧ startWith failed ops s = raiseError .addr a s)
      ∨ (failed = none ∧ BodyInSpace ops
          ∧ startWith failed ops s = { s with inflight := some ops, rbuf := [] }) := by
  cases failed with
  | some code => exact .inl ⟨code, rfl, rfl⟩
  | none =>
    cases h : firstHigh ops with
    | some a => exact .inr (.inl ⟨a, rfl, rfl, by rw [startWith, h]⟩)
    | none =>
      exact .inr (.inr ⟨rfl, (firstHigh_eq_none ops).mp h,
        startWith_inSpace ops s ((firstHigh_eq_none ops).mp h)⟩)

@[simp] theorem finish_complete (code : ErrCode) (s : State) :
    finish (complete code s) = complete code s := rfl

@[simp] theorem finish_raiseError (code : ErrCode) (a : Nat) (s : State) :
    finish (raiseError code a s) = raiseError code a s := rfl

@[simp] theorem finish_inflight (ops : List MicroOp) (s : State) :
    finish { s with inflight := some ops } = runOps ops { s with inflight := some ops } := rfl

/-- Of an answered body behind passed checks: the whole command (30_encoding.md R88). -/
theorem finish_startWith (ops : List MicroOp) (s : State) (hs : BodyInSpace ops)
    (ha : BodyAnswered s ops) :
    finish (startWith none ops s) =
      complete .ok (effects ops { s with inflight := some ops, rbuf := [] }) := by
  rw [startWith_inSpace ops s hs]
  exact runOps_of_answered ops _ ha

/-- The check CFG fails first (30_encoding.md R88). -/
theorem failedCheck_cfg (s : State) (arg : Option Nat) (sizeOk : Bool)
    (h : s.geometryValid = false) : failedCheck s true arg sizeOk = some .cfg := by
  simp [failedCheck, h]

/-- All three checks pass (30_encoding.md R88, R89). -/
theorem failedCheck_none (s : State) (cfg : Bool) (arg : Option Nat) (sizeOk : Bool)
    (hc : cfg = true → s.geometryValid = true) (ha : ∀ k, arg = some k → k < s.blocks)
    (hz : sizeOk = true) : failedCheck s cfg arg sizeOk = none := by
  have h1 : (cfg && !s.geometryValid) = false := by
    cases hcfg : cfg with
    | false => rfl
    | true => simp [hc hcfg]
  have h2 : (arg.any fun k => decide (s.blocks ≤ k)) = false := by
    cases harg : arg with
    | none => rfl
    | some k => simpa using ha k harg
  simp [failedCheck, h1, h2, hz]

/-! ### One piece of work at a time -/

@[simp] theorem engineTick_idle (s : State) (h : s.inflight = none) : engineTick s = s := by
  simp [engineTick, h]

/-- What a piece of work of the core engine can do (10_state.md R48). -/
theorem engineTick_cases (s : State) :
    (s.inflight = none ∧ engineTick s = s)
      ∨ (s.inflight = some [] ∧ engineTick s = complete .ok s)
      ∨ (∃ op rest, s.inflight = some (op :: rest)
          ∧ engineTick s = { opEffect op s with inflight := some rest }
          ∧ ∀ dir a, op.access = some (dir, a) → s.answer dir a = .completes)
      ∨ (∃ op rest dir a, s.inflight = some (op :: rest) ∧ op.access = some (dir, a)
          ∧ s.answer dir a = .refuses ∧ engineTick s = raiseError .bus a s)
      ∨ (∃ op rest dir a, s.inflight = some (op :: rest) ∧ op.access = some (dir, a)
          ∧ s.answer dir a = .silent ∧ engineTick s = s) := by
  unfold engineTick
  cases hf : s.inflight with
  | none => exact .inl ⟨rfl, rfl⟩
  | some ops =>
    cases ops with
    | nil => exact .inr (.inl ⟨rfl, rfl⟩)
    | cons op rest =>
      rcases doOp_cases op s with ⟨hdo, hacc⟩ | ⟨d, a, hacc, hans, hdo⟩ | ⟨d, a, hacc, hans, hdo⟩
      · exact .inr (.inr (.inl ⟨op, rest, rfl, by simp [hdo], hacc⟩))
      · exact .inr (.inr (.inr (.inl ⟨op, rest, d, a, rfl, hacc, hans, by simp [hdo]⟩)))
      · exact .inr (.inr (.inr (.inr ⟨op, rest, d, a, rfl, hacc, hans, by simp [hdo]⟩)))

/-! ### A prefix of a body -/

/-- The pieces through the k-th access hold the first k accesses (70_reset_and_hazards.md R242). -/
theorem accessSeq_take_piecesThrough (k : Nat) (ops : List MicroOp) :
    accessSeq (ops.take (piecesThrough k ops)) = (accessSeq ops).take k := by
  induction ops generalizing k with
  | nil => simp [piecesThrough]
  | cons op rest ih =>
    cases k with
    | zero => simp [piecesThrough]
    | succ k =>
      cases ha : op.access with
      | none => simp [piecesThrough, ha, accessSeq_cons, ih]
      | some p => simp [piecesThrough, ha, accessSeq_cons, ih]

/-- Pieces of work in a row on an answered front of a body have its effects, the rest in flight
(10_state.md R48). -/
theorem engineTicks_of_answered (pre rest : List MicroOp) (s : State) (h : BodyAnswered s pre) :
    engineTicks pre.length { s with inflight := some (pre ++ rest) }
      = { effects pre s with inflight := some rest } := by
  induction pre generalizing s with
  | nil => rfl
  | cons op pre ih =>
    obtain ⟨hop, hpre⟩ := (BodyAnswered.append_iff s [op] pre).mp h
    have hdo : doOp op { s with inflight := some (op :: (pre ++ rest)) }
        = .moved { opEffect op s with inflight := some (op :: (pre ++ rest)) } := by
      rw [← opEffect_with_inflight]
      refine doOp_of_answered op _ fun dir a hacc => ?_
      exact hop (dir, a) (by simp [accessSeq_cons, hacc])
    have htick : engineTick { s with inflight := some (op :: (pre ++ rest)) }
        = { opEffect op s with inflight := some (pre ++ rest) } := by
      simp only [engineTick, hdo]
    rw [List.length_cons, engineTicks, List.cons_append, htick, effects_cons]
    exact ih _ ((BodyAnswered.of_answer_eq (opEffect_answer op s) pre).mpr hpre)

/-- What a drawn prefix of a command in flight is, where memory completes every access: the effects of
a front of the body with that many accesses, the rest still in flight (70_reset_and_hazards.md
R242). -/
theorem performPart_of_answered (ops : List MicroOp) (s : State) (h : BodyAnswered s ops) :
    ∃ pre post, ops = pre ++ post
      ∧ (accessSeq pre).length
          = Config.accessesPerformed s.draws % ((accessSeq ops).length + 1)
      ∧ performPart { s with inflight := some ops }
          = { effects pre { s with draws := s.draws + 1 } with inflight := some post } := by
  generalize hk : Config.accessesPerformed s.draws % ((accessSeq ops).length + 1) = k
  have hle : k ≤ (accessSeq ops).length := by
    rw [← hk]
    exact Nat.lt_succ_iff.mp (Nat.mod_lt _ (Nat.succ_pos _))
  have hlen : ∀ k (ops : List MicroOp), piecesThrough k ops ≤ ops.length := by
    intro k ops
    induction ops generalizing k with
    | nil => simp [piecesThrough]
    | cons op rest ih =>
      unfold piecesThrough
      split
      · omega
      · have := ih ‹_›; simp; omega
      · have := ih (‹Nat› + 1); simp; omega
  refine ⟨ops.take (piecesThrough k ops), ops.drop (piecesThrough k ops),
    (List.take_append_drop _ _).symm, ?_, ?_⟩
  · rw [accessSeq_take_piecesThrough, List.length_take, Nat.min_eq_left hle]
  · have hb : BodyAnswered { s with draws := s.draws + 1 } (ops.take (piecesThrough k ops)) := by
      have h' : BodyAnswered s (ops.take (piecesThrough k ops) ++ ops.drop (piecesThrough k ops)) := by
        rwa [List.take_append_drop]
      exact ((BodyAnswered.append_iff _ _ _).mp h').1
    have := engineTicks_of_answered _ (ops.drop (piecesThrough k ops)) _ hb
    rw [List.take_append_drop, List.length_take, Nat.min_eq_left (hlen k ops)] at this
    simpa only [performPart, hk] using this

end Sys2Proof.Machine
end

