-- ==== Sys2Proof/Laws/Float.lean ====
section
/-! SUPPORT. The rounding of Machine/Float.lean is the rounding of IEEE 754: what a pattern's magnitude
is in units of 2^-149, and that `roundedMag` gives the nearest value, ties to even. -/

namespace Sys2Proof.Machine

/-- The units a magnitude pattern stands for (00_scope.md R12). -/
def unitsOfMag (m : Nat) : Nat :=
  if m / 2 ^ 23 = 0 then m % 2 ^ 23 else (2 ^ 23 + m % 2 ^ 23) * 2 ^ (m / 2 ^ 23 - 1)

theorem unitsOf_eq (x : F32) : unitsOf x = unitsOfMag (magOf x) := rfl

/-- The exponent field is the upper part of the magnitude (00_scope.md R12). -/
theorem f32Exponent_eq (x : F32) : f32Exponent x = magOf x / 2 ^ 23 := by
  simp only [f32Exponent, magOf, BitVec.extractLsb'_toNat, Nat.shiftRight_eq_div_pow]
  omega

/-- The fraction field is the lower part of the magnitude (00_scope.md R12). -/
theorem f32Fraction_eq (x : F32) : f32Fraction x = magOf x % 2 ^ 23 := by
  simp only [f32Fraction, magOf, BitVec.extractLsb'_toNat, Nat.shiftRight_eq_div_pow]
  omega

theorem signOf_eq (x : F32) : signOf x = x.getLsbD 31 := by
  rw [signOf, ← BitVec.msb_eq_getLsbD_last, BitVec.msb_eq_decide]

/-- A pattern stands for its units, with its sign (00_scope.md R12). -/
theorem f32Value_eq (x : F32) : f32Value x = (signedUnits x : ℚ) / 2 ^ 149 := by
  rw [f32Value, f32Exponent_eq, f32Fraction_eq, ← signOf_eq, signedUnits, unitsOf]
  have hu : ((if magOf x / 2 ^ 23 = 0 then magOf x % 2 ^ 23
        else (2 ^ 23 + magOf x % 2 ^ 23) * 2 ^ (magOf x / 2 ^ 23 - 1) : ℕ) : ℚ)
      = if magOf x / 2 ^ 23 = 0 then ((magOf x % 2 ^ 23 : ℕ) : ℚ)
        else (2 ^ 23 + (magOf x % 2 ^ 23 : ℕ)) * 2 ^ (magOf x / 2 ^ 23 - 1) := by
    split <;> push_cast <;> rfl
  rw [← hu]
  generalize (if magOf x / 2 ^ 23 = 0 then magOf x % 2 ^ 23
        else (2 ^ 23 + magOf x % 2 ^ 23) * 2 ^ (magOf x / 2 ^ 23 - 1) : ℕ) = u
  cases signOf x <;> simp

theorem magOf_lt (x : F32) : magOf x < 2 ^ 31 := Nat.mod_lt _ (by decide)

theorem exponent_eq_255 (x : F32) : f32Exponent x = 255 ↔ 0x7F800000 ≤ magOf x := by
  have := magOf_lt x
  rw [f32Exponent_eq]; omega

theorem magOf_ofSignMag (neg : Bool) (m : Nat) (h : m < 2 ^ 31) : magOf (ofSignMag neg m) = m := by
  cases neg <;> simp only [magOf, ofSignMag, BitVec.toNat_ofNat] <;> simp <;> omega

theorem signOf_ofSignMag (neg : Bool) (m : Nat) (h : m < 2 ^ 31) :
    signOf (ofSignMag neg m) = neg := by
  cases neg <;> simp only [signOf, ofSignMag, BitVec.toNat_ofNat] <;> simp <;> omega

/-! ### Rounding to an integer -/

/-- The nearest integer is within a half. -/
theorem roundNearestEven_near (num den : Nat) (hd : 0 < den) :
    2 * num ≤ 2 * (roundNearestEven num den * den) + den
      ∧ 2 * (roundNearestEven num den * den) ≤ 2 * num + den := by
  have hdiv := Nat.div_add_mod num den
  have hmod := Nat.mod_lt num hd
  have hc : num / den * den = den * (num / den) := Nat.mul_comm _ _
  unfold roundNearestEven
  split
  · rw [Nat.add_mul]; omega
  · omega

/-- A tie goes to the even integer. -/
theorem roundNearestEven_tie (num den : Nat) (hd : 0 < den)
    (h : 2 * num = 2 * (roundNearestEven num den * den) + den
      ∨ 2 * (roundNearestEven num den * den) = 2 * num + den) :
    roundNearestEven num den % 2 = 0 := by
  have hdiv := Nat.div_add_mod num den
  have hmod := Nat.mod_lt num hd
  have hc : num / den * den = den * (num / den) := Nat.mul_comm _ _
  unfold roundNearestEven at h ⊢
  split at h
  · rename_i hif
    rw [if_pos hif]
    rw [Nat.add_mul] at h
    omega
  · rename_i hif
    rw [if_neg hif]
    omega

/-! ### The rounded magnitude -/

/-- The grid on which `num / den` units is rounded: 2^spacingExp units; the quotient lies from 2^23
spacings on where the spacing is more than one unit, and below 2^24 spacings. -/
theorem spacing_bounds (u : Nat) :
    (0 < spacingExp u → 2 ^ 23 * 2 ^ spacingExp u ≤ u) ∧ u < 2 ^ 24 * 2 ^ spacingExp u := by
  unfold spacingExp
  rw [← Nat.pow_add, ← Nat.pow_add]
  constructor
  · intro h
    have hu : u ≠ 0 := by rintro rfl; simp at h
    have : 23 + (Nat.log2 u - 23) = Nat.log2 u := by omega
    rw [this]
    exact Nat.log2_self_le hu
  · have h1 : u < 2 ^ (Nat.log2 u + 1) := Nat.lt_log2_self
    exact Nat.lt_of_lt_of_le h1 (Nat.pow_le_pow_right (by decide) (by omega))

/-- `r` spacings of 2^e units, r at most 2^24, and at least 2^23 unless e is 0, have the magnitude
pattern e·2^23 + r. -/
theorem unitsOfMag_grid (e r : Nat) (hr : r ≤ 2 ^ 24) (hl : 0 < e → 2 ^ 23 ≤ r) :
    unitsOfMag (e * 2 ^ 23 + r) = r * 2 ^ e := by
  unfold unitsOfMag
  rcases Nat.lt_or_ge r (2 ^ 23) with h | h
  · obtain rfl : e = 0 := by omega
    simp only [Nat.zero_mul, Nat.zero_add, Nat.pow_zero, Nat.mul_one]
    rw [if_pos (by omega)]; omega
  · rcases Nat.lt_or_ge r (2 ^ 24) with h' | h'
    · have h1 : (e * 2 ^ 23 + r) / 2 ^ 23 = e + 1 := by omega
      have h2 : (e * 2 ^ 23 + r) % 2 ^ 23 = r - 2 ^ 23 := by omega
      rw [h1, h2, if_neg (by omega), Nat.add_sub_cancel,
        Nat.add_sub_cancel' h]
    · obtain rfl : r = 2 ^ 24 := by omega
      have h1 : (e * 2 ^ 23 + 2 ^ 24) / 2 ^ 23 = e + 2 := by omega
      have h2 : (e * 2 ^ 23 + 2 ^ 24) % 2 ^ 23 = 0 := by omega
      rw [h1, h2, if_neg (by omega), Nat.add_zero, show e + 2 - 1 = e + 1 by omega, Nat.pow_succ]
      omega

/-- Every value is a whole number of spacings 2^e, or lies below 2^23 of them (00_scope.md R12). -/
theorem unitsOfMag_on_grid (m e : Nat) :
    (∃ n, unitsOfMag m = n * 2 ^ e) ∨ unitsOfMag m < 2 ^ 23 * 2 ^ e := by
  have hlt : m % 2 ^ 23 < 2 ^ 23 := Nat.mod_lt _ (by decide)
  unfold unitsOfMag
  split
  · right
    exact Nat.lt_of_lt_of_le hlt (Nat.le_mul_of_pos_right _ (Nat.two_pow_pos e))
  · rcases Nat.lt_or_ge (m / 2 ^ 23 - 1) e with h | h
    · right
      have h1 : 2 ^ 23 * 2 ^ e = 2 ^ 24 * 2 ^ (e - 1) := by
        obtain ⟨k, rfl⟩ : ∃ k, e = k + 1 := ⟨e - 1, by omega⟩
        rw [Nat.add_sub_cancel, Nat.pow_succ]; omega
      rw [h1]
      have h2 : 2 ^ (m / 2 ^ 23 - 1) ≤ 2 ^ (e - 1) := Nat.pow_le_pow_right (by decide) (by omega)
      calc (2 ^ 23 + m % 2 ^ 23) * 2 ^ (m / 2 ^ 23 - 1)
          ≤ (2 ^ 23 + m % 2 ^ 23) * 2 ^ (e - 1) := Nat.mul_le_mul_left _ h2
        _ < 2 ^ 24 * 2 ^ (e - 1) := Nat.mul_lt_mul_of_pos_right (by omega) (Nat.two_pow_pos _)
    · left
      refine ⟨(2 ^ 23 + m % 2 ^ 23) * 2 ^ (m / 2 ^ 23 - 1 - e), ?_⟩
      rw [Nat.mul_assoc, ← Nat.pow_add, Nat.sub_add_cancel h]

/-- How many spacings `num / den` units is rounded to. -/
def roundedSpacings (num den : Nat) : Nat :=
  roundNearestEven num (den * 2 ^ spacingExp (num / den))

theorem roundedSpacings_bounds (num den : Nat) (hd : 0 < den) :
    (0 < spacingExp (num / den) → 2 ^ 23 ≤ roundedSpacings num den)
      ∧ roundedSpacings num den ≤ 2 ^ 24 := by
  obtain ⟨h1, h2⟩ := spacing_bounds (num / den)
  have hg : 0 < den * 2 ^ spacingExp (num / den) := Nat.mul_pos hd (Nat.two_pow_pos _)
  have hq : num / (den * 2 ^ spacingExp (num / den))
      = num / den / 2 ^ spacingExp (num / den) := (Nat.div_div_eq_div_mul _ _ _).symm
  have hle : num / (den * 2 ^ spacingExp (num / den)) ≤ roundedSpacings num den
      ∧ roundedSpacings num den ≤ num / (den * 2 ^ spacingExp (num / den)) + 1 := by
    unfold roundedSpacings roundNearestEven
    split <;> omega
  rw [hq] at hle
  constructor
  · intro h
    exact Nat.le_trans ((Nat.le_div_iff_mul_le (Nat.two_pow_pos _)).mpr (h1 h)) hle.1
  · have : num / den / 2 ^ spacingExp (num / den) < 2 ^ 24 :=
      (Nat.div_lt_iff_lt_mul (Nat.two_pow_pos _)).mpr h2
    omega

/-- The rounded magnitude stands for its spacings, or is the infinity. -/
theorem roundedMag_units (num den : Nat) (hd : 0 < den)
    (h : spacingExp (num / den) * 2 ^ 23 + roundedSpacings num den < 0x7F800000) :
    roundedMag num den = spacingExp (num / den) * 2 ^ 23 + roundedSpacings num den
      ∧ unitsOfMag (roundedMag num den)
          = roundedSpacings num den * 2 ^ spacingExp (num / den) := by
  have he : roundedMag num den
      = spacingExp (num / den) * 2 ^ 23 + roundedSpacings num den :=
    Nat.min_eq_right (Nat.le_of_lt h)
  obtain ⟨hl, hr⟩ := roundedSpacings_bounds num den hd
  exact ⟨he, by rw [he]; exact unitsOfMag_grid _ _ hr hl⟩

/-- Below the halfway point past the largest finite value, (2^25 - 1)·2^252 units, the rounded
magnitude is finite, and from it on it is the infinity (00_scope.md R12). -/
theorem roundedMag_finite_iff (num den : Nat) (hd : 0 < den) :
    spacingExp (num / den) * 2 ^ 23 + roundedSpacings num den < 0x7F800000
      ↔ num < (2 ^ 25 - 1) * 2 ^ 252 * den := by
  obtain ⟨h1, h2⟩ := spacing_bounds (num / den)
  obtain ⟨hl, hr⟩ := roundedSpacings_bounds num den hd
  obtain ⟨hn1, hn2⟩ := roundNearestEven_near num (den * 2 ^ spacingExp (num / den))
    (Nat.mul_pos hd (Nat.two_pow_pos _))
  have htie := roundNearestEven_tie num (den * 2 ^ spacingExp (num / den))
    (Nat.mul_pos hd (Nat.two_pow_pos _))
  change 2 * num ≤ 2 * (roundedSpacings num den * _) + _ at hn1
  change 2 * (roundedSpacings num den * _) ≤ _ at hn2
  change (2 * num = 2 * (roundedSpacings num den * _) + _
    ∨ 2 * (roundedSpacings num den * _) = _) → roundedSpacings num den % 2 = 0 at htie
  generalize roundedSpacings num den = r at *
  generalize he : spacingExp (num / den) = e at *
  have hnum : num / den * den ≤ num := Nat.div_mul_le_self num den
  have hnum' : num < (num / den + 1) * den := by
    rw [Nat.mul_comm]; exact Nat.lt_mul_div_succ num hd
  rcases Nat.lt_trichotomy e 253 with h | rfl | h
  · -- far below
    refine ⟨fun _ => ?_, fun _ => by omega⟩
    have hp : 2 ^ e ≤ 2 ^ 252 := Nat.pow_le_pow_right (by decide) (by omega)
    have : num / den + 1 ≤ 2 ^ 24 * 2 ^ 252 :=
      Nat.le_trans h2 (Nat.mul_le_mul_left _ hp)
    calc num < (num / den + 1) * den := hnum'
      _ ≤ 2 ^ 24 * 2 ^ 252 * den := Nat.mul_le_mul_right _ this
      _ ≤ (2 ^ 25 - 1) * 2 ^ 252 * den :=
        Nat.mul_le_mul_right _ (Nat.mul_le_mul_right _ (by decide))
  · have hg : den * 2 ^ 253 = 2 * (den * 2 ^ 252) := by rw [Nat.pow_succ 2 252]; ring
    have ht : (2 ^ 25 - 1) * 2 ^ 252 * den = (2 ^ 25 - 1) * (den * 2 ^ 252) := by ring
    have hG : 0 < den * 2 ^ 252 := Nat.mul_pos hd (Nat.two_pow_pos _)
    obtain ⟨G, hdef⟩ : ∃ G, G = den * 2 ^ 252 := ⟨_, rfl⟩
    rw [hg, ← hdef] at hn1 hn2 htie
    rw [← hdef] at hG
    rw [ht, ← hdef]
    clear hg ht hdef h1 h2 hnum hnum'
    have hcomm : r * (2 * G) = 2 * (r * G) := by ring
    rw [hcomm] at hn1 hn2 htie
    have hrl := hl (by decide)
    constructor
    · intro hlt
      have hr' : r ≤ 2 ^ 24 - 1 := by omega
      have hrG : r * G ≤ (2 ^ 24 - 1) * G := Nat.mul_le_mul_right _ hr'
      by_contra hge
      have e1 : r * G = (2 ^ 24 - 1) * G := by omega
      have e2 : r = 2 ^ 24 - 1 := Nat.eq_of_mul_eq_mul_right hG e1
      have := htie (.inl (by omega))
      omega
    · intro hlt
      by_contra hge
      have e2 : r = 2 ^ 24 := by omega
      subst e2
      omega
  · -- far above
    refine ⟨fun hlt => ?_, fun hlt => ?_⟩
    · have := hl (by omega); omega
    · exfalso
      have hp : 2 ^ 254 ≤ 2 ^ e := Nat.pow_le_pow_right (by decide) (by omega)
      have : 2 ^ 23 * 2 ^ 254 ≤ num / den :=
        Nat.le_trans (Nat.mul_le_mul_left _ hp) (h1 (by omega))
      have : 2 ^ 23 * 2 ^ 254 * den ≤ num :=
        Nat.le_trans (Nat.mul_le_mul_right _ this) hnum
      have hk : (2 ^ 25 - 1) * 2 ^ 252 * den ≤ 2 ^ 23 * 2 ^ 254 * den :=
        Nat.mul_le_mul_right _ (by decide)
      omega

/-- No value lies nearer to `num / den` units than the rounded one, and where another lies as near the
rounded one is even; all distances times `den`, between whole numbers (00_scope.md R12). -/
theorem roundedMag_nearest (num den m : Nat) (hd : 0 < den)
    (hf : num < (2 ^ 25 - 1) * 2 ^ 252 * den) :
    |(unitsOfMag (roundedMag num den) * den : ℤ) - num| ≤ |(unitsOfMag m * den : ℤ) - num|
      ∧ (|(unitsOfMag m * den : ℤ) - num| = |(unitsOfMag (roundedMag num den) * den : ℤ) - num| →
          unitsOfMag m ≠ unitsOfMag (roundedMag num den) → roundedMag num den % 2 = 0) := by
  obtain ⟨hm, hu⟩ := roundedMag_units num den hd ((roundedMag_finite_iff num den hd).mpr hf)
  rw [hu, hm]
  obtain ⟨h1, -⟩ := spacing_bounds (num / den)
  obtain ⟨hn1, hn2⟩ := roundNearestEven_near num (den * 2 ^ spacingExp (num / den))
    (Nat.mul_pos hd (Nat.two_pow_pos _))
  have htie := roundNearestEven_tie num (den * 2 ^ spacingExp (num / den))
    (Nat.mul_pos hd (Nat.two_pow_pos _))
  change 2 * num ≤ 2 * (roundedSpacings num den * _) + _ at hn1
  change 2 * (roundedSpacings num den * _) ≤ _ at hn2
  change (2 * num = 2 * (roundedSpacings num den * _) + _
    ∨ 2 * (roundedSpacings num den * _) = _) → roundedSpacings num den % 2 = 0 at htie
  have hnum : num / den * den ≤ num := Nat.div_mul_le_self num den
  have hgrid := unitsOfMag_on_grid m (spacingExp (num / den))
  have hzero : spacingExp (num / den) = 0 → ∃ n, unitsOfMag m = n * 2 ^ spacingExp (num / den) :=
    fun h => ⟨unitsOfMag m, by simp [h]⟩
  generalize roundedSpacings num den = r at *
  generalize spacingExp (num / den) = e at *
  obtain ⟨G, hG⟩ : ∃ G, G = den * 2 ^ e := ⟨_, rfl⟩
  have hGpos : 0 < G := hG ▸ Nat.mul_pos hd (Nat.two_pow_pos _)
  rw [← hG] at hn1 hn2 htie
  have hr : ((r * 2 ^ e : ℕ) * den : ℤ) = (r * G : ℕ) := by rw [hG]; push_cast; ring
  have hpar : (e * 2 ^ 23 + r) % 2 = r % 2 := by omega
  rw [hpar, hr]
  -- distances to the grid points
  have near : |((r * G : ℕ) : ℤ) - num| * 2 ≤ G := by
    rcases abs_cases (((r * G : ℕ) : ℤ) - num) with ⟨h, -⟩ | ⟨h, -⟩ <;> rw [h] <;> omega
  have onGrid : ∀ n : ℕ, |((r * G : ℕ) : ℤ) - num| ≤ |((n * G : ℕ) : ℤ) - num|
      ∧ (|((n * G : ℕ) : ℤ) - num| = |((r * G : ℕ) : ℤ) - num| → n ≠ r → r % 2 = 0) := by
    intro n
    rcases Nat.lt_trichotomy n r with h | rfl | h
    · have hle : n * G + G ≤ r * G := by
        rw [← Nat.succ_mul]; exact Nat.mul_le_mul_right _ h
      have hneg : ((n * G : ℕ) : ℤ) - num ≤ 0 := by omega
      rw [abs_of_nonpos hneg]
      refine ⟨by omega, fun he _ => htie (.inr ?_)⟩
      rcases abs_cases (((r * G : ℕ) : ℤ) - num) with ⟨h', -⟩ | ⟨h', -⟩ <;> rw [h'] at he near <;>
        omega
    · exact ⟨le_refl _, fun _ h => absurd rfl h⟩
    · have hle : r * G + G ≤ n * G := by
        rw [← Nat.succ_mul]; exact Nat.mul_le_mul_right _ h
      have hpos : 0 ≤ ((n * G : ℕ) : ℤ) - num := by omega
      rw [abs_of_nonneg hpos]
      refine ⟨by omega, fun he _ => htie (.inl ?_)⟩
      rcases abs_cases (((r * G : ℕ) : ℤ) - num) with ⟨h', -⟩ | ⟨h', -⟩ <;> rw [h'] at he near <;>
        omega
  by_cases hg : ∃ n, unitsOfMag m = n * 2 ^ e
  · obtain ⟨n, hn⟩ := hg
    have hn' : (unitsOfMag m * den : ℤ) = (n * G : ℕ) := by rw [hn, hG]; push_cast; ring
    rw [hn', hn]
    refine ⟨(onGrid n).1, fun he hne => (onGrid n).2 he ?_⟩
    rintro rfl; exact hne rfl
  · have he0 : 0 < e := Nat.pos_of_ne_zero fun h => hg (hzero h)
    have hlt : unitsOfMag m < 2 ^ 23 * 2 ^ e := hgrid.resolve_left hg
    have hlow : 2 ^ 23 * G ≤ num := by
      have : 2 ^ 23 * 2 ^ e * den ≤ num :=
        Nat.le_trans (Nat.mul_le_mul_right _ (h1 he0)) hnum
      calc 2 ^ 23 * G = 2 ^ 23 * 2 ^ e * den := by rw [hG]; ring
        _ ≤ num := this
    have hstrict : unitsOfMag m * den < 2 ^ 23 * G := by
      calc unitsOfMag m * den < 2 ^ 23 * 2 ^ e * den := Nat.mul_lt_mul_of_pos_right hlt hd
        _ = 2 ^ 23 * G := by rw [hG]; ring
    have hfar : |((r * G : ℕ) : ℤ) - num| < |(unitsOfMag m * den : ℤ) - num| := by
      refine lt_of_le_of_lt (onGrid (2 ^ 23)).1 ?_
      have a1 : ((2 ^ 23 * G : ℕ) : ℤ) - num ≤ 0 := by omega
      have a2 : (unitsOfMag m * den : ℤ) - num ≤ 0 := by
        have : ((unitsOfMag m * den : ℕ) : ℤ) ≤ num := by omega
        push_cast at this; omega
      rw [abs_of_nonpos a1, abs_of_nonpos a2]
      have : ((unitsOfMag m * den : ℕ) : ℤ) < (2 ^ 23 * G : ℕ) := by omega
      push_cast at this ⊢; omega
    exact ⟨hfar.le, fun he _ => absurd he hfar.ne'⟩

/-- A sign and a magnitude in units as a number. -/
theorem f32Value_signed (x : F32) :
    f32Value x = (if signOf x then -1 else 1) * (unitsOfMag (magOf x) : ℚ) / 2 ^ 149 := by
  rw [f32Value_eq, signedUnits, unitsOf_eq]
  cases signOf x <;> simp

/-- The magnitude patterns that `roundedMag` gives are those of finite values and of the infinity. -/
theorem roundedMag_le (num den : Nat) : roundedMag num den ≤ 0x7F800000 := Nat.min_le_left _ _

/-- `roundedMag` rounds `num / den` units, of either sign, as IEEE 754 asks (00_scope.md R12). -/
theorem roundsTo_roundedMag (neg : Bool) (num den : Nat) (hd : 0 < den) :
    RoundsTo ((if neg then -1 else 1) * ((num : ℚ) / den) / 2 ^ 149)
      (ofSignMag neg (roundedMag num den)) := by
  have hlt : roundedMag num den < 2 ^ 31 := by
    have := roundedMag_le num den; omega
  have hmag := magOf_ofSignMag neg _ hlt
  have hsign := signOf_ofSignMag neg _ hlt
  have hden : (0 : ℚ) < den := by exact_mod_cast hd
  have h149 : (0 : ℚ) < 2 ^ 149 := by positivity
  have hQ : (0 : ℚ) ≤ (num : ℚ) / den := by positivity
  have habs : |(if neg then -1 else 1) * ((num : ℚ) / den) / 2 ^ 149|
      = (num : ℚ) / den / 2 ^ 149 := by
    rw [abs_div, abs_mul, abs_of_nonneg hQ, abs_of_pos h149]
    cases neg <;> simp
  have hedge : (2 : ℚ) ^ 128 - 2 ^ 103 ≤ (num : ℚ) / den / 2 ^ 149
      ↔ ¬ num < (2 ^ 25 - 1) * 2 ^ 252 * den := by
    rw [le_div_iff₀ h149, le_div_iff₀ hden, not_lt, ← Nat.cast_le (α := ℚ)]
    push_cast
    norm_num
  have hfin : (num : ℚ) / den / 2 ^ 149 < 2 ^ 128 - 2 ^ 103
      ↔ num < (2 ^ 25 - 1) * 2 ^ 252 * den := by
    rw [← not_le, hedge, not_not]
  -- distances among numbers are distances in units
  have dist : ∀ (b : Bool) (u : ℕ),
      |(if b then -1 else 1) * (u : ℚ) / 2 ^ 149
          - (if neg then -1 else 1) * ((num : ℚ) / den) / 2 ^ 149|
        = ((if b = neg then |(u : ℤ) * den - num| else (u : ℤ) * den + num : ℤ) : ℚ)
          / (den * 2 ^ 149) := by
    intro b u
    have hpos : (0 : ℚ) < den * 2 ^ 149 := by positivity
    have hsum : (0 : ℚ) ≤ (u : ℚ) * den + num := by positivity
    have same : (u : ℚ) / 2 ^ 149 - (num : ℚ) / den / 2 ^ 149
        = ((u : ℚ) * den - num) / (den * 2 ^ 149) := by field_simp
    have other : (u : ℚ) / 2 ^ 149 + (num : ℚ) / den / 2 ^ 149
        = ((u : ℚ) * den + num) / (den * 2 ^ 149) := by field_simp
    have habs_same : |(u : ℚ) / 2 ^ 149 - (num : ℚ) / den / 2 ^ 149|
        = |(u : ℚ) * den - num| / (den * 2 ^ 149) := by rw [same, abs_div, abs_of_pos hpos]
    have habs_other : |(u : ℚ) / 2 ^ 149 + (num : ℚ) / den / 2 ^ 149|
        = ((u : ℚ) * den + num) / (den * 2 ^ 149) := by
      rw [other, abs_div, abs_of_pos hpos, abs_of_nonneg hsum]
    cases b <;> cases neg
    · simpa using habs_same
    · have e : (1 : ℚ) * u / 2 ^ 149 - -1 * ((num : ℚ) / den) / 2 ^ 149
          = (u : ℚ) / 2 ^ 149 + (num : ℚ) / den / 2 ^ 149 := by ring
      simp only [if_true, Bool.false_eq_true, if_false]
      rw [e, habs_other]
      push_cast; rfl
    · have e : (-1 : ℚ) * u / 2 ^ 149 - 1 * ((num : ℚ) / den) / 2 ^ 149
          = -((u : ℚ) / 2 ^ 149 + (num : ℚ) / den / 2 ^ 149) := by ring
      simp only [if_true, Bool.false_eq_true, Bool.true_eq_false, if_false]
      rw [e, abs_neg, habs_other]
      push_cast; rfl
    · have e : (-1 : ℚ) * u / 2 ^ 149 - -1 * ((num : ℚ) / den) / 2 ^ 149
          = -((u : ℚ) / 2 ^ 149 - (num : ℚ) / den / 2 ^ 149) := by ring
      simp only [if_true]
      rw [e, abs_neg, habs_same]
      push_cast; rfl
  have order : ∀ {i j : ℤ}, (i : ℚ) / (den * 2 ^ 149) ≤ j / (den * 2 ^ 149) ↔ i ≤ j := by
    intro i j
    rw [div_le_div_iff_of_pos_right (by positivity), Int.cast_le]
  have order_eq : ∀ {i j : ℤ}, (i : ℚ) / (den * 2 ^ 149) = j / (den * 2 ^ 149) ↔ i = j := by
    intro i j
    rw [div_left_inj' (by positivity), Int.cast_inj]
  have triangle : ∀ u : ℕ, |((u : ℤ) * den - num : ℤ)| ≤ (u * den + num : ℤ) := by
    intro u
    have : (0 : ℤ) ≤ u * den := by positivity
    rw [abs_le]; omega
  refine ⟨fun h => ?_, fun h => ?_, fun h y _ => ?_, fun h y _ he hne => ?_, fun h => ?_,
    fun h => ?_⟩
  · rw [habs, hedge, ← roundedMag_finite_iff num den hd] at h
    have hm : roundedMag num den = 0x7F800000 := Nat.min_eq_left (Nat.le_of_not_lt h)
    rw [f32Exponent_eq, f32Fraction_eq, hmag, hm]
    exact ⟨rfl, rfl⟩
  · rw [habs, hfin] at h
    have hm := roundedMag_units num den hd ((roundedMag_finite_iff num den hd).mpr h)
    have := (roundedMag_finite_iff num den hd).mpr h
    rw [ne_eq, exponent_eq_255, hmag, hm.1]
    omega
  · rw [habs, hfin] at h
    rw [f32Value_signed, f32Value_signed, hmag, hsign, dist, dist, order, if_pos rfl]
    have hn := (roundedMag_nearest num den (magOf y) hd h).1
    split
    · exact hn
    · exact hn.trans (triangle _)
  · rw [habs, hfin] at h
    rw [f32Value_signed, f32Value_signed, hmag, hsign, dist, dist, order_eq, if_pos rfl] at he
    have hnear := (roundedMag_nearest num den (magOf y) hd h)
    have heven : roundedMag num den % 2 = 0 := by
      split at he
      · rename_i hb
        refine hnear.2 he fun hu => hne ?_
        rw [f32Value_signed, f32Value_signed, hmag, hsign, hb, hu]
      · rename_i hb
        have htri := triangle (unitsOfMag (magOf y))
        refine hnear.2 (le_antisymm (by omega) hnear.1) fun hu => ?_
        -- y is as near as r, of r's units and the other sign, so both are zero
        rw [hu] at he htri
        have h0 : (unitsOfMag (roundedMag num den) : ℤ) * den = 0 ∨ (num : ℤ) = 0 := by
          have : (0 : ℤ) ≤ unitsOfMag (roundedMag num den) * den := by positivity
          rcases abs_cases ((unitsOfMag (roundedMag num den) : ℤ) * den - num) with ⟨h', -⟩ | ⟨h', -⟩
            <;> rw [h'] at he <;> omega
        have hz : unitsOfMag (roundedMag num den) = 0 := by
          have hcase : (unitsOfMag (roundedMag num den) : ℤ) * den = 0 := by
            rcases h0 with h0 | h0
            · exact h0
            · have hz := (roundedMag_nearest num den 0 hd h).1
              rw [h0] at hz
              have e0 : unitsOfMag 0 = 0 := rfl
              rw [e0] at hz
              have hpos : (0 : ℤ) ≤ unitsOfMag (roundedMag num den) * den := by positivity
              have hle : (unitsOfMag (roundedMag num den) : ℤ) * den ≤ 0 := by simpa using hz
              exact le_antisymm hle hpos
          have : (den : ℤ) ≠ 0 := by exact_mod_cast hd.ne'
          exact_mod_cast (mul_eq_zero.mp hcase).resolve_right this
        apply hne
        rw [f32Value_signed, f32Value_signed, hmag, hsign, hu, hz]
        simp
    rw [BitVec.getLsbD, Nat.testBit_zero]
    have : (ofSignMag neg (roundedMag num den)).toNat % 2 = roundedMag num den % 2 := by
      have := hmag
      rw [magOf] at this
      omega
    simp [this, heven]
  · rw [← signOf_eq, hsign]
    cases neg with
    | true => rfl
    | false => exact absurd h (not_lt.mpr (by simp; positivity))
  · rw [← signOf_eq, hsign]
    cases neg with
    | false => rfl
    | true =>
      refine absurd h (not_lt.mpr ?_)
      have : (0 : ℚ) ≤ (num : ℚ) / den / 2 ^ 149 := by positivity
      simp only [if_true, neg_one_mul, neg_div]
      linarith

end Sys2Proof.Machine
end

