-- ==== Sys2Proof/Laws/PerInstr.lean ====
section
/-! SUPPORT. Statements about each command as a piece of the command set, one lemma per
constructor. -/

namespace Sys2Proof.Laws

/-- The word of a well-formed command matches the table row of its own mnemonic (30_encoding.md
R83). -/
def OpcodeRowMatches.Statement (i : Instr) : Prop :=
  i.wellFormed = true →
    ∃ r ∈ opcodeTable, r.mnemonic = i.mnemonic ∧ r.matchesWord (encode i) = true

/-- A word with RSV = 0 keeps nothing of K under the mask of an indexed row. -/
theorem indexed_word_masked (k : BitVec 16) (op : BitVec 8) :
    ((0 : BitVec 8) ++ k ++ op) &&& (0xFF0000FF : Word) = op.setWidth 32 := by
  apply BitVec.eq_of_getLsbD_eq
  intro n hn
  simp only [BitVec.getLsbD_and, BitVec.getLsbD_append, BitVec.getLsbD_setWidth]
  have hmask : ∀ m < 32, (0xFF0000FF : Word).getLsbD m
      = (decide (m < 8) || decide (24 ≤ m)) := by decide
  rw [hmask n hn]
  by_cases h8 : n < 8
  · simp [h8]
    omega
  · by_cases h24 : 24 ≤ n
    · simp [h8, show ¬ n - 8 < 16 by omega, BitVec.getLsbD_of_ge op n (by omega)]
    · simp [h8, h24, BitVec.getLsbD_of_ge op n (by omega)]

/-- A non-indexed command's word is its row's pattern. -/
theorem OpcodeRowMatches.of_plain (i : Instr) (r : OpcodeRow) (hr : r ∈ opcodeTable)
    (hm : r.mnemonic = i.mnemonic) (he : r.matchesWord (encode i) = true) :
    OpcodeRowMatches.Statement i := fun _ => ⟨r, hr, hm, he⟩

/-- An indexed command's word matches its row whatever the index. -/
theorem OpcodeRowMatches.of_indexed (i : Instr) (r : OpcodeRow) (hr : r ∈ opcodeTable)
    (hm : r.mnemonic = i.mnemonic) (hmask : r.mask = 0xFF0000FF)
    (hp : i.opcode.setWidth 32 = r.pattern) : OpcodeRowMatches.Statement i :=
  fun _ => ⟨r, hr, hm, by
    simp only [OpcodeRow.matchesWord, encode, hmask, beq_iff_eq]
    rw [indexed_word_masked, hp]⟩

theorem OpcodeRowMatches.nop : OpcodeRowMatches.Statement .nop :=
  OpcodeRowMatches.of_plain _ ⟨"NOP", 0x00000000, 0xFFFFFFFF⟩ (by decide) rfl (by decide)

theorem OpcodeRowMatches.encTile : OpcodeRowMatches.Statement .encTile :=
  OpcodeRowMatches.of_plain _ ⟨"ENC_TILE", 0x00000001, 0xFFFFFFFF⟩ (by decide) rfl (by decide)

theorem OpcodeRowMatches.decTile : OpcodeRowMatches.Statement .decTile :=
  OpcodeRowMatches.of_plain _ ⟨"DEC_TILE", 0x00000002, 0xFFFFFFFF⟩ (by decide) rfl (by decide)

theorem OpcodeRowMatches.vecLoad (k : Nat) : OpcodeRowMatches.Statement (.vecLoad k) :=
  OpcodeRowMatches.of_indexed _ ⟨"VEC_LOAD", 0x00000010, 0xFF0000FF⟩ (by decide) rfl rfl rfl

theorem OpcodeRowMatches.vecStore (k : Nat) : OpcodeRowMatches.Statement (.vecStore k) :=
  OpcodeRowMatches.of_indexed _ ⟨"VEC_STORE", 0x00000011, 0xFF0000FF⟩ (by decide) rfl rfl rfl

theorem OpcodeRowMatches.projFwd : OpcodeRowMatches.Statement .projFwd :=
  OpcodeRowMatches.of_plain _ ⟨"PROJ_FWD", 0x00000020, 0xFFFFFFFF⟩ (by decide) rfl (by decide)

theorem OpcodeRowMatches.projInv : OpcodeRowMatches.Statement .projInv :=
  OpcodeRowMatches.of_plain _ ⟨"PROJ_INV", 0x00000021, 0xFFFFFFFF⟩ (by decide) rfl (by decide)

theorem OpcodeRowMatches.rangeClr : OpcodeRowMatches.Statement .rangeClr :=
  OpcodeRowMatches.of_plain _ ⟨"RANGE_CLR", 0x00000030, 0xFFFFFFFF⟩ (by decide) rfl (by decide)

theorem OpcodeRowMatches.rangeAcc : OpcodeRowMatches.Statement .rangeAcc :=
  OpcodeRowMatches.of_plain _ ⟨"RANGE_ACC", 0x00000031, 0xFFFFFFFF⟩ (by decide) rfl (by decide)

theorem OpcodeRowMatches.quant : OpcodeRowMatches.Statement .quant :=
  OpcodeRowMatches.of_plain _ ⟨"QUANT", 0x00000040, 0xFFFFFFFF⟩ (by decide) rfl (by decide)

theorem OpcodeRowMatches.dequant : OpcodeRowMatches.Statement .dequant :=
  OpcodeRowMatches.of_plain _ ⟨"DEQUANT", 0x00000041, 0xFFFFFFFF⟩ (by decide) rfl (by decide)

theorem OpcodeRowMatches.hdrStore : OpcodeRowMatches.Statement .hdrStore :=
  OpcodeRowMatches.of_plain _ ⟨"HDR_STORE", 0x00000050, 0xFFFFFFFF⟩ (by decide) rfl (by decide)

theorem OpcodeRowMatches.hdrLoad : OpcodeRowMatches.Statement .hdrLoad :=
  OpcodeRowMatches.of_plain _ ⟨"HDR_LOAD", 0x00000051, 0xFFFFFFFF⟩ (by decide) rfl (by decide)

theorem OpcodeRowMatches.recStore (k : Nat) : OpcodeRowMatches.Statement (.recStore k) :=
  OpcodeRowMatches.of_indexed _ ⟨"REC_STORE", 0x00000052, 0xFF0000FF⟩ (by decide) rfl rfl rfl

theorem OpcodeRowMatches.recLoad (k : Nat) : OpcodeRowMatches.Statement (.recLoad k) :=
  OpcodeRowMatches.of_indexed _ ⟨"REC_LOAD", 0x00000053, 0xFF0000FF⟩ (by decide) rfl rfl rfl

end Sys2Proof.Laws
end

