-- ==== Sys2Proof/Laws/Platform.lean ====
section
/-! SUPPORT. The platform's parameters: every predicate ADMIT is given by some list of regions, and the
configured build is one that 00_scope.md R9 allows. -/

namespace Sys2Proof.Machine

/-- One region for each address gives any answers at all. -/
theorem answerOf_points (f : Dir → Nat → Answer) (l : List Nat) (d : Dir) (a : Nat) (h : a ∈ l) :
    answerOf (l.map fun x => ⟨x, x + 1, f .read x, f .write x⟩) d a = f d a := by
  induction l with
  | nil => cases h
  | cons x l ih =>
    by_cases hx : x = a
    · subst hx; cases d <;> simp [answerOf]
    · have : ¬ (x ≤ a ∧ a < x + 1) := by omega
      simp only [List.map_cons, answerOf, if_neg this]
      exact ih (by simpa [Ne.symm hx] using h)

/-- Every platform predicate on the 2^32 byte addresses is some list of regions (20_memory.md R61). -/
theorem every_admit_is_a_region_list (f : Dir → Nat → Answer) :
    ∃ rs : List Region, ∀ d a, a < 2 ^ 32 → answerOf rs d a = f d a :=
  ⟨_, fun d a h => answerOf_points f (List.range (2 ^ 32)) d a (List.mem_range.2 h)⟩

/-- The pattern of a finite value is finite (00_scope.md R12). -/
theorem isFinite_bits (x : FiniteF32) : isFinite x.bits = true := by
  have e : x.bits.toNat % 2 ^ 31 = x.exponent.val * 2 ^ 23 + x.fraction.toNat := by
    have h1 := x.exponent.isLt
    have h2 := x.fraction.isLt
    simp only [FiniteF32.bits, BitVec.toNat_append, BitVec.toNat_ofNat, BitVec.toNat_ofBool,
      ← Nat.shiftLeft_add_eq_or_of_lt h2]
    rw [← Nat.shiftLeft_add_eq_or_of_lt (show x.exponent.val % 2 ^ 8 < 2 ^ 8 by omega)]
    simp only [Nat.shiftLeft_eq]
    omega
  have h1 := x.exponent.isLt
  have h2 := x.fraction.isLt
  simp only [isFinite, magOf, e, decide_eq_true_eq]
  omega

/-- The configured build is one 00_scope.md R9 allows. -/
theorem configured_wellFormed : Build.configured.WellFormed := by
  refine ⟨fun j => ?_, fun i j => ?_, ?_, ?_, ?_⟩
  · simp [Build.configured, isFinite_bits]
  · simp [Build.configured, isFinite_bits]
  · simp [Build.configured]
  · have := Config.maxBlocksPred.isLt
    simp only [Build.configured]; omega
  · simp only [Build.configured, BitVec.toNat_append]
    simp [Nat.shiftLeft_eq]

end Sys2Proof.Machine
end

