-- ==== Sys2Proof/Laws/Step.lean ====
section
/-! SUPPORT. What a command, a host action and a step can do: the inversion lemmas that later proofs
cite instead of unfolding the machine. -/

namespace Sys2Proof.Machine

/-! ### Commands -/

/-- A whole command is its start run to the end (10_state.md R48). -/
theorem exec_eq (i : Instr) (s : State) : exec i s = .next (finish (start i s)) := by
  cases i <;> rfl

/-- The start of a command is its checks of 30_encoding.md R90 before its body. -/
theorem start_eq (i : Instr) (s : State) :
    ∃ sizeOk : Bool, (sizeOk = true ↔ i.SizeOk s)
      ∧ start i s = startWith (failedCheck s i.needsCfg i.blockIndex sizeOk) (i.body s) s := by
  cases i with
  | encTile => exact ⟨s.encSizeOk, decide_eq_true_iff, rfl⟩
  | decTile => exact ⟨s.decSizeOk, decide_eq_true_iff, rfl⟩
  | hdrStore => exact ⟨s.hdrSizeOk, by simp [State.hdrSizeOk, Instr.SizeOk], rfl⟩
  | hdrLoad => exact ⟨s.hdrSizeOk, by simp [State.hdrSizeOk, Instr.SizeOk], rfl⟩
  | recStore k => exact ⟨s.recSizeOk k, by simp [State.recSizeOk, Instr.SizeOk], rfl⟩
  | recLoad k => exact ⟨s.recSizeOk k, by simp [State.recSizeOk, Instr.SizeOk], rfl⟩
  | nop => exact ⟨true, by simp [Instr.SizeOk], rfl⟩
  | vecLoad k => exact ⟨true, by simp [Instr.SizeOk], rfl⟩
  | vecStore k => exact ⟨true, by simp [Instr.SizeOk], rfl⟩
  | projFwd => exact ⟨true, by simp [Instr.SizeOk], rfl⟩
  | projInv => exact ⟨true, by simp [Instr.SizeOk], rfl⟩
  | rangeClr => exact ⟨true, by simp [Instr.SizeOk], rfl⟩
  | rangeAcc => exact ⟨true, by simp [Instr.SizeOk], rfl⟩
  | quant => exact ⟨true, by simp [Instr.SizeOk], rfl⟩
  | dequant => exact ⟨true, by simp [Instr.SizeOk], rfl⟩

/-- `geometry_valid()` said in the registers (30_encoding.md R89). -/
theorem geometryValid_iff (s : State) :
    s.geometryValid = true ↔
      1 ≤ s.tileBw.toNat ∧ 1 ≤ s.tileBh.toNat
        ∧ s.tileBw.toNat * s.tileBh.toNat ≤ s.build.maxBlocks :=
  decide_eq_true_iff

/-- With the checks passed and every address below 2^32, a command begins with its body in flight
(30_encoding.md R88). -/
theorem start_of_checked (i : Instr) (s : State) (hc : i.CfgOk s) (ha : i.ArgOk s)
    (hz : i.SizeOk s) (hsp : BodyInSpace (i.body s)) :
    start i s = { s with inflight := some (i.body s), rbuf := [] } := by
  obtain ⟨b, hb, he⟩ := start_eq i s
  rw [he, failedCheck_none s _ _ b (fun h => (geometryValid_iff s).mpr (hc h))
    (fun k hk => ha k hk) (hb.mpr hz)]
  exact startWith_inSpace _ s hsp

/-- A command whose checks pass, whose addresses are below 2^32 and whose accesses complete has the
effects of its body and completes with OK (30_encoding.md R88, R91). -/
theorem exec_of_checked (i : Instr) (s : State) (hc : i.CfgOk s) (ha : i.ArgOk s)
    (hz : i.SizeOk s) (hsp : BodyInSpace (i.body s)) (hans : BodyAnswered s (i.body s)) :
    exec i s = .next (complete .ok
      (effects (i.body s) { s with inflight := some (i.body s), rbuf := [] })) := by
  rw [exec_eq, start_of_checked i s hc ha hz hsp, finish]
  exact congrArg _ (runOps_of_answered _ _ hans)

/-! ### Host actions and steps -/

/-- Taking up a word: illegal, run whole, or begun (30_encoding.md R88). -/
theorem issue_cases (w : Word) (s : State) :
    (∃ e, decode w = .error e ∧ issue w s = .next (complete .opc (accept w s)))
      ∨ (∃ i, decode w = .ok i ∧ s.grain = .whole
          ∧ issue w s = .next (finish (start i (accept w s))))
      ∨ (∃ i, decode w = .ok i ∧ s.grain = .perAccess
          ∧ issue w s = .next (start i (accept w s))) := by
  unfold issue
  cases hd : decode w with
  | error e => exact .inl ⟨e, rfl, rfl⟩
  | ok i =>
    cases hg : s.grain with
    | whole => exact .inr (.inl ⟨i, rfl, rfl, exec_eq i _⟩)
    | perAccess => exact .inr (.inr ⟨i, rfl, rfl, rfl⟩)

/-- A host action with its offset known issues a word or acts on its own. -/
theorem landAct_cases (act : HostAct) (s : State) :
    (∃ w, issuedWord act s = some w ∧ landAct act s = issue w { s with reply := .ack })
      ∨ (issuedWord act s = none ∧ landAct act s = .next (hostAct act s)) := by
  unfold landAct
  cases h : issuedWord act s with
  | some w => exact .inl ⟨w, rfl, rfl⟩
  | none => exact .inr ⟨rfl, rfl⟩

/-- A host action lands as its resolved form does. -/
theorem land_eq (act : HostAct) (s : State) :
    land act s = landAct (HostAct.resolve s.build.mmioBase act) s := by
  cases act <;> rfl

/-- A word is issued only to an idle CORE that is out of reset (30_encoding.md R87). -/
theorem issuedWord_some (act : HostAct) (s : State) (w : Word) (h : issuedWord act s = some w) :
    act = .regWrite cmdOffset 4 w ∧ s.resetPin = false ∧ s.inflight = none := by
  cases act with
  | regWrite off width v =>
    simp only [issuedWord] at h
    split at h
    · rename_i hc
      obtain ⟨hp, ho, hr, hb⟩ := hc
      have hw : width = 4 := by
        simp [portTakes] at hp
        exact hp.1
      simp only [Option.some.injEq] at h
      subst h ho hw
      exact ⟨rfl, hr, by simpa [State.busy] using hb⟩
    · cases h
  | regRead off width => cases h
  | busWrite addr width v => cases h
  | busRead addr width => cases h
  | memWrite a v => cases h
  | memRead a => cases h
  | assertReset => cases h
  | releaseReset => cases h

/-- What a host action can come to: an illegal word, a command run whole, a command begun, or an
action of the host alone. -/
theorem land_cases (act : HostAct) (s : State) :
    (∃ w e, issuedWord (HostAct.resolve s.build.mmioBase act) s = some w ∧ decode w = .error e
        ∧ land act s = .next (complete .opc (accept w { s with reply := .ack })))
      ∨ (∃ w i, issuedWord (HostAct.resolve s.build.mmioBase act) s = some w ∧ decode w = .ok i
          ∧ land act s = .next (finish (start i (accept w { s with reply := .ack }))))
      ∨ (∃ w i, issuedWord (HostAct.resolve s.build.mmioBase act) s = some w ∧ decode w = .ok i
          ∧ land act s = .next (start i (accept w { s with reply := .ack })))
      ∨ (issuedWord (HostAct.resolve s.build.mmioBase act) s = none
          ∧ land act s = .next (hostAct (HostAct.resolve s.build.mmioBase act) s)) := by
  rw [land_eq]
  rcases landAct_cases (HostAct.resolve s.build.mmioBase act) s with ⟨w, hw, he⟩ | ⟨hn, he⟩
  · rw [he]
    rcases issue_cases w { s with reply := .ack } with ⟨e, hd, hi⟩ | ⟨i, hd, _, hi⟩
      | ⟨i, hd, _, hi⟩
    · exact .inl ⟨w, e, hw, hd, hi⟩
    · exact .inr (.inl ⟨w, i, hw, hd, hi⟩)
    · exact .inr (.inr (.inl ⟨w, i, hw, hd, hi⟩))
  · exact .inr (.inr (.inr ⟨hn, he⟩))

/-- Taking up a word with its body in flight: an illegal word completes, a command is begun
(30_encoding.md R88). -/
theorem takeUp_cases (w : Word) (s : State) :
    (∃ e, decode w = .error e ∧ takeUp w s = complete .opc (accept w s))
      ∨ (∃ i, decode w = .ok i ∧ takeUp w s = start i (accept w s)) := by
  unfold takeUp
  cases hd : decode w with
  | error e => exact .inl ⟨e, rfl, rfl⟩
  | ok i => exact .inr ⟨i, rfl, rfl⟩

/-- A host that acts while the command it issues is in flight: the word not accepted and the action
after it; a part of the command, the action, and the rest; or the action before the first piece
(70_reset_and_hazards.md R242). -/
theorem landDuring_cases (w : Word) (act : HostAct) (s : State) :
    (issuedWord (.regWrite cmdOffset 4 w) s = none
        ∧ landDuring w act s = land act (hostAct (.regWrite cmdOffset 4 w) s))
      ∨ (s.resetPin = false ∧ s.inflight = none ∧ s.grain = .whole
          ∧ landDuring w act s
            = thenFinish (land act (performPart (takeUp w { s with reply := .ack }))))
      ∨ (s.resetPin = false ∧ s.inflight = none ∧ s.grain = .perAccess
          ∧ landDuring w act s = land act (takeUp w { s with reply := .ack })) := by
  unfold landDuring
  cases h : issuedWord (.regWrite cmdOffset 4 w) s with
  | none => exact .inl ⟨rfl, rfl⟩
  | some v =>
    obtain ⟨he, hr, hi⟩ := issuedWord_some _ s v h
    obtain rfl : w = v := by injection he
    cases hg : s.grain with
    | whole => exact .inr (.inl ⟨hr, hi, rfl, rfl⟩)
    | perAccess => exact .inr (.inr ⟨hr, hi, rfl, rfl⟩)

/-- What a step can do: a piece of the engine's work, a host action, both at once, a round of a poll,
or a host that acts while the command it issues is in flight. -/
theorem step_cases (s : State) :
    (s.events = [] ∧ step s = .next (engineTick s))
      ∨ (∃ rest, s.events = .core :: rest
          ∧ step s = .next (engineTick { s with events := rest }))
      ∨ (∃ act rest, s.events = .host act :: rest
          ∧ step s = land act { s with events := rest })
      ∨ (∃ act rest, s.events = .both act :: rest
          ∧ step s = thenTick (land act { s with events := rest }))
      ∨ (∃ off mask value rest, s.events = .poll off mask value :: rest
          ∧ step s = .next (pollRound off mask value s rest))
      ∨ (∃ w act rest, s.events = .during w act :: rest
          ∧ step s = landDuring w act { s with events := rest }) := by
  unfold step nextEvent
  cases h : s.events with
  | nil => exact .inl ⟨rfl, rfl⟩
  | cons e rest =>
    cases e with
    | core => exact .inr (.inl ⟨rest, rfl, rfl⟩)
    | host act => exact .inr (.inr (.inl ⟨act, rest, rfl, rfl⟩))
    | both act => exact .inr (.inr (.inr (.inl ⟨act, rest, rfl, rfl⟩)))
    | poll off mask value =>
      exact .inr (.inr (.inr (.inr (.inl ⟨off, mask, value, rest, rfl, rfl⟩))))
    | during w act => exact .inr (.inr (.inr (.inr (.inr ⟨w, act, rest, rfl, rfl⟩))))

/-- The word `withCommand` places is issued by the very next step (30_encoding.md R87). -/
theorem step_withCommand (w : Word) (s : State) :
    step (withCommand w s)
      = issue w { s with inflight := none, rbuf := [], resetPin := false, grain := .whole,
                         reply := .ack } := rfl

/-! ### Registers -/

/-- A register read draws at most one unspecified value, and changes nothing else (20_memory.md
R71). -/
theorem readReg_cases (r : Reg) (s : State) :
    readReg r s = (regValue r s, s)
      ∨ readReg r s = (Config.unspecified s.draws, { s with draws := s.draws + 1 }) := by
  unfold readReg
  split
  · exact .inr rfl
  · exact .inl rfl

/-- What a register write can do: be ignored in reset, be ignored with WIGN set, or be stored
(10_state.md R35). -/
theorem writeReg_cases (r : Reg) (w : Word) (s : State) :
    (s.resetPin = true ∧ writeReg r w s = s)
      ∨ (s.resetPin = false ∧ s.inflight ≠ none ∧ r.isFrozen = true
          ∧ writeReg r w s = { s with wign := true })
      ∨ (s.resetPin = false ∧ (s.inflight = none ∨ r.isFrozen = false)
          ∧ writeReg r w s = storeReg r w s) := by
  unfold writeReg
  cases hr : s.resetPin with
  | true => exact .inl ⟨rfl, rfl⟩
  | false =>
    cases hf : r.isFrozen with
    | false => exact .inr (.inr ⟨rfl, .inr rfl, by simp⟩)
    | true =>
      cases hi : s.inflight with
      | none => exact .inr (.inr ⟨rfl, .inl rfl, by simp [State.busy, hi]⟩)
      | some ops =>
        exact .inr (.inl ⟨rfl, by simp, rfl, by simp [State.busy, hi]⟩)

end Sys2Proof.Machine
end

