-- ==== Sys2Proof/Machine/HostProgram.lean ====
section
/-! DEFINITION. The host-program notation of 30_encoding.md R93 as lists of events: a host program is
the concatenation of its forms, placed in State.events. -/

namespace Sys2Proof.Machine

/-- `W32 off, v` (30_encoding.md R93). -/
def w32 (off : BitVec 14) (w : Word) : List Event := [.host (.regWrite off 4 w)]

/-- `R32 off -> x`: the value is in State.reply (30_encoding.md R93). -/
def r32 (off : BitVec 14) : List Event := [.host (.regRead off 4)]

/-- `WF32 off, r` for the rational r = num / den, negated when `neg` (30_encoding.md R93). -/
def wf32 (off : BitVec 14) (neg : Bool) (num den : Nat) : List Event :=
  w32 off (f32OfRatio neg num den)

/-- `ISSUE cmd` (30_encoding.md R93). -/
def issueCmd (i : Instr) : List Event := w32 cmdOffset (encode i)

/-- `POLL off, mask, v` (30_encoding.md R93). -/
def pollFor (off : BitVec 14) (mask value : Word) : List Event := [.poll off mask value]

/-- `WAIT`: until DONE = 1 (30_encoding.md R93). -/
def waitDone : List Event := pollFor 0x014 2 2

/-- `CLRDONE` (30_encoding.md R93). -/
def clrDone : List Event := w32 0x014 2

/-- `MEMW a, [b0, b1, …]` (30_encoding.md R93). DESIGN CHOICE (log 14): the rule says only "from
address a upward"; after 0xFFFFFFFF the model goes on at address 0. -/
def memw (a : Word) : List Byte → List Event
  | [] => []
  | b :: bs => .host (.memWrite a b) :: memw (a + 1) bs

/-- `MEMR a, n -> [..]`: each byte is in State.reply in turn (30_encoding.md R93). DESIGN CHOICE
(log 14): after 0xFFFFFFFF the model goes on at address 0, as in `memw`. -/
def memr (a : Word) : Nat → List Event
  | 0 => []
  | n + 1 => .host (.memRead a) :: memr (a + 1) n

end Sys2Proof.Machine
end

