-- ==== Sys2Proof/Tests/Slice0.lean ====
section
/-! SUPPORT. The model's own tests: ill-formed commands refused, every command's word decoded, single
steps checked against the values of spec 95_test_vectors.md, and for every obligation with hypotheses
a concrete state and operands that meet them. -/

open Sys2Proof Sys2Proof.Machine

namespace Sys2Proof.Tests

-- One proof at a time: each `decide +kernel` would otherwise hold a thread of its own.
set_option Elab.async false

/-- A property of the next state of an outcome; false of a fault or a refusal. -/
def after (o : Host.Outcome State Fault Refusal) (p : State → Bool) : Bool :=
  match o with
  | .next t => p t
  | .fault _ => false
  | .refused _ => false

/-- The selector basis S1 of 95_test_vectors.md, MAX_BLOCKS = 300, and ADMIT true below 0x10000. -/
def buildS1 : Build where
  mean := Vector.replicate 192 0x3F000000
  basis := Vector.ofFn fun i => Vector.ofFn fun j => if i.val = j.val then f1 else f0
  maxBlocks := 300
  mmioBase := 0x40000000
  regions := [⟨0, 0x10000, .completes, .completes⟩]

/-- The reset state of that CORE. -/
def fresh : State := State.resetOn buildS1

/-- A tile of one block at 0x1000 with stride 24 and its packet at 0x2000, as program P3 sets up. -/
def small : State :=
  { fresh with
    tileBw := 1, tileBh := 1, pixBase := 0x1000, pixStride := 24, pktBase := 0x2000, pktBuflen := 68 }

/-- `small` on a platform that answers accesses below `lim` and gives `a` above. -/
def smallUpTo (lim : Nat) (a : Answer) : State :=
  { small with build := { buildS1 with
      regions := [⟨0, lim, .completes, .completes⟩, ⟨lim, 2 ^ 32, a, a⟩] } }

/-- A state whose next event is a host write. -/
def writing (off : BitVec 14) (w : Word) (s : State) : State :=
  { s with events := w32 off w }

/-- A state with HDR_STORE in flight. -/
def busyState : State := { startHdrStore small with grain := .perAccess }

/-! ### Well-formedness -/

theorem test_wf_vecLoad_refused : (Instr.vecLoad 65536).wellFormed = false := by decide
theorem test_wf_vecStore_refused : (Instr.vecStore 65536).wellFormed = false := by decide
theorem test_wf_recStore_refused : (Instr.recStore 65536).wellFormed = false := by decide
theorem test_wf_recLoad_refused : (Instr.recLoad 99999).wellFormed = false := by decide
theorem test_wf_vecLoad_largest : (Instr.vecLoad 65535).wellFormed = true := by decide

/-! ### Decoding: words written out as RSV, K, OP from 30_encoding.md R80, R82, R92, R94 -/

theorem test_decode_nop : decode (0x00#8 ++ 0x0000#16 ++ 0x00#8) = .ok .nop := by decide
theorem test_decode_encTile : decode (0x00#8 ++ 0x0000#16 ++ 0x01#8) = .ok .encTile := by decide
theorem test_decode_decTile : decode (0x00#8 ++ 0x0000#16 ++ 0x02#8) = .ok .decTile := by decide
theorem test_decode_vecLoad : decode (0x00#8 ++ 0x0005#16 ++ 0x10#8) = .ok (.vecLoad 5) := by decide
theorem test_decode_vecStore : decode (0x00#8 ++ 0xFFFF#16 ++ 0x11#8) = .ok (.vecStore 65535) := by
  decide
theorem test_decode_projFwd : decode (0x00#8 ++ 0x0000#16 ++ 0x20#8) = .ok .projFwd := by decide
theorem test_decode_projInv : decode (0x00#8 ++ 0x0000#16 ++ 0x21#8) = .ok .projInv := by decide
theorem test_decode_rangeClr : decode (0x00#8 ++ 0x0000#16 ++ 0x30#8) = .ok .rangeClr := by decide
theorem test_decode_rangeAcc : decode (0x00#8 ++ 0x0000#16 ++ 0x31#8) = .ok .rangeAcc := by decide
theorem test_decode_quant : decode (0x00#8 ++ 0x0000#16 ++ 0x40#8) = .ok .quant := by decide
theorem test_decode_dequant : decode (0x00#8 ++ 0x0000#16 ++ 0x41#8) = .ok .dequant := by decide
theorem test_decode_hdrStore : decode (0x00#8 ++ 0x0000#16 ++ 0x50#8) = .ok .hdrStore := by decide
theorem test_decode_hdrLoad : decode (0x00#8 ++ 0x0000#16 ++ 0x51#8) = .ok .hdrLoad := by decide
theorem test_decode_recStore : decode (0x00#8 ++ 0x012B#16 ++ 0x52#8) = .ok (.recStore 299) := by
  decide
theorem test_decode_recLoad : decode (0x00#8 ++ 0x0007#16 ++ 0x53#8) = .ok (.recLoad 7) := by decide
theorem test_decode_reserved_op : decode 0x00000054 = .error .reservedOp := by decide
theorem test_decode_reserved_bits : decode 0x80000010 = .error .reservedBits := by decide
theorem test_decode_stray_index : decode 0x00800000 = .error .strayIndex := by decide

/-- The words of R92's and R94's examples, encoded. -/
theorem test_encode_examples :
    [Instr.encTile, .vecLoad 5, .recStore 299, .vecLoad 0x12C, .recLoad 7].map encode
      = [0x00000001#32, 0x00000510, 0x00012B52, 0x00012C10, 0x00000753] := by decide

/-- No word belongs to two rows of the opcode table: two rows differ in a bit both masks hold. -/
theorem test_rows_do_not_overlap :
    opcodeTable.Pairwise fun a b => (a.mask &&& b.mask) &&& (a.pattern ^^^ b.pattern) ≠ 0 := by
  decide

theorem test_table_word : decodeTableWord 32 0x12B52 = some (.recStore 299) := by decide

/-- R92's forms: hexadecimal operand; refused operand, missing operand, index too large. -/
theorem test_assemble :
    assemble "VEC_LOAD" (some ['0', 'x', '1', '2', 'C']) = some 0x00012C10
      ∧ assemble "QUANT" (some ['1']) = none ∧ assemble "REC_LOAD" none = none
      ∧ assemble "REC_LOAD" (some ['6', '5', '5', '3', '6']) = none := by decide +kernel

/-! ### Single steps, against 95_test_vectors.md -/

/-- The placed word runs as the next step (V7.6 on this build's reset geometry when MAX_BLOCKS allows
it; here only that a next state comes). -/
theorem test_step_runs_placed_word :
    after (step (State.reset.withFetchWord 32 0x12C10)) (fun _ => true) = true := by decide

/-- V6.1: NOP leaves STATUS = 0x00000002. -/
theorem test_nop_status :
    after (step (fresh.withFetchWord 32 0x0)) (fun t => t.statusWord == 2) = true := by
  decide +kernel

/-- V6.9: ENC_TILE with PKT_BUFLEN = 1263 on the reset geometry reports SIZE. -/
theorem test_encTile_size :
    after (exec .encTile { fresh with pktBuflen := 1263 }) (fun t => t.err == 4) = true := by
  decide +kernel

/-- R195: ENC_TILE refused at its first pixel read has cleared the range and written no byte. -/
theorem test_encTile_bus :
    after (exec .encTile (smallUpTo 0x1000 .refuses)) (fun t =>
      t.err == 6 && t.faultAddr == 0x1000 && t.rmin[3] == 0x7F800000 && t.rmax[3] == 0xFF800000
        && t.mem == []) = true := by decide +kernel

/-- V6.8: DEC_TILE with PKT_BUFLEN = 1265 on the reset geometry reports SIZE. -/
theorem test_decTile_size :
    after (exec .decTile { fresh with pktBuflen := 1265 }) (fun t => t.err == 4) = true := by
  decide +kernel

/-- R195: DEC_TILE refused at its first record byte has loaded the header. -/
theorem test_decTile_bus :
    after (exec .decTile { smallUpTo 0x2040 .refuses with
        mem := [(0x2002, 0x80), (0x2003, 0xBF), (0x203E, 0x80), (0x203F, 0x7F)] }) (fun t =>
      t.err == 6 && t.faultAddr == 0x2040 && t.rmin[0] == 0xBF800000 && t.rmax[7] == 0x7F800000
        && t.record == 0) = true := by decide +kernel

/-- V1.30: VEC_LOAD 0 with bytes 255, 0, 128 at 0x1000 gives V[0], V[64] and V[128]. -/
theorem test_vecLoad :
    after (exec (.vecLoad 0) { small with mem := [(0x1000, 255), (0x1002, 128)] }) (fun t =>
      t.v[0] == 0x3F800000 && t.v[64] == 0 && t.v[128] == 0x3F008081) = true := by decide +kernel

/-- V7.11: VEC_LOAD 0 with the block across the top of the address space reports ADDR. -/
theorem test_vecLoad_addr :
    after (exec (.vecLoad 0) { small with pixBase := 0xFFFFFFA1 }) (fun t =>
      t.statusWord == 0x502 && t.faultAddr == 1) = true := by decide +kernel

/-- V1.32's first two samples, a NaN and 0.5, on a platform that refuses the third write (R105): the
first writes 0 and sets NUMERR, the second 128. -/
theorem test_vecStore_nan :
    after (exec (.vecStore 0) { smallUpTo 0x1004 .refuses with
        mem := [(0x1000, 7)], v := (Vector.replicate 192 0x3F000000).set 0 0x7FC00000 }) (fun t =>
      t.mem == [(0x1003, 128)] && t.numerr && t.err == 6 && t.faultAddr == 0x1006) = true := by
  decide +kernel

/-- V7.4: with TILE_BW = 0 an indexed command reports CFG, not ARG. -/
theorem test_vecStore_cfg :
    after (exec (.vecStore 400) { fresh with tileBw := 0 }) (fun t => t.err == 2) = true := by
  decide +kernel

/-- V2.1, its first coefficient: with S1, V[0] = 1.0 gives C[0] = 0.5. -/
theorem test_projFwd :
    after (exec .projFwd { fresh with v := (Vector.replicate 192 0x3F000000).set 0 f1 })
      (fun t => t.c[0] == 0x3F000000) = true := by decide +kernel

/-- V2.2: PROJ_INV with S1, at V[7] = 0.75. -/
theorem test_projInv :
    after (exec .projInv { fresh with
        c := #v[0x3F000000, 0xBF000000, 0, 0, 0, 0, 0, 0x3E800000] })
      (fun t => t.v[7] == 0x3F400000) = true := by decide +kernel

/-- V3.1: RANGE_CLR. -/
theorem test_rangeClr :
    after (exec .rangeClr fresh) (fun t => t.rmin[7] == 0x7F800000 && t.rmax[0] == 0xFF800000)
      = true := by decide +kernel

/-- V3.2, its second step: C = (3, -5, 0, …) widens (1, -2). -/
theorem test_rangeAcc :
    after (exec .rangeAcc { fresh with
        c := #v[0x40400000, 0xC0A00000, 0, 0, 0, 0, 0, 0]
        rmin := #v[0x3F800000, 0xC0000000, 0, 0, 0, 0, 0, 0]
        rmax := #v[0x3F800000, 0xC0000000, 0, 0, 0, 0, 0, 0] }) (fun t =>
      t.rmin[0] == 0x3F800000 && t.rmax[0] == 0x40400000 && t.rmin[1] == 0xC0A00000
        && t.rmax[1] == 0xC0000000) = true := by decide +kernel

/-- V3.4: -0.0 does not replace +0.0. -/
theorem test_rangeAcc_signed_zero :
    after (exec .rangeAcc { fresh with c := Vector.replicate 8 0x80000000 }) (fun t =>
      t.rmin[0] == 0 && t.rmax[0] == 0) = true := by decide +kernel

/-- Program P1: the codes and the record of QUANT. -/
theorem test_quant :
    after (exec .quant { fresh with
        rmax := Vector.replicate 8 f1
        c := #v[0x3F000000, 0x3F800000, 0x3F000000, 0x40000000, 0xBF800000, 0x3F000000, 0x3E2AAAAB,
          0] }) (fun t =>
      t.q == ⟨128, 255, 8, 15, 0, 2, 1, 0⟩ && t.record == 0x188FFF80 && !t.numerr) = true := by
  decide +kernel

/-- V4.10: a NaN coefficient gives code 0 and NUMERR. -/
theorem test_quant_nan :
    after (exec .quant { fresh with
        rmax := Vector.replicate 8 f1, c := (Vector.replicate 8 0).set 1 0x7FC00000 }) (fun t =>
      t.q.q1 == 0 && t.numerr && t.err == 0) = true := by decide +kernel

/-- Program P2: the codes and three of the coefficients of DEQUANT. -/
theorem test_dequant :
    after (exec .dequant { fresh with
        rmin := Vector.replicate 8 0xBF800000, rmax := Vector.replicate 8 f1, record := 0x393CC805 })
      (fun t => t.q == ⟨5, 200, 3, 12, 1, 2, 3, 0⟩ && t.c[0] == 0xBF75F5F6 && t.c[3] == 0x3F19999A
        && t.c[5] == 0x3EAAAAAC) = true := by decide +kernel

/-- V5.1, V5.5: header bytes, a NaN's payload among them. -/
theorem test_hdrStore :
    after (exec .hdrStore { small with
        rmin := (Vector.replicate 8 0).set 0 0x7FC12345
        rmax := (Vector.replicate 8 f1).set 7 0x7F800000 }) (fun t =>
      t.mem.read 0x2000 == 0x45 && t.mem.read 0x2003 == 0x7F && t.mem.read 0x2022 == 0x80
        && t.mem.read 0x203F == 0x7F) = true := by decide +kernel

/-- V7.9: HDR_STORE across the top of the address space reports ADDR with FAULT_ADDR 0. -/
theorem test_hdrStore_addr :
    after (exec .hdrStore { fresh with pktBase := 0xFFFFFFE0, pktBuflen := 64 }) (fun t =>
      t.statusWord == 0x502 && t.faultAddr == 0 && t.mem == []) = true := by decide +kernel

/-- V5.2: the little-endian header value -1.0. -/
theorem test_hdrLoad :
    after (exec .hdrLoad { small with mem := [(0x2002, 0x80), (0x2003, 0xBF)] }) (fun t =>
      t.rmin[0] == 0xBF800000 && t.rmax[7] == 0) = true := by decide +kernel

/-- V7.12, with the edge at 0x8000: HDR_LOAD stopped by a refused read changes no register. -/
theorem test_hdrLoad_bus :
    after (exec .hdrLoad { smallUpTo 0x8000 .refuses with pktBase := 0x7FF0 }) (fun t =>
      t.statusWord == 0x602 && t.faultAddr == 0x8000 && t.rmin == Vector.replicate 8 0) = true := by
  decide +kernel

/-- V5.3: REC_STORE 0. -/
theorem test_recStore :
    after (exec (.recStore 0) { small with record := 0x393CC805 }) (fun t =>
      t.mem == [(0x2040, 0x05), (0x2041, 0xC8), (0x2042, 0x3C), (0x2043, 0x39)]) = true := by
  decide +kernel

/-- V5.7: REC_STORE 0 with PKT_BUFLEN = 67 reports SIZE. -/
theorem test_recStore_size :
    after (exec (.recStore 0) { small with pktBuflen := 67 }) (fun t => t.err == 4) = true := by
  decide +kernel

/-- V5.4: REC_LOAD 299. -/
theorem test_recLoad :
    after (exec (.recLoad 299) { fresh with
        pktBase := 0x2000
        mem := [(0x24EC, 0x01), (0x24ED, 0x02), (0x24EE, 0x34), (0x24EF, 0x79)] }) (fun t =>
      t.record == 0x79340201 && t.err == 0) = true := by decide +kernel

/-- V7.6, for a record: block 300 of 300 reports ARG. -/
theorem test_recLoad_arg :
    after (exec (.recLoad 300) fresh) (fun t => t.statusWord == 0x302) = true := by decide +kernel

/-- V7.14: STATUS 0x50E after a write of 2 reads 0x50C. -/
theorem test_status_write :
    after (step (writing 0x014 2
        { fresh with done := true, numerr := true, wign := true, err := 5 }))
      (fun t => t.statusWord == 0x50C) = true := by decide +kernel

/-- V7.16: a CMD write while BUSY is dropped and sets WIGN. -/
theorem test_cmd_write_while_busy :
    after (step (writing 0x018 0x40 busyState)) (fun t =>
      t.wign && t.busy && t.cmdLast == 0) = true := by decide +kernel

/-- V7.19: ID, VERSION, PARAM and PKT_LEN after reset, MAX_BLOCKS = 300. -/
theorem test_identification :
    [regAt 0x000, regAt 0x004, regAt 0x008, regAt 0x038].map (fun r => regValue r fresh)
      = [0x4E535443, 0x00070001, 0x0808012C, 0x4F0] := by decide +kernel

/-- V6.10: PKT_LEN of a 65535 × 65535 geometry wraps. -/
theorem test_pktLen_wraps :
    regValue .pktLen { fresh with tileBw := 0xFFFF, tileBh := 0xFFFF } = 0xFFF80044 := by
  decide +kernel

/-- V4's register vectors: a write of all ones to Q[2] reads back 0xF. -/
theorem test_q_write :
    regValue (.q 2) (writeReg (regAt 0x168) 0xFFFFFFFF fresh) = 0xF := by decide +kernel

/-- The bus address MMIO_BASE + 0x018 is CMD, and the address below the window is not the CORE's. -/
theorem test_window :
    windowOffset 0x40000000 0x40000018 = some 0x018
      ∧ windowOffset 0x40000000 0x3FFFFFFC = none := by decide

/-! ### Witnesses: a state and operands that meet the hypotheses of each obligation -/

/-- DecodeOfEncode, at the largest index. -/
theorem test_witness_DecodeOfEncode :
    (Instr.recLoad 65535).wellFormed = true ∧ Instr.encTile.wellFormed = true := by decide +kernel

/-- EncodeOfDecode, at the largest index. -/
theorem test_witness_EncodeOfDecode : decode 0x00FFFF10 = .ok (.vecLoad 65535) := by decide +kernel

/-- IllegalWordsCompleteWithOpc, one word for each of the three reasons. -/
theorem test_witness_IllegalWordsCompleteWithOpc :
    (writing 0x018 3 fresh).events = .host (.regWrite 0x018 4 3) :: []
      ∧ fresh.inflight = none ∧ fresh.resetPin = false
      ∧ decode 0x00000003 = .error .reservedOp ∧ decode 0x01000010 = .error .reservedBits
      ∧ decode 0x00000140 = .error .strayIndex := by decide +kernel

/-- AssemblerGivesWordsAndRefuses: both kinds of command, and indices on both sides of the bound. -/
theorem test_witness_AssemblerGivesWordsAndRefuses :
    Instr.quant.blockIndex = none ∧ (Instr.vecLoad 5).blockIndex = some 5
      ∧ indexOfText ['6', '5', '5', '3', '5'] = some 65535
      ∧ indexOfText ['0', 'x', '1', '0', '0', '0', '0'] = some 65536 := by decide +kernel

/-- StepRunsTheDecodedCommand. -/
theorem test_witness_StepRunsTheDecodedCommand :
    (writing 0x018 0x11 fresh).events = .host (.regWrite 0x018 4 0x11) :: []
      ∧ (writing 0x018 0x11 fresh).inflight = none ∧ (writing 0x018 0x11 fresh).resetPin = false
      ∧ (writing 0x018 0x11 fresh).grain = .whole ∧ decode 0x11 = .ok (.vecStore 0) := by decide +kernel

/-- AcceptanceAndBusyWritesOfCmd, first clause. -/
theorem test_witness_AcceptanceAndBusyWritesOfCmd :
    ∃ s : State, s.events = .host (.regWrite 0x018 4 0x50) :: [] ∧ s.inflight = none
      ∧ s.resetPin = false ∧ s.grain = .perAccess ∧ decode 0x50 = .ok .hdrStore
      ∧ Instr.CfgOk .hdrStore s ∧ Instr.ArgOk .hdrStore s ∧ Instr.SizeOk .hdrStore s
      ∧ BodyInSpace (Instr.body .hdrStore s) := by
  refine ⟨writing 0x018 0x50 { small with grain := .perAccess }, rfl, rfl, rfl, rfl, by decide +kernel,
    nofun, nofun, by unfold Instr.SizeOk; decide +kernel, ?_⟩
  unfold BodyInSpace
  decide +kernel

/-- AcceptanceAndBusyWritesOfCmd, second clause. -/
theorem test_witness_busy_cmd_write :
    (writing 0x018 0x40 busyState).events = .host (.regWrite 0x018 4 0x40) :: []
      ∧ (writing 0x018 0x40 busyState).busy = true
      ∧ (writing 0x018 0x40 busyState).resetPin = false := by decide +kernel

/-- PiecewiseRunEqualsWholeCommand: 5 pieces of REC_LOAD and one to complete. -/
theorem test_witness_PiecewiseRunEqualsWholeCommand :
    ((start (.recLoad 0) small).inflight.getD []).length + 1 ≤ 6 := by decide +kernel

/-- InvalidGeometryReportsCfg: no width, no height, one block too many. -/
theorem test_witness_InvalidGeometryReportsCfg :
    Instr.needsCfg .encTile = true
      ∧ [(0#16, 15#16), (20, 0), (301, 1)].all (fun g =>
        !decide (1 ≤ g.1.toNat ∧ 1 ≤ g.2.toNat ∧ g.1.toNat * g.2.toNat ≤ fresh.build.maxBlocks)) := by
  decide +kernel

/-- BlockIndexOutOfTileReportsArg, at k = n. -/
theorem test_witness_BlockIndexOutOfTileReportsArg :
    (Instr.vecLoad 300).blockIndex = some 300 ∧ Instr.CfgOk (.vecLoad 300) fresh
      ∧ fresh.tileBw.toNat * fresh.tileBh.toNat ≤ 300 :=
  ⟨rfl, fun _ => by decide +kernel, by decide +kernel⟩

/-- UnfitBufferLengthReportsSize, one byte short, and one byte long for DEC_TILE. -/
theorem test_witness_UnfitBufferLengthReportsSize :
    (Instr.CfgOk (.recStore 0) { small with pktBuflen := 67 }
        ∧ Instr.ArgOk (.recStore 0) { small with pktBuflen := 67 }
        ∧ ¬ Instr.SizeOk (.recStore 0) { small with pktBuflen := 67 })
      ∧ Instr.CfgOk .decTile { small with pktBuflen := 69 }
      ∧ Instr.ArgOk .decTile { small with pktBuflen := 69 }
      ∧ ¬ Instr.SizeOk .decTile { small with pktBuflen := 69 } := by
  refine ⟨⟨fun _ => by decide +kernel, ?_, by unfold Instr.SizeOk; decide +kernel⟩,
    fun _ => by decide +kernel, nofun, by unfold Instr.SizeOk; decide +kernel⟩
  rintro k ⟨⟩
  decide +kernel

/-- HighAddressReportsAddr: HDR_LOAD whose byte 63 is the first at 2^32. -/
theorem test_witness_HighAddressReportsAddr :
    Instr.CfgOk .hdrLoad { small with pktBase := 0xFFFFFFC1 }
      ∧ Instr.ArgOk .hdrLoad { small with pktBase := 0xFFFFFFC1 }
      ∧ Instr.SizeOk .hdrLoad { small with pktBase := 0xFFFFFFC1 }
      ∧ accessSeq (Instr.body .hdrLoad { small with pktBase := 0xFFFFFFC1 })
          = (List.range 63).map (fun b => (Dir.read, 0xFFFFFFC1 + b)) ++ [(Dir.read, 2 ^ 32)]
      ∧ ∀ p ∈ (List.range 63).map (fun b => (Dir.read, 0xFFFFFFC1 + b)), p.2 < 2 ^ 32 :=
  ⟨nofun, nofun, by unfold Instr.SizeOk; decide +kernel, by decide +kernel, by decide +kernel⟩

/-- What an access answered `a` needs: REC_STORE 0 answered below 0x2042 only, stopped at its third
byte. -/
def stopsAt (a : Answer) (i : Instr) (pre : List MicroOp) (op : MicroOp) (post : List MicroOp)
    (d : Dir) (x : Nat) (s : State) : Prop :=
  i.CfgOk s ∧ i.ArgOk s ∧ i.SizeOk s ∧ BodyInSpace (i.body s)
    ∧ i.body s = pre ++ op :: post ∧ BodyAnswered s pre
    ∧ op.access = some (d, x) ∧ s.answer d x = a

theorem test_stops_recStore (a : Answer) :
    stopsAt a (.recStore 0) [.write 0x2040 (.record 0), .write 0x2041 (.record 1)]
      (.write 0x2042 (.record 2)) [.write 0x2043 (.record 3)] .write 0x2042
      (smallUpTo 0x2042 a) := by
  cases a <;>
    (refine ⟨fun _ => by decide +kernel, ?_, by unfold Instr.SizeOk; decide +kernel,
      by unfold BodyInSpace; decide +kernel, by decide +kernel,
      by unfold BodyAnswered; decide +kernel, rfl, by decide +kernel⟩
     rintro k ⟨⟩
     decide +kernel)

/-- RefusedAccessReportsBus. -/
theorem test_witness_RefusedAccessReportsBus :
    stopsAt .refuses (.recStore 0) [.write 0x2040 (.record 0), .write 0x2041 (.record 1)]
      (.write 0x2042 (.record 2)) [.write 0x2043 (.record 3)] .write 0x2042
      (smallUpTo 0x2042 .refuses) := test_stops_recStore .refuses

/-- UnansweredAccessStallsUntilReset. -/
theorem test_witness_UnansweredAccessStallsUntilReset :
    stopsAt .silent (.recStore 0) [.write 0x2040 (.record 0), .write 0x2041 (.record 1)]
        (.write 0x2042 (.record 2)) [.write 0x2043 (.record 3)] .write 0x2042
        (smallUpTo 0x2042 .silent)
      ∧ (smallUpTo 0x2042 .silent).resetPin = false := ⟨test_stops_recStore .silent, rfl⟩

/-- CommandCompletesWhenMemoryAnswers, on memory that answers with data and with a refusal. -/
theorem test_witness_CommandCompletesWhenMemoryAnswers :
    ∀ p ∈ accessSeq (Instr.body .hdrLoad (smallUpTo 0x2010 .refuses)),
      (smallUpTo 0x2010 .refuses).answer p.1 p.2 ≠ .silent := by decide +kernel

/-- AccessCountBounded, on a command whose body is in flight. -/
theorem test_witness_AccessCountBounded :
    (start .encTile small).inflight = some (encTileOps small) := by decide +kernel

/-- VecLoadUnpacksTheBlock, VecStorePacksTheBlock, VecLoadThenStoreRestoresMemory. -/
theorem test_witness_Vec :
    Instr.CfgOk (.vecLoad 0) small ∧ Instr.ArgOk (.vecLoad 0) small
      ∧ Instr.CfgOk (.vecStore 0) small ∧ Instr.ArgOk (.vecStore 0) small
      ∧ (∀ j : Fin 192, small.pixAddr 0 j < 2 ^ 32
          ∧ small.answer .read (small.pixAddr 0 j) = .completes
          ∧ small.answer .write (small.pixAddr 0 j) = .completes)
      ∧ ∃ t, exec (.vecLoad 0) small = .next t := by
  refine ⟨fun _ => by decide +kernel, ?_, fun _ => by decide +kernel, ?_, by decide +kernel, ⟨_, rfl⟩⟩
  · rintro k ⟨⟩; decide +kernel
  · rintro k ⟨⟩; decide +kernel

/-- VecStorePacksTheBlock's clause on the last sample at an address: with stride 0 the eight rows share
their bytes, and the last row's sample is that one. -/
theorem test_witness_VecStore_last :
    ∃ j : Fin 192, ∀ j' : Fin 192, j < j' →
      { small with pixStride := 0 }.pixAddr 0 j' ≠ { small with pixStride := 0 }.pixAddr 0 j :=
  ⟨63, by decide +kernel⟩

/-- HdrStoreWritesTheHeader, HdrLoadReadsTheHeader, HeaderRoundTripKeepsPatterns. -/
theorem test_witness_Hdr :
    64 ≤ small.pktBuflen.toNat
      ∧ (∀ b : Fin 64, small.hdrAddr b < 2 ^ 32
          ∧ small.answer .write (small.hdrAddr b) = .completes
          ∧ small.answer .read (small.hdrAddr b) = .completes)
      ∧ ∃ t, exec .hdrStore small = .next t :=
  ⟨by decide +kernel, by decide +kernel, ⟨_, rfl⟩⟩

/-- RecStoreWritesTheRecord, RecLoadReadsTheRecord, with the buffer just long enough. -/
theorem test_witness_Rec :
    Instr.CfgOk (.recStore 0) small ∧ Instr.ArgOk (.recStore 0) small
      ∧ Instr.SizeOk (.recStore 0) small ∧ Instr.CfgOk (.recLoad 0) small
      ∧ Instr.ArgOk (.recLoad 0) small ∧ Instr.SizeOk (.recLoad 0) small
      ∧ ∀ b : Fin 4, small.recAddr 0 b < 2 ^ 32
          ∧ small.answer .write (small.recAddr 0 b) = .completes
          ∧ small.answer .read (small.recAddr 0 b) = .completes := by
  refine ⟨fun _ => by decide +kernel, ?_, by unfold Instr.SizeOk; decide +kernel,
    fun _ => by decide +kernel, ?_, by unfold Instr.SizeOk; decide +kernel, by decide +kernel⟩
  · rintro k ⟨⟩; decide +kernel
  · rintro k ⟨⟩; decide +kernel

/-- EncTileEncodesTheTile, DecTileDecodesThePacket. -/
theorem test_witness_Tile :
    Instr.CfgOk .encTile small ∧ Instr.SizeOk .encTile small
      ∧ Instr.CfgOk .decTile small ∧ Instr.SizeOk .decTile small
      ∧ small.cbuf.length = small.build.maxBlocks
      ∧ (∀ k < small.blocks, ∀ j : Fin 192, small.pixAddr k j < 2 ^ 32
          ∧ small.answer .read (small.pixAddr k j) = .completes
          ∧ small.answer .write (small.pixAddr k j) = .completes)
      ∧ (∀ b : Fin 64, small.hdrAddr b < 2 ^ 32
          ∧ small.answer .write (small.hdrAddr b) = .completes
          ∧ small.answer .read (small.hdrAddr b) = .completes)
      ∧ ∀ k < small.blocks, ∀ b : Fin 4, small.recAddr k b < 2 ^ 32
          ∧ small.answer .write (small.recAddr k b) = .completes
          ∧ small.answer .read (small.recAddr k b) = .completes :=
  ⟨fun _ => by decide +kernel, by unfold Instr.SizeOk; decide +kernel, fun _ => by decide +kernel,
    by unfold Instr.SizeOk; decide +kernel, by decide +kernel, by decide +kernel, by decide +kernel,
    by decide +kernel⟩

/-- TileCommandsAreStateless, both disjuncts: two states that differ in a register and in bytes outside
the tile and the packet. -/
theorem test_witness_TileCommandsAreStateless :
    let s := small
    let s' := { small with record := 5, mem := [(0x3000, 9)] }
    (∀ k < s.blocks, ∀ j : Fin 192, s.mem.read (s.pixAddr k j) = s'.mem.read (s.pixAddr k j))
      ∧ (∀ b : Fin 64, s.mem.read (s.hdrAddr b) = s'.mem.read (s.hdrAddr b))
      ∧ (∀ k < s.blocks, ∀ b : Fin 4, s.mem.read (s.recAddr k b) = s'.mem.read (s.recAddr k b))
      ∧ s.build = s'.build ∧ s.tileBw = s'.tileBw ∧ s.tileBh = s'.tileBh
      ∧ s.pixBase = s'.pixBase ∧ s.pixStride = s'.pixStride
      ∧ s.pktBase = s'.pktBase ∧ s.pktBuflen = s'.pktBuflen
      ∧ s.cbuf.length = s.build.maxBlocks ∧ s'.cbuf.length = s'.build.maxBlocks
      ∧ (∃ t, exec .encTile s = .next t) ∧ (∃ t, exec .encTile s' = .next t)
      ∧ (∃ t, exec .decTile s = .next t) ∧ ∃ t, exec .decTile s' = .next t :=
  ⟨by decide +kernel, by decide +kernel, by decide +kernel, rfl, rfl, rfl, rfl, rfl, rfl, rfl,
    by decide +kernel, by decide +kernel, ⟨_, rfl⟩, ⟨_, rfl⟩, ⟨_, rfl⟩, ⟨_, rfl⟩⟩

/-- RangeTrackerHoldsLeastAndGreatest: a channel that sees only a NaN, and one that sees a value. -/
theorem test_witness_RangeTracker :
    let cs : List Coeffs := [(Vector.replicate 8 f0).set 0 0x7FC00000]
    (∀ co ∈ cs, isNaN co[(0 : Fin 8)] = true) ∧ ∃ co ∈ cs, isNaN co[(1 : Fin 8)] = false :=
  ⟨List.forall_mem_singleton.2 (by decide +kernel), _, List.mem_singleton.2 rfl,
    by decide +kernel⟩

/-- RefusedLoadLeavesRegisters, for HDR_LOAD refused at its first byte. -/
theorem test_witness_RefusedLoad_hdr :
    stopsAt .refuses .hdrLoad [] (.read 0x2000)
      (((List.range 63).map fun b => MicroOp.read (0x2001 + b)) ++ [.unit .takeHeader])
      .read 0x2000 (smallUpTo 0x2000 .refuses) := by
  refine ⟨nofun, nofun, by unfold Instr.SizeOk; decide +kernel, ?_, by decide +kernel, ?_, rfl,
    by decide +kernel⟩
  · unfold BodyInSpace; decide +kernel
  · unfold BodyAnswered; decide +kernel

/-- RefusedLoadLeavesRegisters, for REC_LOAD 0 refused at its last byte. -/
theorem test_witness_RefusedLoad_rec :
    stopsAt .refuses (.recLoad 0) [.read 0x2040, .read 0x2041, .read 0x2042] (.read 0x2043)
      [.unit .takeRecord] .read 0x2043 (smallUpTo 0x2043 .refuses) := by
  refine ⟨fun _ => by decide +kernel, ?_, by unfold Instr.SizeOk; decide +kernel, ?_,
    by decide +kernel, ?_, rfl, by decide +kernel⟩
  · rintro k ⟨⟩; decide +kernel
  · unfold BodyInSpace; decide +kernel
  · unfold BodyAnswered; decide +kernel

/-- RefusedLoadLeavesRegisters, for VEC_LOAD 0 refused at its first byte. -/
theorem test_witness_RefusedLoad_vec :
    stopsAt .refuses (.vecLoad 0) [] (.read 0x1000)
      (((List.finRange 192).drop 1).map (fun j => MicroOp.read (small.pixAddr 0 j))
        ++ [.unit .takeBlock])
      .read 0x1000 (smallUpTo 0x1000 .refuses) := by
  refine ⟨fun _ => by decide +kernel, ?_, trivial, ?_, by decide +kernel, ?_, rfl, by decide +kernel⟩
  · rintro k ⟨⟩; decide +kernel
  · unfold BodyInSpace; decide +kernel
  · unfold BodyAnswered; decide +kernel

/-- RefusedVecStoreKeepsItsFront: the write of sample 2 refused, samples 0 and 1 written. -/
theorem test_witness_RefusedVecStoreKeepsItsFront :
    let s := smallUpTo 0x1004 .refuses
    Instr.CfgOk (.vecStore 0) s ∧ Instr.ArgOk (.vecStore 0) s
      ∧ (∀ j : Fin 192, s.pixAddr 0 j < 2 ^ 32)
      ∧ (∀ j < (2 : Fin 192), s.answer .write (s.pixAddr 0 j) = .completes)
      ∧ s.answer .write (s.pixAddr 0 2) = .refuses
      ∧ ∃ j < (2 : Fin 192), ∀ j' < (2 : Fin 192), j < j' → s.pixAddr 0 j' ≠ s.pixAddr 0 j := by
  refine ⟨fun _ => by decide +kernel, ?_, by decide +kernel, by decide +kernel, by decide +kernel,
    ⟨1, by decide +kernel⟩⟩
  rintro k ⟨⟩; decide +kernel

/-- WritesWhileBusyAreIgnored: CMD, and the first and last register of each range. -/
theorem test_witness_WritesWhileBusyAreIgnored :
    busyState.busy = true ∧ busyState.resetPin = false
      ∧ [0x018#14, 0x020, 0x034, 0x100, 0x180, 0x400, 0x6FC].all (fun off =>
        decide (off.toNat % 4 = 0
          ∧ (off = 0x018 ∨ (0x020 ≤ off.toNat ∧ off.toNat ≤ 0x034)
            ∨ (0x100 ≤ off.toNat ∧ off.toNat ≤ 0x180)
            ∨ (0x400 ≤ off.toNat ∧ off.toNat < 0x700)))) := by
  decide +kernel

/-- WritesWhileBusyAreIgnored on an idle CORE: the single registers at their offsets, and the first and
last of each bank at theirs. -/
theorem test_witness_WritesWhileIdleAreStored :
    fresh.busy = false ∧ fresh.resetPin = false
      ∧ (writing 0x160 0x1FF fresh).events = .host (.regWrite 0x160 4 0x1FF) :: []
      ∧ (0x100#14).toNat = 0x100 + 4 * (0 : Fin 8).val ∧ (0x11C#14).toNat = 0x100 + 4 * (7 : Fin 8).val
      ∧ (0x120#14).toNat = 0x120 + 4 * (0 : Fin 8).val ∧ (0x13C#14).toNat = 0x120 + 4 * (7 : Fin 8).val
      ∧ (0x140#14).toNat = 0x140 + 4 * (0 : Fin 8).val ∧ (0x15C#14).toNat = 0x140 + 4 * (7 : Fin 8).val
      ∧ (0x160#14).toNat = 0x160 + 4 * (0 : Fin 8).val ∧ (0x17C#14).toNat = 0x160 + 4 * (7 : Fin 8).val
      ∧ (0x400#14).toNat = 0x400 + 4 * (0 : Fin 192).val
      ∧ (0x6FC#14).toNat = 0x400 + 4 * (191 : Fin 192).val := by decide +kernel

/-- ReadOnlyWritesHaveNoEffect: registers of each kind, at the ends of their ranges. -/
theorem test_witness_ReadOnlyWritesHaveNoEffect :
    [0x000#14, 0x01C, 0x038, 0x00C, 0x03C, 0x0FC, 0x184, 0x3FC, 0x700, 0x3800, 0x3FFC].all (fun off =>
        decide (off.toNat % 4 = 0
          ∧ regAt off ∈ [Reg.id, .version, .param, .faultAddr, .pktLen, .reserved]))
      ∧ regAt 0x1000 = .mean 0 ∧ regAt 0x12FC = .mean 191
      ∧ regAt 0x2000 = .basis 0 0 ∧ regAt 0x37FC = .basis 7 191 := by decide +kernel

/-- RegisterReadsHaveNoSideEffect: a datapath register while BUSY, STATUS while BUSY, and the same
datapath register while idle. -/
theorem test_witness_RegisterReadsHaveNoSideEffect :
    busyState.resetPin = false ∧ busyState.busy = true ∧ (regAt 0x400).isDatapath = true
      ∧ ¬ (busyState.busy = true ∧ (regAt 0x014).isDatapath = true)
      ∧ ¬ (fresh.busy = true ∧ (regAt 0x400).isDatapath = true) := by decide +kernel

/-- StatusWriteClearsWhatItNames, its second clause: a body with nothing left, and one whose next
write is refused. -/
theorem test_witness_StatusWrite :
    ({ small with inflight := some [] } : State).busy = true
      ∧ (engineTick { small with inflight := some [] }).busy = false
      ∧ (engineTick { small with inflight := some [.write 0x10000 (.record 0)] }).busy = false := by
  decide +kernel

/-- SoftResetRestoresRegisters: a write that also names IE. -/
theorem test_witness_SoftResetRestoresRegisters :
    (3#32).getLsbD 1 = true
      ∧ (writing 0x010 3 busyState).events = .host (.regWrite 0x010 4 3) :: []
      ∧ busyState.resetPin = false := by decide +kernel

/-- SoftResetRestoresRegisters, a CTRL write with bit 1 = 0, while BUSY and idle. -/
theorem test_witness_SoftReset_ctrl :
    (1#32).getLsbD 1 = false ∧ busyState.resetPin = false ∧ fresh.resetPin = false
      ∧ (writing 0x010 1 busyState).events = .host (.regWrite 0x010 4 1) :: [] := by decide +kernel

/-- `small` with a host that soft-resets while the REC_STORE 0 it issues is in flight. -/
def resetDuring : State := { small with events := [.during 0x52 (.regWrite 0x010 4 2)] }

/-- SoftResetRestoresRegisters, a soft reset while REC_STORE 0 is in flight. -/
theorem test_witness_SoftReset_during :
    resetDuring.events = .during 0x52 (.regWrite 0x010 4 2) :: []
      ∧ resetDuring.inflight = none ∧ resetDuring.resetPin = false ∧ resetDuring.grain = .whole
      ∧ (2#32).getLsbD 1 = true ∧ decode 0x52 = .ok (.recStore 0)
      ∧ Instr.CfgOk (.recStore 0) resetDuring ∧ Instr.ArgOk (.recStore 0) resetDuring
      ∧ Instr.SizeOk (.recStore 0) resetDuring
      ∧ BodyInSpace (Instr.body (.recStore 0) resetDuring)
      ∧ BodyAnswered resetDuring (Instr.body (.recStore 0) resetDuring) := by
  refine ⟨rfl, rfl, rfl, rfl, by decide, by decide, fun _ => by decide +kernel, ?_,
    by unfold Instr.SizeOk; decide +kernel, by unfold BodyInSpace; decide +kernel,
    by unfold BodyAnswered; decide +kernel⟩
  rintro k ⟨⟩; decide +kernel

/-- R242: a prefix of two accesses of a body that reads three bytes around a register step. -/
theorem test_piecesThrough :
    piecesThrough 0 [.read 0, .read 1] = 0
      ∧ piecesThrough 2 [.read 0, .unit .takeRecord, .read 1, .unit .takeRecord, .read 2] = 3 := by
  decide

/-- InverseSampleTotalAndFlagged: finite operands, the smallest and the largest among them, a quotient
by a number, and an exact zero sum of each kind. -/
theorem test_witness_InverseSample_finite :
    f32Exponent 0x00000001 ≠ 255 ∧ f32Exponent 0xFF7FFFFF ≠ 255 ∧ f32Value 0x00000001 ≠ 0
      ∧ f32Value 0x3F800000 + f32Value 0xBF800000 = 0 ∧ f32Value 0x80000000 + f32Value 0x80000000 = 0
      ∧ f32Value 0x80000000 * f32Value 0x3F800000 = 0 ∧ f32Value 0x80000000 = 0 := by
  decide +kernel

/-- InverseSampleTotalAndFlagged: an infinite operand beside a finite and an infinite one, a NaN
operand, and the value of a code. -/
theorem test_witness_InverseSample_special :
    isInf 0xFF800000 = true ∧ isNaN 0x00000000 = false ∧ isNaN 0x7F800000 = false
      ∧ isInf 0x00000000 = false ∧ isNaN 0xFFFFFFFF = true
      ∧ f32Exponent 0x7F800000 = 255 ∧ (255 : Nat) ≤ 255
      ∧ isNaN 0x437F0000 = false ∧ f32Value 0x437F0000 = 255 := by decide +kernel

/-- RoundsTo's two ranges: 1 + 1 is below the overflow bound, the greatest value doubled is not. -/
theorem test_witness_RoundsTo :
    |f32Value 0x3F800000 + f32Value 0x3F800000| < 2 ^ 128 - 2 ^ 103
      ∧ 2 ^ 128 - 2 ^ 103 ≤ |f32Value 0x7F7FFFFF + f32Value 0x7F7FFFFF| := by decide +kernel

/-- CompletionRaisesTheInterrupt, CommandsLeaveConfiguration: NOP, and ENC_TILE reporting CFG. -/
theorem test_witness_completion :
    (∃ t, exec .nop { fresh with numerr := true } = .next t ∧ t.busy = false)
      ∧ ∃ t, exec .encTile { fresh with tileBw := 0, numerr := true } = .next t
        ∧ t.busy = false :=
  ⟨⟨_, rfl, by decide +kernel⟩, ⟨_, rfl, by decide +kernel⟩⟩

/-- PortRejectsOddAccesses: a byte access and a misaligned word. -/
theorem test_witness_PortRejectsOddAccesses :
    ((1 : Nat) ≠ 4 ∨ (0x010 : BitVec 14).toNat % 4 ≠ 0)
      ∧ ((4 : Nat) ≠ 4 ∨ (0x012 : BitVec 14).toNat % 4 ≠ 0) := by decide +kernel

/-- WindowMapFollowsTheTable, its last clause: offsets at the ends of the five reserved ranges. -/
theorem test_witness_WindowMap :
    [0x03C#14, 0x0FC, 0x184, 0x3FC, 0x700, 0xFFC, 0x1300, 0x1FFC, 0x3800, 0x3FFC].all (fun o =>
      decide (o.toNat % 4 = 0
        ∧ ((0x03C ≤ o.toNat ∧ o.toNat ≤ 0x0FC) ∨ (0x184 ≤ o.toNat ∧ o.toNat ≤ 0x3FC)
          ∨ (0x700 ≤ o.toNat ∧ o.toNat ≤ 0xFFC) ∨ (0x1300 ≤ o.toNat ∧ o.toNat ≤ 0x1FFC)
          ∨ 0x3800 ≤ o.toNat))) := by decide +kernel

/-- EveryStepKeepsInvariant, NoStepChangesTheBuild: a state with a command in flight. -/
theorem test_witness_EveryStepKeepsInvariant :
    State.Inv { small with mem := [(0x2000, 1)], inflight := some [.write 0x2000 (.record 0)] }
      ∧ ∃ t, step { small with
          mem := [(0x2000, 1)], inflight := some [.write 0x2000 (.record 0)] } = .next t := by
  refine ⟨⟨by decide +kernel, ?_, by decide +kernel, by decide +kernel, ?_, fun _ => rfl, nofun,
    nofun⟩, ⟨_, rfl⟩⟩
  · unfold Memory.InSpace; decide +kernel
  · rintro ops ⟨⟩
    unfold BodyInSpace
    decide +kernel

/-- ConfigurationFrozenWhileBusy: a step between two BUSY states. -/
theorem test_witness_ConfigurationFrozenWhileBusy :
    busyState.busy = true
      ∧ after (step busyState) (fun t => t.busy) = true := by decide +kernel

end Sys2Proof.Tests
end

section
/-! SUPPORT. What stays fixed while the core engine works: the registers frozen by BUSY (10_state.md
R35), the build (R46) and the host side, each gathered once so that one equation says that all of it
stays; and the two representations of a command of R48. -/

namespace Sys2Proof.Machine

/-! ### The registers a command never writes -/

/-- The configuration registers and CMD_LAST, which are frozen from a command's acceptance to its
completion (10_state.md R35). -/
structure FrozenRegs where
  tileBw : BitVec 16
  tileBh : BitVec 16
  pixBase : Word
  pixStride : Word
  pktBase : Word
  pktBuflen : Word
  cmdLast : Word

/-- The frozen registers of a state. -/
def State.frozenRegs (s : State) : FrozenRegs :=
  ⟨s.tileBw, s.tileBh, s.pixBase, s.pixStride, s.pktBase, s.pktBuflen, s.cmdLast⟩

/-- What the core engine never touches: the frozen registers, CTRL.IE and WIGN, which only the host
writes, the build, and the host side of the model. -/
structure HostSide where
  frozen : FrozenRegs
  ie : Bool
  wign : Bool
  build : Build
  resetPin : Bool
  events : List Event
  reply : Reply
  draws : Nat
  grain : Grain

/-- The host's part of a state. -/
def State.hostSide (s : State) : HostSide :=
  ⟨s.frozenRegs, s.ie, s.wign, s.build, s.resetPin, s.events, s.reply, s.draws, s.grain⟩

@[simp] theorem complete_hostSide (code : ErrCode) (s : State) :
    (complete code s).hostSide = s.hostSide := rfl

@[simp] theorem raiseError_hostSide (code : ErrCode) (a : Nat) (s : State) :
    (raiseError code a s).hostSide = s.hostSide := rfl

@[simp] theorem opEffect_hostSide (op : MicroOp) (s : State) :
    (opEffect op s).hostSide = s.hostSide := by
  rw [opEffect_frame]
  rfl

@[simp] theorem effects_hostSide (ops : List MicroOp) (s : State) :
    (effects ops s).hostSide = s.hostSide := by
  induction ops generalizing s with
  | nil => rfl
  | cons op ops ih => rw [effects_cons, ih, opEffect_hostSide]

@[simp] theorem runOps_hostSide (ops : List MicroOp) (s : State) :
    (runOps ops s).hostSide = s.hostSide := by
  rcases runOps_cases ops s with ⟨_, h⟩ | ⟨pre, _, _, _, _, _, _, _, _, h⟩
    | ⟨pre, _, _, _, _, _, _, _, _, h⟩ <;> rw [h]
  · exact effects_hostSide ops s
  · exact effects_hostSide pre s
  · exact effects_hostSide pre s

@[simp] theorem finish_hostSide (s : State) : (finish s).hostSide = s.hostSide := by
  unfold finish
  split
  · rfl
  · exact runOps_hostSide _ s

@[simp] theorem startWith_hostSide (failed : Option ErrCode) (ops : List MicroOp) (s : State) :
    (startWith failed ops s).hostSide = s.hostSide := by
  rcases startWith_cases failed ops s with ⟨_, _, h⟩ | ⟨_, _, _, h⟩ | ⟨_, _, h⟩ <;> rw [h] <;> rfl

@[simp] theorem start_hostSide (i : Instr) (s : State) : (start i s).hostSide = s.hostSide := by
  obtain ⟨_, _, h⟩ := start_eq i s
  rw [h, startWith_hostSide]

@[simp] theorem engineTick_hostSide (s : State) : (engineTick s).hostSide = s.hostSide := by
  rcases engineTick_cases s with ⟨_, h⟩ | ⟨_, h⟩ | ⟨op, _, _, h, _⟩ | ⟨_, _, _, _, _, _, _, h⟩
    | ⟨_, _, _, _, _, _, _, h⟩ <;> rw [h]
  · rfl
  · exact opEffect_hostSide op s
  · rfl

@[simp] theorem engineTicks_hostSide (n : Nat) (s : State) :
    (engineTicks n s).hostSide = s.hostSide := by
  induction n generalizing s with
  | zero => rfl
  | succ n ih => rw [engineTicks, ih, engineTick_hostSide]

theorem exec_hostSide (i : Instr) (s t : State) (h : exec i s = .next t) :
    t.hostSide = s.hostSide := by
  cases (exec_eq i s).symm.trans h
  rw [finish_hostSide, start_hostSide]

/-! ### No command clears NUMERR (10_state.md R25) -/

theorem effects_numerr_mono (ops : List MicroOp) (s : State) (h : s.numerr = true) :
    (effects ops s).numerr = true := by
  induction ops generalizing s with
  | nil => exact h
  | cons op ops ih => exact ih _ (opEffect_numerr_mono op s h)

theorem runOps_numerr_mono (ops : List MicroOp) (s : State) (h : s.numerr = true) :
    (runOps ops s).numerr = true := by
  rcases runOps_cases ops s with ⟨_, hr⟩ | ⟨pre, _, _, _, _, _, _, _, _, hr⟩
    | ⟨pre, _, _, _, _, _, _, _, _, hr⟩
  · rw [hr]; exact effects_numerr_mono ops s h
  · rw [hr]; exact effects_numerr_mono pre s h
  · rw [hr]; exact effects_numerr_mono pre s h

theorem finish_numerr_mono (s : State) (h : s.numerr = true) : (finish s).numerr = true := by
  unfold finish
  split
  · exact h
  · exact runOps_numerr_mono _ s h

/-- The checks of a command leave NUMERR (30_encoding.md R88). -/
theorem start_numerr (i : Instr) (s : State) : (start i s).numerr = s.numerr := by
  obtain ⟨_, _, he⟩ := start_eq i s
  rw [he]
  rcases startWith_cases (failedCheck s i.needsCfg i.blockIndex _) (i.body s) s
    with ⟨_, _, h⟩ | ⟨_, _, _, h⟩ | ⟨_, _, h⟩ <;> rw [h] <;> rfl

/-! ### The two representations of a command (10_state.md R48) -/

/-- A piece of work that changes nothing never gets further (70_reset_and_hazards.md R263). -/
theorem engineTicks_of_fixed (n : Nat) (s : State) (h : engineTick s = s) :
    engineTicks n s = s := by
  induction n with
  | zero => rfl
  | succ n ih => rw [engineTicks, h, ih]

theorem engineTicks_idle (n : Nat) (s : State) (h : s.inflight = none) : engineTicks n s = s :=
  engineTicks_of_fixed n s (engineTick_idle s h)

/-- Enough pieces of work, one for each piece of the body and one for its completion, come to what
the body run at once comes to: completed, refused, or waiting for an answer. -/
theorem engineTicks_eq_runOps (ops : List MicroOp) (s : State) (n : Nat)
    (hi : s.inflight = some ops) (hn : ops.length + 1 ≤ n) : engineTicks n s = runOps ops s := by
  induction ops generalizing s n with
  | nil =>
    obtain ⟨n, rfl⟩ : ∃ m, n = m + 1 := ⟨n - 1, by omega⟩
    have htick : engineTick s = complete .ok s := by simp only [engineTick, hi]
    rw [engineTicks, htick]
    exact engineTicks_idle n _ rfl
  | cons op rest ih =>
    obtain ⟨n, rfl⟩ : ∃ m, n = m + 1 := ⟨n - 1, by omega⟩
    rcases doOp_cases op s with ⟨hdo, _⟩ | ⟨_, a, _, _, hdo⟩ | ⟨_, _, _, _, hdo⟩
    · have htick : engineTick s = { opEffect op s with inflight := some rest } := by
        simp only [engineTick, hi, hdo]
      rw [engineTicks, htick, ih _ n rfl (by simpa using hn), runOps_with_inflight, runOps, hdo]
    · have htick : engineTick s = raiseError .bus a s := by simp only [engineTick, hi, hdo]
      rw [engineTicks, htick, runOps, hdo]
      exact engineTicks_idle n _ rfl
    · have htick : engineTick s = s := by simp only [engineTick, hi, hdo]
      rw [engineTicks_of_fixed _ s htick, runOps, hdo, ← hi]

theorem engineTicks_eq_finish (s : State) (n : Nat)
    (hn : (s.inflight.getD []).length + 1 ≤ n) : engineTicks n s = finish s := by
  unfold finish
  cases hi : s.inflight with
  | none => exact engineTicks_idle n s hi
  | some ops => exact engineTicks_eq_runOps ops s n hi (by simpa [hi] using hn)

/-! ### What a step leaves of the build (10_state.md R46) -/

@[simp] theorem finish_build (s : State) : (finish s).build = s.build :=
  congrArg HostSide.build (finish_hostSide s)

@[simp] theorem start_build (i : Instr) (s : State) : (start i s).build = s.build :=
  congrArg HostSide.build (start_hostSide i s)

@[simp] theorem engineTick_build (s : State) : (engineTick s).build = s.build :=
  congrArg HostSide.build (engineTick_hostSide s)

@[simp] theorem performPart_build (s : State) : (performPart s).build = s.build := by
  unfold performPart
  split
  · rfl
  · exact congrArg HostSide.build (engineTicks_hostSide _ _)

@[simp] theorem takeUp_build (w : Word) (s : State) : (takeUp w s).build = s.build := by
  rcases takeUp_cases w s with ⟨_, _, h⟩ | ⟨_, _, h⟩ <;> simp [h]

@[simp] theorem storeReg_build (r : Reg) (w : Word) (s : State) :
    (storeReg r w s).build = s.build := by
  cases r with
  | ctrl => simp only [storeReg, writeCtrl]; split <;> rfl
  | _ => rfl

@[simp] theorem writeReg_build (r : Reg) (w : Word) (s : State) :
    (writeReg r w s).build = s.build := by
  rcases writeReg_cases r w s with ⟨_, h⟩ | ⟨_, _, _, h⟩ | ⟨_, _, h⟩ <;> simp [h]

@[simp] theorem readReg_build (r : Reg) (s : State) : (readReg r s).2.build = s.build := by
  rcases readReg_cases r s with h | h <;> rw [h]

@[simp] theorem hostAct_build (act : HostAct) (s : State) :
    (hostAct act s).build = s.build := by
  cases act with
  | regWrite off width w => simp only [hostAct]; split <;> simp
  | regRead off width => simp only [hostAct]; split <;> simp
  | _ => rfl

theorem land_build (act : HostAct) (s t : State) (h : land act s = .next t) :
    t.build = s.build := by
  rcases land_cases act s with ⟨_, _, _, _, he⟩ | ⟨_, _, _, _, he⟩ | ⟨_, _, _, _, he⟩ | ⟨_, he⟩ <;>
    cases he.symm.trans h <;> simp

/-- A step that ends with a piece of the engine's work. -/
theorem thenTick_eq_next (o : Host.Outcome State Fault Refusal) (t : State)
    (h : thenTick o = .next t) : ∃ u, o = .next u ∧ t = engineTick u := by
  cases o with
  | next u => cases h; exact ⟨u, rfl, rfl⟩
  | fault r => cases h
  | refused r => cases h

/-- A step that ends with the rest of a whole command. -/
theorem thenFinish_eq_next (o : Host.Outcome State Fault Refusal) (t : State)
    (h : thenFinish o = .next t) : ∃ u, o = .next u ∧ t = finish u := by
  cases o with
  | next u => cases h; exact ⟨u, rfl, rfl⟩
  | fault r => cases h
  | refused r => cases h

/-- A round of a poll is a register read, after which the poll is over or the engine does a piece of
work. -/
theorem pollRound_cases (off : BitVec 14) (mask value : Word) (s : State) (rest : List Event) :
    pollRound off mask value s rest = { hostAct (.regRead off 4) s with events := rest }
      ∨ pollRound off mask value s rest = engineTick (hostAct (.regRead off 4) s) := by
  unfold pollRound
  split
  · split
    · exact .inl rfl
    · exact .inr rfl
  · exact .inl rfl

theorem landDuring_build (w : Word) (act : HostAct) (s t : State)
    (h : landDuring w act s = .next t) : t.build = s.build := by
  rcases landDuring_cases w act s with ⟨_, he⟩ | ⟨_, _, _, he⟩ | ⟨_, _, _, he⟩ <;> rw [he] at h
  · rw [land_build _ _ _ h, hostAct_build]
  · obtain ⟨u, hu, rfl⟩ := thenFinish_eq_next _ _ h
    rw [finish_build, land_build _ _ _ hu, performPart_build, takeUp_build]
  · rw [land_build _ _ _ h, takeUp_build]

theorem step_build (s t : State) (h : step s = .next t) : t.build = s.build := by
  rcases step_cases s with ⟨_, he⟩ | ⟨rest, _, he⟩ | ⟨act, rest, _, he⟩ | ⟨act, rest, _, he⟩
    | ⟨off, mask, value, rest, _, he⟩ | ⟨w, act, rest, _, he⟩ <;> rw [he] at h
  · cases h; exact engineTick_build s
  · cases h; exact engineTick_build { s with events := rest }
  · exact land_build act { s with events := rest } t h
  · obtain ⟨u, hu, rfl⟩ := thenTick_eq_next _ _ h
    exact (engineTick_build u).trans (land_build act { s with events := rest } u hu)
  · cases h
    rcases pollRound_cases off mask value s rest with hp | hp <;> simp [hp]
  · exact landDuring_build w act { s with events := rest } t h

/-! ### What the host can do while BUSY (10_state.md R35) -/

/-- The CORE is idle, or the frozen registers are still those of `s`. -/
def FrozenOrIdle (s t : State) : Prop := t.inflight = none ∨ t.frozenRegs = s.frozenRegs

theorem FrozenOrIdle.engineTick {s t : State} (h : FrozenOrIdle s t) :
    FrozenOrIdle s (engineTick t) := by
  rcases h with hi | hf
  · exact .inl (by rw [engineTick_idle t hi]; exact hi)
  · exact .inr ((congrArg HostSide.frozen (engineTick_hostSide t)).trans hf)

/-- A register that BUSY does not freeze holds no frozen state: a write to it changes IE, clears
STATUS flags, resets the CORE, or has no effect. -/
theorem storeReg_of_not_frozen (r : Reg) (w : Word) (s : State) (h : r.isFrozen = false) :
    storeReg r w s = s ∨ storeReg r w s = clearStatus w s ∨ storeReg r w s = coreReset s
      ∨ storeReg r w s = { s with ie := w.getLsbD 0 } := by
  cases r with
  | ctrl =>
    simp only [storeReg, writeCtrl]
    split
    · exact .inr (.inr (.inl rfl))
    · exact .inr (.inr (.inr rfl))
  | status => exact .inr (.inl rfl)
  | id => exact .inl rfl
  | version => exact .inl rfl
  | param => exact .inl rfl
  | faultAddr => exact .inl rfl
  | pktLen => exact .inl rfl
  | mean j => exact .inl rfl
  | basis i j => exact .inl rfl
  | reserved => exact .inl rfl
  | _ => cases h

theorem writeReg_busy (r : Reg) (w : Word) (s : State) (hb : s.inflight ≠ none) :
    FrozenOrIdle s (writeReg r w s) := by
  rcases writeReg_cases r w s with ⟨_, h⟩ | ⟨_, _, _, h⟩ | ⟨_, hs, h⟩ <;> rw [h]
  · exact .inr rfl
  · exact .inr rfl
  · have hf : r.isFrozen = false := hs.resolve_left hb
    rcases storeReg_of_not_frozen r w s hf with he | he | he | he <;> rw [he]
    · exact .inr rfl
    · exact .inr rfl
    · exact .inl rfl
    · exact .inr rfl

theorem hostAct_busy (act : HostAct) (s : State) (hb : s.inflight ≠ none) :
    FrozenOrIdle s (hostAct act s) := by
  cases act with
  | regWrite off width w =>
    simp only [hostAct]
    split
    · exact writeReg_busy (regAt off) w s hb
    · exact .inr rfl
  | regRead off width =>
    simp only [hostAct]
    split
    · rcases readReg_cases (regAt off) s with h | h <;> rw [h] <;> exact .inr rfl
    · exact .inr rfl
  | assertReset => exact .inl rfl
  | releaseReset => exact .inl rfl
  | _ => exact .inr rfl

/-- While BUSY no word is issued (30_encoding.md R87). -/
theorem issuedWord_busy (act : HostAct) (s : State) (hb : s.inflight ≠ none) :
    issuedWord act s = none := by
  cases h : issuedWord act s with
  | none => rfl
  | some w => exact absurd (issuedWord_some act s w h).2.2 hb

/-- While BUSY a host action is no command: it acts on its own. -/
theorem land_busy (act : HostAct) (s : State) (hb : s.inflight ≠ none) :
    land act s = .next (hostAct (HostAct.resolve s.build.mmioBase act) s) := by
  rw [land_eq, landAct, issuedWord_busy _ s hb]

/-- A write to CMD while BUSY does nothing but set WIGN, and not even that in reset. -/
theorem hostAct_cmd_busy (w : Word) (s : State) (hb : s.inflight ≠ none) :
    (hostAct (.regWrite cmdOffset 4 w) s).inflight = s.inflight
      ∧ (hostAct (.regWrite cmdOffset 4 w) s).frozenRegs = s.frozenRegs := by
  change (writeReg .cmd w s).inflight = s.inflight ∧ (writeReg .cmd w s).frozenRegs = s.frozenRegs
  rcases writeReg_cases .cmd w s with ⟨_, h⟩ | ⟨_, _, _, h⟩ | ⟨_, hi | hf, _⟩
  · rw [h]; exact ⟨rfl, rfl⟩
  · rw [h]; exact ⟨rfl, rfl⟩
  · exact absurd hi hb
  · cases hf

theorem land_keeps_frozen (act : HostAct) (s t : State) (hb : s.inflight ≠ none)
    (h : land act s = .next t) : FrozenOrIdle s t := by
  rw [land_busy act s hb] at h
  cases h
  exact hostAct_busy _ s hb

/-- While BUSY the word of `during` is not accepted either, so its two actions land one after the
other. -/
theorem landDuring_keeps_frozen (w : Word) (act : HostAct) (s t : State) (hb : s.inflight ≠ none)
    (h : landDuring w act s = .next t) : FrozenOrIdle s t := by
  rcases landDuring_cases w act s with ⟨_, he⟩ | ⟨_, hi, _⟩ | ⟨_, hi, _⟩
  · rw [he] at h
    obtain ⟨hkeep, hregs⟩ := hostAct_cmd_busy w s hb
    exact (land_keeps_frozen act _ t (hkeep ▸ hb) h).imp_right fun hf => hf.trans hregs
  · exact absurd hi hb
  · exact absurd hi hb

theorem step_keeps_frozen (s t : State) (hb : s.inflight ≠ none) (h : step s = .next t) :
    FrozenOrIdle s t := by
  rcases step_cases s with ⟨_, he⟩ | ⟨_, _, he⟩ | ⟨act, rest, _, he⟩ | ⟨act, rest, _, he⟩
    | ⟨off, mask, value, rest, _, he⟩ | ⟨w, act, rest, _, he⟩ <;> rw [he] at h
  · cases h; exact FrozenOrIdle.engineTick (.inr rfl)
  · cases h; exact FrozenOrIdle.engineTick (.inr rfl)
  · exact land_keeps_frozen act { s with events := rest } t hb h
  · obtain ⟨u, hu, rfl⟩ := thenTick_eq_next _ _ h
    have hland : FrozenOrIdle s u := land_keeps_frozen act { s with events := rest } u hb hu
    exact hland.engineTick
  · cases h
    have hread := hostAct_busy (.regRead off 4) s hb
    rcases pollRound_cases off mask value s rest with hp | hp <;> rw [hp]
    · exact hread
    · exact hread.engineTick
  · exact landDuring_keeps_frozen w act { s with events := rest } t hb h

/-! ### The statements -/

/-- Settles O9: each piece of work runs one piece of the body, by induction on the body. -/
theorem piecewiseRunEqualsWholeCommand : Obligations.PiecewiseRunEqualsWholeCommand := by
  intro i s n hn
  rw [exec_eq, engineTicks_eq_finish _ n hn]

/-- Settles O55, from what no piece of a body touches. -/
theorem commandsLeaveConfiguration : Obligations.CommandsLeaveConfiguration := by
  intro i s t h
  have hnum : s.numerr = true → t.numerr = true := by
    intro hs
    cases (exec_eq i s).symm.trans h
    exact finish_numerr_mono _ ((start_numerr i s).trans hs)
  have hside := exec_hostSide i s t h
  simp only [State.hostSide, State.frozenRegs, HostSide.mk.injEq, FrozenRegs.mk.injEq] at hside
  obtain ⟨⟨hbw, hbh, hpix, hstride, hpkt, hlen, hcmd⟩, hie, hwign, hrest⟩ := hside
  obtain ⟨hbuild, hpin, hevents, hreply, hdraws, hgrain⟩ := hrest
  exact ⟨hie, hwign, hcmd, hbw, hbh, hpix, hstride, hpkt, hlen, hbuild, hpin, hevents, hreply,
    hdraws, hgrain, hnum⟩

/-- Settles O59, over the cases of a step. -/
theorem noStepChangesTheBuild : Obligations.NoStepChangesTheBuild := step_build

/-- Settles O60: while BUSY only a reset could touch the frozen registers, and it leaves the CORE
idle. -/
theorem configurationFrozenWhileBusy : Obligations.ConfigurationFrozenWhileBusy := by
  intro s t hs hstep ht
  have hb : s.inflight ≠ none := by simpa [State.busy, Option.isSome_iff_ne_none] using hs
  have hbt : t.inflight ≠ none := by simpa [State.busy, Option.isSome_iff_ne_none] using ht
  have hregs : t.frozenRegs = s.frozenRegs := (step_keeps_frozen s t hb hstep).resolve_left hbt
  simpa only [State.frozenRegs, FrozenRegs.mk.injEq] using hregs

end Sys2Proof.Machine
end

section
/-! SUPPORT. The register window (10_state.md R20 to R46): the register at each offset, what a host
write and a host read of it do, and the two resets (R51, 70_reset_and_hazards.md R242). -/

namespace Sys2Proof.Machine

/-! ### The map of the window (10_state.md R21) -/

theorem finOfNat_eq {n : Nat} [NeZero n] (i : Fin n) (a : Nat) (h : a = i.val) :
    Fin.ofNat n a = i := by
  rw [h, Fin.ofNat_val_eq_self]

theorem regAt_c (off : BitVec 14) (i : Fin 8) (h : off.toNat = 0x100 + 4 * i.val) :
    regAt off = .c i := by
  simp (disch := omega) only [regAt, if_neg, if_pos, finOfNat_eq i]

theorem regAt_rmin (off : BitVec 14) (i : Fin 8) (h : off.toNat = 0x120 + 4 * i.val) :
    regAt off = .rmin i := by
  simp (disch := omega) only [regAt, if_neg, if_pos, finOfNat_eq i]

theorem regAt_rmax (off : BitVec 14) (i : Fin 8) (h : off.toNat = 0x140 + 4 * i.val) :
    regAt off = .rmax i := by
  simp (disch := omega) only [regAt, if_neg, if_pos, finOfNat_eq i]

theorem regAt_q (off : BitVec 14) (i : Fin 8) (h : off.toNat = 0x160 + 4 * i.val) :
    regAt off = .q i := by
  simp (disch := omega) only [regAt, if_neg, if_pos, finOfNat_eq i]

theorem regAt_v (off : BitVec 14) (j : Fin 192) (h : off.toNat = 0x400 + 4 * j.val) :
    regAt off = .v j := by
  simp (disch := omega) only [regAt, if_neg, if_pos, finOfNat_eq j]

theorem regAt_mean (off : BitVec 14) (j : Fin 192) (h : off.toNat = 0x1000 + 4 * j.val) :
    regAt off = .mean j := by
  simp (disch := omega) only [regAt, if_neg, if_pos, finOfNat_eq j]

theorem regAt_basis (off : BitVec 14) (i : Fin 8) (j : Fin 192)
    (h : off.toNat = 0x2000 + 4 * (192 * i.val + j.val)) : regAt off = .basis i j := by
  simp (disch := omega) only [regAt, if_neg, if_pos, finOfNat_eq i, finOfNat_eq j]

theorem regAt_reserved (off : BitVec 14)
    (h : (0x03C ≤ off.toNat ∧ off.toNat ≤ 0x0FC) ∨ (0x184 ≤ off.toNat ∧ off.toNat ≤ 0x3FC)
      ∨ (0x700 ≤ off.toNat ∧ off.toNat ≤ 0xFFC) ∨ (0x1300 ≤ off.toNat ∧ off.toNat ≤ 0x1FFC)
      ∨ 0x3800 ≤ off.toNat) : regAt off = .reserved := by
  simp (disch := omega) only [regAt, if_neg]

/-- The aligned configuration offsets are six single registers. -/
theorem regAt_config (off : BitVec 14) (ha : off.toNat % 4 = 0)
    (h : 0x020 ≤ off.toNat ∧ off.toNat ≤ 0x034) : (regAt off).isConfig = true := by
  have hoff : off = 0x020 ∨ off = 0x024 ∨ off = 0x028 ∨ off = 0x02C ∨ off = 0x030
      ∨ off = 0x034 := by bv_omega
  rcases hoff with rfl | rfl | rfl | rfl | rfl | rfl <;> rfl

/-- The aligned datapath offsets: the four banks of eight, REC, and the block vector. -/
theorem regAt_datapath (off : BitVec 14) (ha : off.toNat % 4 = 0)
    (h : (0x100 ≤ off.toNat ∧ off.toNat ≤ 0x180) ∨ (0x400 ≤ off.toNat ∧ off.toNat < 0x700)) :
    (regAt off).isDatapath = true := by
  rcases h with h | h
  · obtain ⟨i, hi⟩ : ∃ i : Fin 8, off.toNat / 4 % 8 = i.val := ⟨⟨_, Nat.mod_lt _ (by decide)⟩, rfl⟩
    have hbank : off.toNat = 0x100 + 4 * i.val ∨ off.toNat = 0x120 + 4 * i.val
        ∨ off.toNat = 0x140 + 4 * i.val ∨ off.toNat = 0x160 + 4 * i.val ∨ off = 0x180 := by
      bv_omega
    rcases hbank with h | h | h | h | rfl
    · rw [regAt_c off i h]; rfl
    · rw [regAt_rmin off i h]; rfl
    · rw [regAt_rmax off i h]; rfl
    · rw [regAt_q off i h]; rfl
    · rfl
  · rw [regAt_v off ⟨(off.toNat - 0x400) / 4, by omega⟩ (by simp only; omega)]
    rfl

/-- The frozen registers of the window: CMD, configuration and datapath (10_state.md R35). -/
theorem regAt_frozen (off : BitVec 14) (ha : off.toNat % 4 = 0)
    (h : off = 0x018 ∨ (0x020 ≤ off.toNat ∧ off.toNat ≤ 0x034)
      ∨ (0x100 ≤ off.toNat ∧ off.toNat ≤ 0x180) ∨ (0x400 ≤ off.toNat ∧ off.toNat < 0x700)) :
    (regAt off).isFrozen = true := by
  rcases h with rfl | h | h
  · rfl
  · simp [Reg.isFrozen, regAt_config off ha h]
  · simp [Reg.isFrozen, regAt_datapath off ha h]

/-! ### Host accesses as steps -/

theorem step_host (s : State) (act : HostAct) (rest : List Event)
    (he : s.events = .host act :: rest) : step s = land act { s with events := rest } := by
  simp only [step, nextEvent, he]

theorem step_both (s : State) (act : HostAct) (rest : List Event)
    (he : s.events = .both act :: rest) :
    step s = thenTick (land act { s with events := rest }) := by
  simp only [step, nextEvent, he]

theorem step_during (s : State) (w : Word) (act : HostAct) (rest : List Event)
    (he : s.events = .during w act :: rest) :
    step s = landDuring w act { s with events := rest } := by
  simp only [step, nextEvent, he]

theorem portTakes_word (off : BitVec 14) (ha : off.toNat % 4 = 0) : portTakes off 4 = true := by
  simp [portTakes, ha]

/-- A word write that issues no command is a register write, acknowledged. -/
theorem land_regWrite (s : State) (off : BitVec 14) (w : Word) (ha : off.toNat % 4 = 0)
    (hc : off = cmdOffset → s.busy = true) :
    land (.regWrite off 4 w) s = .next { writeReg (regAt off) w s with reply := .ack } := by
  have hnone : issuedWord (.regWrite off 4 w) s = none :=
    if_neg fun ⟨_, ho, _, hb⟩ => by simp [hc ho] at hb
  simp only [land, landAct, hnone, hostAct, portTakes_word off ha, if_true]

/-- A word read of the window. -/
theorem land_regRead (s : State) (off : BitVec 14) (ha : off.toNat % 4 = 0) :
    land (.regRead off 4) s
      = .next { (readReg (regAt off) s).2 with reply := .word (readReg (regAt off) s).1 } := by
  simp only [land, landAct, issuedWord, hostAct, portTakes_word off ha, if_true]

/-- CMD stands at its offset only. -/
theorem ne_cmdOffset (off : BitVec 14) (h : regAt off ≠ .cmd) : off ≠ cmdOffset := by
  rintro rfl
  exact h rfl

theorem writeReg_frozen (r : Reg) (w : Word) (s : State) (hr : s.resetPin = false)
    (hb : s.busy = true) (hf : r.isFrozen = true) :
    writeReg r w s = { s with wign := true } := by
  simp [writeReg, hr, hb, hf]

theorem writeReg_stored (r : Reg) (w : Word) (s : State) (hr : s.resetPin = false)
    (h : s.busy = false ∨ r.isFrozen = false) : writeReg r w s = storeReg r w s := by
  rcases h with h | h <;> simp [writeReg, hr, h]

/-- A word write to a register other than CMD that is not ignored stores, as one step. -/
theorem land_stores (s : State) (off : BitVec 14) (w : Word) (r : Reg) (hreg : regAt off = r)
    (hcmd : r ≠ .cmd) (ha : off.toNat % 4 = 0) (hr : s.resetPin = false)
    (h : s.busy = false ∨ r.isFrozen = false) :
    land (.regWrite off 4 w) s = .next { storeReg r w s with reply := .ack } := by
  subst hreg
  rw [land_regWrite s off w ha fun ho => absurd ho (ne_cmdOffset off hcmd),
    writeReg_stored (regAt off) w s hr h]

theorem step_stores (s : State) (off : BitVec 14) (w : Word) (rest : List Event) (r : Reg)
    (he : s.events = .host (.regWrite off 4 w) :: rest) (hreg : regAt off = r)
    (hcmd : r ≠ .cmd) (ha : off.toNat % 4 = 0) (hr : s.resetPin = false)
    (h : s.busy = false ∨ r.isFrozen = false) :
    step s = .next { storeReg r w { s with events := rest } with reply := .ack } := by
  rw [step_host s _ rest he]
  exact land_stores { s with events := rest } off w r hreg hcmd ha hr h

/-! ### What the banks hold after a write (10_state.md R40 to R45) -/

theorem getElem_set_fin {n : Nat} (u : Vector Word n) (i i' : Fin n) (w : Word) :
    (u.set i w)[i'] = if i' = i then w else u[i'] := by
  simp [Vector.getElem_set, Fin.ext_iff, eq_comm]

theorem Codes.get_set_same (q : Codes) (i : Fin 8) (w : Word) :
    (q.set i w).get i = w.toNat % 2 ^ codeWidth i := by
  fin_cases i <;> exact BitVec.toNat_setWidth _ _

theorem Codes.get_set_ne (q : Codes) (i i' : Fin 8) (w : Word) (h : i' ≠ i) :
    (q.set i w).get i' = q.get i' := by
  revert h
  fin_cases i <;> fin_cases i' <;> simp [Codes.get, Codes.set]

/-- The codes after a write of one, by the widths of 10_state.md R44. -/
theorem Codes.get_set (q : Codes) (i i' : Fin 8) (w : Word) :
    (q.set i w).get i'
      = if i' = i then w.toNat % 2 ^ (#v[8, 8, 4, 4, 2, 2, 2, 2][i]) else q.get i' := by
  have hwidth : codeWidth i = #v[8, 8, 4, 4, 2, 2, 2, 2][i] := by fin_cases i <;> rfl
  split
  · next heq => rw [heq, Codes.get_set_same, hwidth]
  · next hne => exact Codes.get_set_ne q i i' w hne

theorem Codes.get_lt (q : Codes) (i : Fin 8) : q.get i < 2 ^ codeWidth i := by
  fin_cases i <;> exact BitVec.isLt _

/-! ### The words registers read as (10_state.md R22 to R32, R44) -/

theorem toNat_append_eq_add {m n : Nat} (x : BitVec m) (y : BitVec n) :
    (x ++ y).toNat = x.toNat * 2 ^ n + y.toNat := by
  rw [BitVec.toNat_append, ← Nat.shiftLeft_add_eq_or_of_lt y.isLt, Nat.shiftLeft_eq]

theorem paramWord_toNat (s : State) :
    s.paramWord.toNat = 2 ^ 24 * 8 + 2 ^ 16 * 8 + s.build.maxBlocks % 2 ^ 16 := by
  simp only [State.paramWord, toNat_append_eq_add, BitVec.ofNat_eq_ofNat, BitVec.toNat_ofNat]
  omega

theorem ctrlWord_toNat (s : State) : s.ctrlWord.toNat = s.ie.toNat := by
  simp only [State.ctrlWord, toNat_append_eq_add, BitVec.toNat_ofBool, BitVec.ofNat_eq_ofNat,
    BitVec.toNat_ofNat]
  omega

theorem statusWord_toNat (s : State) :
    s.statusWord.toNat = (s.inflight.isSome).toNat + 2 * s.done.toNat + 4 * s.numerr.toNat
      + 8 * s.wign.toNat + 256 * s.err.toNat := by
  simp only [State.statusWord, State.busy, toNat_append_eq_add, BitVec.toNat_ofBool,
    BitVec.ofNat_eq_ofNat, BitVec.toNat_ofNat]
  omega

theorem pktLen_toNat (s : State) :
    s.pktLen.toNat = (64 + 4 * (s.tileBw.toNat * s.tileBh.toNat)) % 2 ^ 32 :=
  BitVec.toNat_ofNat _ _

theorem regValue_q_toNat (i : Fin 8) (s : State) : (regValue (.q i) s).toNat = s.q.get i := by
  have hw : codeWidth i ≤ 32 := by fin_cases i <;> decide
  have hlt : s.q.get i < 2 ^ 32 := (s.q.get_lt i).trans_le (Nat.pow_le_pow_right (by decide) hw)
  rw [regValue, BitVec.toNat_ofNat, Nat.mod_eq_of_lt hlt]

/-! ### Reads (10_state.md R36) -/

theorem regValue_with_events (r : Reg) (s : State) (ev : List Event) :
    regValue r { s with events := ev } = regValue r s := by
  cases r <;> rfl

theorem readReg_free (r : Reg) (s : State) (hb : s.busy = true) (hd : r.isDatapath = true) :
    readReg r s = (Config.unspecified s.draws, { s with draws := s.draws + 1 }) := by
  simp [readReg, readIsFree, hb, hd]

theorem readReg_current (r : Reg) (s : State) (hr : s.resetPin = false)
    (h : ¬ (s.busy = true ∧ r.isDatapath = true)) : readReg r s = (regValue r s, s) := by
  simp [readReg, readIsFree, hr, h]

/-! ### The engine's work beside a STATUS write (10_state.md R26) -/

/-- What is left in flight after a piece of work hangs on what was in flight and on the platform
only. -/
theorem engineTick_inflight_congr (s t : State) (hi : t.inflight = s.inflight)
    (hb : t.build = s.build) : (engineTick t).inflight = (engineTick s).inflight := by
  have hans : t.answer = s.answer := by
    funext dir a
    simp only [State.answer, hb]
  cases hf : s.inflight with
  | none => rw [engineTick_idle s hf, engineTick_idle t (hi.trans hf), hi]
  | some ops =>
    cases ops with
    | nil => simp only [engineTick, hi, hf, complete_inflight]
    | cons op rest =>
      rcases doOp_cases op s with ⟨hs, hacc⟩ | ⟨d, a, hacc, hn, hs⟩ | ⟨d, a, hacc, hn, hs⟩
      · have ht := doOp_of_answered op t fun dir a h => hans ▸ hacc dir a h
        simp only [engineTick, hi, hf, hs, ht]
      · have ht := doOp_of_refused op t d a hacc (hans ▸ hn)
        simp only [engineTick, hi, hf, hs, ht, raiseError_inflight]
      · have ht := doOp_of_silent op t d a hacc (hans ▸ hn)
        simp only [engineTick, hi, hf, hs, ht]

/-- A piece of work that ends a command, with or without error, sets DONE (30_encoding.md R91). -/
theorem engineTick_done (s : State) (hb : s.inflight ≠ none) (hi : (engineTick s).inflight = none) :
    (engineTick s).done = true := by
  rcases engineTick_cases s with ⟨h, _⟩ | ⟨_, h⟩ | ⟨_, _, _, h, _⟩ | ⟨_, _, _, _, _, _, _, h⟩
    | ⟨_, _, _, _, _, _, _, h⟩
  · exact absurd h hb
  · rw [h]; rfl
  · rw [h] at hi; cases hi
  · rw [h]; rfl
  · rw [h] at hi; exact absurd hi hb

/-! ### The statements about the window -/

/-- Settles O46, range by range. -/
theorem windowMapFollowsTheTable : Obligations.WindowMapFollowsTheTable := by
  have hoff : ∀ n, n < 2 ^ 14 → (BitVec.ofNat 14 n).toNat = n :=
    fun n hn => (BitVec.toNat_ofNat n 14).trans (Nat.mod_eq_of_lt hn)
  refine ⟨rfl, rfl, rfl, rfl, rfl, rfl, rfl, rfl, rfl, rfl, rfl, rfl, rfl, rfl, rfl, rfl,
    fun i => ?_, fun j => ?_, fun i j => ?_, fun o _ h => regAt_reserved o h⟩
  · exact ⟨regAt_c _ i (hoff _ (by omega)), regAt_rmin _ i (hoff _ (by omega)),
      regAt_rmax _ i (hoff _ (by omega)), regAt_q _ i (hoff _ (by omega))⟩
  · exact ⟨regAt_v _ j (hoff _ (by omega)), regAt_mean _ j (hoff _ (by omega))⟩
  · exact regAt_basis _ i j (hoff _ (by omega))

/-- Settles O47: a frozen register's write only sets WIGN, and an idle CORE stores. -/
theorem writesWhileBusyAreIgnored : Obligations.WritesWhileBusyAreIgnored := by
  refine ⟨fun s off w rest he ha hb hr hrange => ?_, fun s off w rest he hb hr => ?_⟩
  · rw [step_host s _ rest he, land_regWrite { s with events := rest } off w ha fun _ => hb,
      writeReg_frozen _ w { s with events := rest } hr hb (regAt_frozen off ha hrange)]
  · have hstore : ∀ r, regAt off = r → r ≠ .cmd → off.toNat % 4 = 0 →
        step s = .next { storeReg r w { s with events := rest } with reply := .ack } :=
      fun r hreg hcmd ha => step_stores s off w rest r he hreg hcmd ha hr (.inl hb)
    have hlow : w.extractLsb' 0 16 = w.setWidth 16 :=
      (BitVec.setWidth_eq_extractLsb' (by decide)).symm
    simp only [hlow]
    refine ⟨?_, ?_, ?_, ?_, ?_, ?_, ?_, fun i => ?_, fun j h => ?_⟩
    · rintro rfl; exact hstore .tileBw rfl nofun rfl
    · rintro rfl; exact hstore .tileBh rfl nofun rfl
    · rintro rfl; exact hstore .pixBase rfl nofun rfl
    · rintro rfl; exact hstore .pixStride rfl nofun rfl
    · rintro rfl; exact hstore .pktBase rfl nofun rfl
    · rintro rfl; exact hstore .pktBuflen rfl nofun rfl
    · rintro rfl; exact hstore .record rfl nofun rfl
    · have ha : ∀ base, base % 4 = 0 → off.toNat = base + 4 * i.val → off.toNat % 4 = 0 := by omega
      exact ⟨fun h => ⟨_, hstore (.c i) (regAt_c off i h) nofun (ha _ rfl h),
          fun i' => getElem_set_fin _ i i' w⟩,
        fun h => ⟨_, hstore (.rmin i) (regAt_rmin off i h) nofun (ha _ rfl h),
          fun i' => getElem_set_fin _ i i' w⟩,
        fun h => ⟨_, hstore (.rmax i) (regAt_rmax off i h) nofun (ha _ rfl h),
          fun i' => getElem_set_fin _ i i' w⟩,
        fun h => ⟨_, hstore (.q i) (regAt_q off i h) nofun (ha _ rfl h),
          fun i' => Codes.get_set _ i i' w⟩⟩
    · exact ⟨_, hstore (.v j) (regAt_v off j h) nofun (by omega),
        fun j' => getElem_set_fin _ j j' w⟩

/-- Settles O48: no such register is frozen, and none stores. -/
theorem readOnlyWritesHaveNoEffect : Obligations.ReadOnlyWritesHaveNoEffect := by
  intro s off w rest he ha hro
  have hkind : regAt off ≠ .cmd ∧ (regAt off).isFrozen = false
      ∧ ∀ t, storeReg (regAt off) w t = t := by
    rcases hro with h | ⟨j, h⟩ | ⟨i, j, h⟩
    · simp only [List.mem_cons, List.not_mem_nil, or_false] at h
      rcases h with h | h | h | h | h | h <;> rw [h] <;> exact ⟨nofun, rfl, fun _ => rfl⟩
    · rw [h]; exact ⟨nofun, rfl, fun _ => rfl⟩
    · rw [h]; exact ⟨nofun, rfl, fun _ => rfl⟩
  obtain ⟨hcmd, hfree, hstore⟩ := hkind
  have hwrite : ∀ t, writeReg (regAt off) w t = t := by
    intro t
    rcases writeReg_cases (regAt off) w t with ⟨_, h⟩ | ⟨_, _, hf, _⟩ | ⟨_, _, h⟩
    · exact h
    · rw [hfree] at hf; cases hf
    · exact h.trans (hstore t)
  rw [step_host s _ rest he,
    land_regWrite { s with events := rest } off w ha fun ho => absurd ho (ne_cmdOffset off hcmd),
    hwrite]

/-- Settles O49: a read draws at most an unspecified value, and each register's word. -/
theorem registerReadsHaveNoSideEffect : Obligations.RegisterReadsHaveNoSideEffect := by
  refine ⟨fun s off rest he ha hr => ⟨fun ⟨hb, hd⟩ => ?_, fun h => ?_⟩, fun s => ?_⟩
  · rw [step_host s _ rest he, land_regRead { s with events := rest } off ha,
      readReg_free (regAt off) { s with events := rest } hb hd]
  · rw [step_host s _ rest he, land_regRead { s with events := rest } off ha,
      readReg_current (regAt off) { s with events := rest } hr h, regValue_with_events]
  · exact ⟨rfl, rfl, paramWord_toNat s, ctrlWord_toNat s, statusWord_toNat s, rfl, rfl,
      BitVec.toNat_setWidth_of_le (by decide), BitVec.toNat_setWidth_of_le (by decide),
      rfl, rfl, rfl, rfl, pktLen_toNat s, rfl, rfl, fun _ => ⟨rfl, rfl, rfl⟩,
      regValue_q_toNat 0 s, regValue_q_toNat 1 s, regValue_q_toNat 2 s, regValue_q_toNat 3 s,
      regValue_q_toNat 4 s, regValue_q_toNat 5 s, regValue_q_toNat 6 s, regValue_q_toNat 7 s,
      fun _ => ⟨rfl, rfl⟩, fun _ _ => rfl⟩

/-- Settles O50: the write clears, and a completion after it in the same instant sets DONE again. -/
theorem statusWriteClearsWhatItNames : Obligations.StatusWriteClearsWhatItNames := by
  have hland : ∀ (s : State) (w : Word), s.resetPin = false →
      land (.regWrite 0x014 4 w) s = .next { clearStatus w s with reply := .ack } :=
    fun s w hr => land_stores s 0x014 w .status rfl nofun rfl hr (.inr rfl)
  refine ⟨fun s w rest he hr => ?_, fun s w rest he hr hb hend => ?_⟩
  · have hclear : ∀ flag bit : Bool, (flag && !bit) = if bit then false else flag := by decide
    rw [step_host s _ rest he, hland { s with events := rest } w hr, clearStatus,
      hclear, hclear, hclear]
  · rw [step_both s _ rest he, hland { s with events := rest } w hr]
    have hbusy : s.inflight ≠ none := by simpa [State.busy, Option.isSome_iff_ne_none] using hb
    have hidle : (engineTick s).inflight = none := by simpa [State.busy] using hend
    have hidle' := engineTick_inflight_congr s
      { clearStatus w { s with events := rest } with reply := .ack } rfl rfl
    rw [hidle] at hidle'
    exact ⟨_, rfl, engineTick_done _ hbusy hidle', congrArg Option.isSome hidle'⟩

/-! ### Soft reset (10_state.md R24, 70_reset_and_hazards.md R242) -/

/-- The effects of a body hang neither on the host side nor on CMD_LAST and DONE. -/
theorem opEffect_with_host (op : MicroOp) (s : State) (ev : List Event) (re : Reply) (d : Nat)
    (w : Word) (b : Bool) (f : Option (List MicroOp)) :
    opEffect op { s with
        events := ev, reply := re, draws := d, cmdLast := w, done := b, inflight := f }
      = { opEffect op s with
        events := ev, reply := re, draws := d, cmdLast := w, done := b, inflight := f } := by
  cases op with
  | read a => rfl
  | write a src => cases src <;> rfl
  | unit u => cases u <;> rfl

theorem effects_with_host (ops : List MicroOp) (s : State) (ev : List Event) (re : Reply) (d : Nat)
    (w : Word) (b : Bool) (f : Option (List MicroOp)) :
    effects ops { s with
        events := ev, reply := re, draws := d, cmdLast := w, done := b, inflight := f }
      = { effects ops s with
        events := ev, reply := re, draws := d, cmdLast := w, done := b, inflight := f } := by
  induction ops generalizing s with
  | nil => rfl
  | cons op ops ih => rw [effects_cons, effects_cons, opEffect_with_host, ih]

/-- A write to CTRL with bit 1 set is a soft reset, BUSY or not. -/
theorem land_softReset (s : State) (w : Word) (hr : s.resetPin = false)
    (hw : w.getLsbD 1 = true) :
    land (.regWrite 0x010 4 w) s = .next { coreReset s with reply := .ack } := by
  rw [land_stores s 0x010 w .ctrl rfl nofun rfl hr (.inr rfl), storeReg, writeCtrl, if_pos hw]

/-- The body of a command is that of the state before its acceptance: it is made of configuration
registers. -/
theorem body_accept (i : Instr) (w : Word) (s : State) (ev : List Event) (re : Reply) :
    i.body (accept w { s with events := ev, reply := re }) = i.body s := by
  cases i <;> rfl

/-- A command whose checks pass, taken up: its body is in flight. -/
theorem takeUp_of_checked (i : Instr) (cmd : Word) (s : State) (ev : List Event) (re : Reply)
    (hd : decode cmd = .ok i) (hc : i.CfgOk s) (ha : i.ArgOk s) (hz : i.SizeOk s)
    (hsp : BodyInSpace (i.body s)) :
    takeUp cmd { s with events := ev, reply := re }
      = { s with
          events := ev, reply := re, cmdLast := cmd, done := false
          inflight := some (i.body s), rbuf := [] } := by
  have hbody := body_accept i cmd s ev re
  have hz' : i.SizeOk (accept cmd { s with events := ev, reply := re }) := by cases i <;> exact hz
  have hstart := start_of_checked i (accept cmd { s with events := ev, reply := re }) hc ha hz'
    (hbody ▸ hsp)
  rw [hbody] at hstart
  rw [takeUp, hd]
  exact hstart

/-- An action while a command run whole is in flight finds a part of it performed. -/
theorem landDuring_whole (w : Word) (act : HostAct) (s : State) (hr : s.resetPin = false)
    (hi : s.inflight = none) (hg : s.grain = .whole) :
    landDuring w act s
      = thenFinish (land act (performPart (takeUp w { s with reply := .ack }))) := by
  rcases landDuring_cases w act s with ⟨hn, _⟩ | ⟨_, _, _, h⟩ | ⟨_, _, hg', _⟩
  · have hissued : issuedWord (.regWrite cmdOffset 4 w) s = some w :=
      if_pos ⟨rfl, rfl, hr, congrArg Option.isSome hi⟩
    rw [hissued] at hn
    cases hn
  · exact h
  · rw [hg] at hg'
    cases hg'

/-- Settles O51. The reset in flight finds the effects of a front of the body, of which only memory
and CBUF outlast it. -/
theorem softResetRestoresRegisters : Obligations.SoftResetRestoresRegisters := by
  refine ⟨fun s w rest he hr hw => ?_, fun s w rest he hr hw => ?_, ?_⟩
  · rw [step_host s _ rest he, land_softReset { s with events := rest } w hr hw]
    simp only [coreReset, State.resetOn, hr]
  · rw [step_stores s 0x010 w rest .ctrl he rfl nofun rfl hr (.inr rfl)]
    simp only [storeReg, writeCtrl, hw, if_false, Bool.false_eq_true]
  · intro s cmd w i rest he hidle hr hg hw hd hc ha hz hsp hans
    obtain ⟨pre, post, hsplit, hlen, hpart⟩ := performPart_of_answered (i.body s)
      { s with events := rest, reply := .ack, cmdLast := cmd, done := false, rbuf := [] } hans
    have hlands := landDuring_whole cmd (.regWrite 0x010 4 w) { s with events := rest } hr hidle hg
    have heff := effects_with_host pre { s with rbuf := [] } rest .ack (s.draws + 1) cmd false
    have hside := effects_hostSide pre { s with rbuf := [] }
    simp only [State.hostSide, HostSide.mk.injEq] at hside
    obtain ⟨_, _, _, hbuild, hpin, _, _, _, hgrain⟩ := hside
    have hout := hpin.trans hr
    refine ⟨pre, post, hsplit, hlen, ?_⟩
    rw [step_during s cmd _ rest he, hlands,
      takeUp_of_checked i cmd s rest .ack hd hc ha hz hsp, hpart, heff,
      land_softReset _ w ?_ hw]
    · simp only [thenFinish, finish, coreReset, State.resetOn, hbuild, hout, hgrain]
    · exact hout

/-- Settles O52, register by register. -/
theorem resetValuesOfRegisters : Obligations.ResetValuesOfRegisters := by
  have hzero : ∀ {n : Nat} (i : Fin n), (Vector.replicate n (0 : Word))[i] = 0 :=
    fun i => Vector.getElem_replicate i.isLt
  refine ⟨rfl, rfl, rfl, rfl, rfl, rfl, rfl, rfl, rfl, rfl, rfl, fun j => hzero j,
    fun i => ⟨hzero i, hzero i, hzero i, ?_⟩, rfl, rfl, rfl, rfl, rfl⟩
  fin_cases i <;> rfl

/-- Settles O57: memory lists nothing, CBUF has its size, and nothing is in flight. -/
theorem resetMeetsInvariant : Obligations.ResetMeetsInvariant where
  memWf := rfl
  memInSpace := by simp [Memory.InSpace, State.reset, State.resetOn]
  cbufSize := List.length_replicate
  errCode := by decide
  bodyInSpace := nofun
  busyNotDone := fun h => absurd rfl h
  idleEmpty := fun _ => rfl
  heldInReset := nofun

end Sys2Proof.Machine
end

section
/-! SUPPORT. Every step keeps the invariant `State.Inv`: the register and memory updates of the
host, one piece of the engine's work, and the start of a command each keep it, and a command run whole is
its pieces in a row (10_state.md R48), so nothing more is to be shown of bodies. -/

namespace Sys2Proof.Machine

/-! ### What the invariant reads -/

/-- The fields of a state that `State.Inv` speaks of. -/
structure InvFields where
  mem : Memory
  cbuf : List Coeffs
  build : Build
  err : BitVec 4
  inflight : Option (List MicroOp)
  done : Bool
  rbuf : List Byte
  resetPin : Bool

/-- What the invariant reads of a state. -/
def State.invFields (s : State) : InvFields :=
  ⟨s.mem, s.cbuf, s.build, s.err, s.inflight, s.done, s.rbuf, s.resetPin⟩

/-- An update of other fields keeps the invariant. -/
theorem State.Inv.of_fields_eq {s t : State} (hs : s.Inv) (h : t.invFields = s.invFields) :
    t.Inv := by
  simp only [State.invFields, InvFields.mk.injEq] at h
  obtain ⟨hmem, hcbuf, hbuild, herr, hinflight, hdone, hrbuf, hpin⟩ := h
  constructor
  · exact hmem ▸ hs.memWf
  · exact hmem ▸ hs.memInSpace
  · rw [hcbuf, hbuild, hs.cbufSize]
  · exact herr ▸ hs.errCode
  · exact hinflight ▸ hs.bodyInSpace
  · exact hinflight ▸ hdone ▸ hs.busyNotDone
  · exact hinflight ▸ hrbuf ▸ hs.idleEmpty
  · exact hinflight ▸ hdone ▸ hpin ▸ hs.heldInReset

/-- A command is in flight only out of reset (70_reset_and_hazards.md R241). -/
theorem State.Inv.resetPin_of_busy {s : State} (hs : s.Inv) (hb : s.inflight ≠ none) :
    s.resetPin = false :=
  Bool.eq_false_iff.mpr fun hp => hb (hs.heldInReset hp).1

/-! ### Bodies inside the address space (20_memory.md R63) -/

theorem BodyInSpace.nil : BodyInSpace [] := nofun

theorem BodyInSpace.cons_iff (op : MicroOp) (ops : List MicroOp) :
    BodyInSpace (op :: ops)
      ↔ (∀ dir a, op.access = some (dir, a) → a < 2 ^ 32) ∧ BodyInSpace ops := by
  simp only [BodyInSpace, accessSeq_cons, List.mem_append, Option.mem_toList, or_imp,
    forall_and, Prod.forall]

/-! ### The engine -/

theorem ErrCode.bits_le (code : ErrCode) : code.bits.toNat ≤ 6 := by
  cases code <;> decide

/-- The completion of a command, with or without error, keeps the invariant (30_encoding.md R91). -/
theorem State.Inv.complete {s : State} (hs : s.Inv) (hout : s.resetPin = false) (code : ErrCode) :
    (complete code s).Inv where
  memWf := hs.memWf
  memInSpace := hs.memInSpace
  cbufSize := hs.cbufSize
  errCode := code.bits_le
  bodyInSpace := nofun
  busyNotDone := fun h => absurd rfl h
  idleEmpty := fun _ => rfl
  heldInReset := fun h => absurd hout (by simpa using h)

theorem State.Inv.raiseError {s : State} (hs : s.Inv) (hout : s.resetPin = false) (code : ErrCode)
    (a : Nat) : (raiseError code a s).Inv :=
  State.Inv.complete (s := { s with faultAddr := BitVec.ofNat 32 a }) (hs.of_fields_eq rfl) hout code

/-- A body inside the address space may go in flight, in place of one in flight or of nothing, out
of reset with DONE clear. -/
theorem State.Inv.withBody {s : State} (hs : s.Inv) (hout : s.resetPin = false)
    (hdone : s.done = false) (ops : List MicroOp) (hsp : BodyInSpace ops) (l : List Byte) :
    { s with inflight := some ops, rbuf := l }.Inv where
  memWf := hs.memWf
  memInSpace := hs.memInSpace
  cbufSize := hs.cbufSize
  errCode := hs.errCode
  bodyInSpace := by rintro _ ⟨⟩; exact hsp
  busyNotDone := fun _ => hdone
  idleEmpty := nofun
  heldInReset := fun h => absurd hout (by simpa using h)

@[simp] theorem opEffect_err (op : MicroOp) (s : State) : (opEffect op s).err = s.err := by
  rw [opEffect_frame]

@[simp] theorem opEffect_done (op : MicroOp) (s : State) : (opEffect op s).done = s.done := by
  rw [opEffect_frame]

@[simp] theorem opEffect_resetPin (op : MicroOp) (s : State) :
    (opEffect op s).resetPin = s.resetPin := by rw [opEffect_frame]

/-- A piece of a body whose address is below 2^32 keeps memory canonical and inside the
address space (20_memory.md R60, R61). -/
theorem opEffect_mem_wf_inSpace (op : MicroOp) (s : State)
    (hop : ∀ dir a, op.access = some (dir, a) → a < 2 ^ 32) (hwf : s.mem.wf = true)
    (hsp : s.mem.InSpace) : (opEffect op s).mem.wf = true ∧ (opEffect op s).mem.InSpace := by
  rcases opEffect_mem op s with h | ⟨a, v, hacc, h⟩ <;> rw [h]
  · exact ⟨hwf, hsp⟩
  · exact ⟨Memory.wf_write _ a v hwf, Memory.inSpace_write _ a v hsp (hop _ a hacc)⟩

/-- While BUSY a piece of a body keeps the invariant; an idle engine would be left with the byte it
read. -/
theorem State.Inv.opEffect {s : State} (hs : s.Inv) (hb : s.inflight ≠ none) (op : MicroOp)
    (hop : ∀ dir a, op.access = some (dir, a) → a < 2 ^ 32) : (opEffect op s).Inv := by
  obtain ⟨hwf, hsp⟩ := opEffect_mem_wf_inSpace op s hop hs.memWf hs.memInSpace
  constructor
  · exact hwf
  · exact hsp
  · rw [opEffect_cbuf_length, opEffect_build, hs.cbufSize]
  · rw [opEffect_err]; exact hs.errCode
  · rw [opEffect_inflight]; exact hs.bodyInSpace
  · rw [opEffect_inflight, opEffect_done]; exact hs.busyNotDone
  · rw [opEffect_inflight]; exact fun h => absurd h hb
  · rw [opEffect_inflight, opEffect_done, opEffect_resetPin]; exact hs.heldInReset

/-- A piece of the engine's work keeps the invariant. -/
theorem State.Inv.engineTick {s : State} (hs : s.Inv) : (engineTick s).Inv := by
  rcases engineTick_cases s with ⟨_, h⟩ | ⟨hf, h⟩ | ⟨op, rest, hf, h, _⟩
    | ⟨_, _, _, a, hf, _, _, h⟩ | ⟨_, _, _, _, _, _, _, h⟩ <;> rw [h]
  · exact hs
  · exact hs.complete (hs.resetPin_of_busy (by simp [hf])) .ok
  · have hb : s.inflight ≠ none := by simp [hf]
    obtain ⟨hop, hrest⟩ := (BodyInSpace.cons_iff op rest).mp (hs.bodyInSpace _ hf)
    have ht := hs.opEffect hb op hop
    have hbt : (Machine.opEffect op s).inflight ≠ none := by rwa [opEffect_inflight]
    exact ht.withBody (ht.resetPin_of_busy hbt) (ht.busyNotDone hbt) rest hrest _
  · exact hs.raiseError (hs.resetPin_of_busy (by simp [hf])) .bus a
  · exact hs

theorem State.Inv.engineTicks {s : State} (hs : s.Inv) (n : Nat) : (engineTicks n s).Inv := by
  induction n generalizing s with
  | zero => exact hs
  | succ n ih => exact ih hs.engineTick

/-- A command run to its end at once is its pieces in a row (10_state.md R48). -/
theorem State.Inv.finish {s : State} (hs : s.Inv) : (finish s).Inv := by
  rw [← engineTicks_eq_finish s _ le_rfl]
  exact hs.engineTicks _

theorem State.Inv.performPart {s : State} (hs : s.Inv) : (performPart s).Inv := by
  unfold Machine.performPart
  split
  · exact hs
  · have hdrawn : { s with draws := s.draws + 1 }.Inv := hs.of_fields_eq rfl
    exact hdrawn.engineTicks _

/-! ### Acceptance and start of a command -/

/-- Acceptance of a word by a CORE out of reset keeps the invariant (30_encoding.md R87). -/
theorem State.Inv.accept {s : State} (hs : s.Inv) (hout : s.resetPin = false) (w : Word) :
    (accept w s).Inv := by
  have hcleared : { s with cmdLast := w, done := false }.Inv :=
    ⟨hs.memWf, hs.memInSpace, hs.cbufSize, hs.errCode, hs.bodyInSpace, fun _ => rfl, hs.idleEmpty,
      fun h => absurd hout (by simpa using h)⟩
  exact hcleared.withBody hout rfl [] BodyInSpace.nil s.rbuf

/-- The checks of a command put a body in flight only if all its addresses are below 2^32
(20_memory.md R63). -/
theorem State.Inv.start {s : State} (hs : s.Inv) (hb : s.inflight ≠ none) (i : Instr) :
    (start i s).Inv := by
  have hout := hs.resetPin_of_busy hb
  obtain ⟨sizeOk, _, he⟩ := start_eq i s
  rw [he]
  rcases startWith_cases (failedCheck s i.needsCfg i.blockIndex sizeOk) (i.body s) s
    with ⟨code, _, h⟩ | ⟨a, _, _, h⟩ | ⟨_, hsp, h⟩ <;> rw [h]
  · exact hs.complete hout code
  · exact hs.raiseError hout .addr a
  · exact hs.withBody hout (hs.busyNotDone hb) (i.body s) hsp []

theorem State.Inv.takeUp {s : State} (hs : s.Inv) (hout : s.resetPin = false) (w : Word) :
    (takeUp w s).Inv := by
  have hacc := hs.accept hout w
  rcases takeUp_cases w s with ⟨_, _, h⟩ | ⟨i, _, h⟩ <;> rw [h]
  · exact hacc.complete hout .opc
  · exact hacc.start nofun i

/-! ### The host -/

/-- Both resets leave an idle CORE with DONE clear, with the reset input asserted or not
(70_reset_and_hazards.md R241, R242). -/
theorem State.Inv.coreReset {s : State} (hs : s.Inv) (pin : Bool) (r : Reply) :
    { coreReset s with resetPin := pin, reply := r }.Inv where
  memWf := hs.memWf
  memInSpace := hs.memInSpace
  cbufSize := hs.cbufSize
  errCode := Nat.zero_le 6
  bodyInSpace := nofun
  busyNotDone := fun _ => rfl
  idleEmpty := fun _ => rfl
  heldInReset := fun _ => ⟨rfl, rfl⟩

/-- A clear of STATUS flags can only clear DONE (10_state.md R26). -/
theorem State.Inv.clearStatus {s : State} (hs : s.Inv) (w : Word) : (clearStatus w s).Inv where
  memWf := hs.memWf
  memInSpace := hs.memInSpace
  cbufSize := hs.cbufSize
  errCode := hs.errCode
  bodyInSpace := hs.bodyInSpace
  busyNotDone := fun h => by simp [hs.busyNotDone h]
  idleEmpty := hs.idleEmpty
  heldInReset := fun h => by simp [hs.heldInReset h]

theorem State.Inv.storeReg {s : State} (hs : s.Inv) (r : Reg) (w : Word) :
    (storeReg r w s).Inv := by
  cases r with
  | ctrl =>
    simp only [Machine.storeReg, writeCtrl]
    split
    · exact hs.coreReset s.resetPin s.reply
    · exact hs.of_fields_eq rfl
  | status => exact hs.clearStatus w
  | _ => exact hs.of_fields_eq rfl

theorem State.Inv.writeReg {s : State} (hs : s.Inv) (r : Reg) (w : Word) :
    (writeReg r w s).Inv := by
  rcases writeReg_cases r w s with ⟨_, h⟩ | ⟨_, _, _, h⟩ | ⟨_, _, h⟩ <;> rw [h]
  · exact hs
  · exact hs.of_fields_eq rfl
  · exact hs.storeReg r w

theorem State.Inv.memWrite {s : State} (hs : s.Inv) (a : Word) (v : Byte) :
    { s with mem := s.mem.write a.toNat v }.Inv :=
  ⟨Memory.wf_write _ _ v hs.memWf, Memory.inSpace_write _ _ v hs.memInSpace a.isLt, hs.cbufSize,
    hs.errCode, hs.bodyInSpace, hs.busyNotDone, hs.idleEmpty, hs.heldInReset⟩

/-- A host action other than an accepted CMD write keeps the invariant. -/
theorem State.Inv.hostAct {s : State} (hs : s.Inv) (act : HostAct) : (hostAct act s).Inv := by
  cases act with
  | regWrite off width w =>
    simp only [Machine.hostAct]
    split
    · exact (hs.writeReg (regAt off) w).of_fields_eq rfl
    · exact hs.of_fields_eq rfl
  | regRead off width =>
    simp only [Machine.hostAct]
    split
    · rcases readReg_cases (regAt off) s with h | h <;> rw [h] <;> exact hs.of_fields_eq rfl
    · exact hs.of_fields_eq rfl
  | busWrite addr width w => exact hs.of_fields_eq rfl
  | busRead addr width => exact hs.of_fields_eq rfl
  | memWrite a v => exact (hs.memWrite a v).of_fields_eq rfl
  | memRead a => exact hs.of_fields_eq rfl
  | assertReset => exact hs.coreReset true .ack
  | releaseReset => exact hs.coreReset false .ack

/-- A host action keeps the invariant, whether it issues a command or not. -/
theorem State.Inv.land {s t : State} (hs : s.Inv) (act : HostAct) (h : land act s = .next t) :
    t.Inv := by
  have haccept : ∀ w, issuedWord (HostAct.resolve s.build.mmioBase act) s = some w →
      s.resetPin = false ∧ (Machine.accept w { s with reply := .ack }).Inv := by
    intro w hw
    obtain ⟨_, hout, _⟩ := issuedWord_some _ s w hw
    have hack : { s with reply := Reply.ack }.Inv := hs.of_fields_eq rfl
    exact ⟨hout, hack.accept hout w⟩
  rcases land_cases act s with ⟨w, _, hw, _, he⟩ | ⟨w, i, hw, _, he⟩ | ⟨w, i, hw, _, he⟩ | ⟨_, he⟩
    <;> cases he.symm.trans h
  · obtain ⟨hout, hacc⟩ := haccept w hw
    exact hacc.complete hout .opc
  · exact ((haccept w hw).2.start nofun i).finish
  · exact (haccept w hw).2.start nofun i
  · exact hs.hostAct _

/-- A host action inside the command that the host issues keeps the invariant
(70_reset_and_hazards.md R242). -/
theorem State.Inv.landDuring {s t : State} (hs : s.Inv) (w : Word) (act : HostAct)
    (h : landDuring w act s = .next t) : t.Inv := by
  have hack : { s with reply := Reply.ack }.Inv := hs.of_fields_eq rfl
  rcases landDuring_cases w act s with ⟨_, he⟩ | ⟨hout, _, _, he⟩ | ⟨hout, _, _, he⟩ <;>
    rw [he] at h
  · exact (hs.hostAct _).land act h
  · obtain ⟨u, hu, rfl⟩ := thenFinish_eq_next _ _ h
    exact ((hack.takeUp hout w).performPart.land act hu).finish
  · exact (hack.takeUp hout w).land act h

theorem State.Inv.pollRound {s : State} (hs : s.Inv) (off : BitVec 14) (mask value : Word)
    (rest : List Event) : (pollRound off mask value s rest).Inv := by
  have hread := hs.hostAct (.regRead off 4)
  rcases pollRound_cases off mask value s rest with h | h <;> rw [h]
  · exact hread.of_fields_eq rfl
  · exact hread.engineTick

/-- Settles O58, over the cases of a step. -/
theorem everyStepKeepsInvariant : Obligations.EveryStepKeepsInvariant := by
  intro s t hs hstep
  have hnext : ∀ rest, { s with events := rest }.Inv := fun rest => hs.of_fields_eq rfl
  rcases step_cases s with ⟨_, he⟩ | ⟨rest, _, he⟩ | ⟨act, rest, _, he⟩ | ⟨act, rest, _, he⟩
    | ⟨off, mask, value, rest, _, he⟩ | ⟨w, act, rest, _, he⟩ <;> rw [he] at hstep
  · cases hstep; exact hs.engineTick
  · cases hstep; exact (hnext rest).engineTick
  · exact (hnext rest).land act hstep
  · obtain ⟨u, hu, rfl⟩ := thenTick_eq_next _ _ hstep
    exact ((hnext rest).land act hu).engineTick
  · cases hstep; exact hs.pollRound off mask value rest
  · exact (hnext rest).landDuring w act hstep

end Sys2Proof.Machine
end

section
/-! SUPPORT. Memory accesses (20_memory.md): the access sequence of every command (R64, R65), a load
stopped by a refused read (R67), and the accesses that the register port rejects (R70). -/

namespace Sys2Proof.Machine

/-! ### The access sequences (20_memory.md R64) -/

/-- The 192 accesses of block k, sample by sample (20_memory.md R65). -/
def State.blockAccesses (s : State) (d : Dir) (k : Nat) : List (Dir × Nat) :=
  (List.finRange 192).map fun j => (d, s.pixAddr k j)

/-- The 64 accesses of the packet header (44_packet.md R170). -/
def State.headerAccesses (s : State) (d : Dir) : List (Dir × Nat) :=
  (List.finRange 64).map fun b => (d, s.hdrAddr b)

/-- The 4 accesses of block k's record (44_packet.md R170). -/
def State.recordAccesses (s : State) (d : Dir) (k : Nat) : List (Dir × Nat) :=
  (List.finRange 4).map fun b => (d, s.recAddr k b)

/-- A list over the indices below n, with the indices as numbers. -/
theorem map_finRange_val {α : Type} (n : Nat) (f : Nat → α) :
    ((List.finRange n).map fun i => f i.val) = (List.range n).map f := by
  rw [← List.map_coe_finRange_eq_range, List.map_map]
  rfl

theorem State.blockAccesses_eq_range (s : State) (d : Dir) (k : Nat) :
    s.blockAccesses d k
      = (List.range 192).map fun j =>
          (d, s.pixBase.toNat + (8 * (k / s.tileBw.toNat) + (j % 64) / 8) * s.pixStride.toNat
            + 3 * (8 * (k % s.tileBw.toNat) + j % 8) + j / 64) :=
  map_finRange_val 192 fun j =>
    (d, s.pixBase.toNat + (8 * (k / s.tileBw.toNat) + (j % 64) / 8) * s.pixStride.toNat
      + 3 * (8 * (k % s.tileBw.toNat) + j % 8) + j / 64)

theorem State.headerAccesses_eq_range (s : State) (d : Dir) :
    s.headerAccesses d = (List.range 64).map fun b => (d, s.pktBase.toNat + b) :=
  map_finRange_val 64 fun b => (d, s.pktBase.toNat + b)

theorem State.recordAccesses_eq_range (s : State) (d : Dir) (k : Nat) :
    s.recordAccesses d k
      = (List.range 4).map fun b => (d, s.pktBase.toNat + 64 + 4 * k + b) :=
  map_finRange_val 4 fun b => (d, s.pktBase.toNat + 64 + 4 * k + b)

@[simp] theorem accessSeq_vecLoadOps (s : State) (k : Nat) :
    accessSeq (vecLoadOps s k) = s.blockAccesses .read k := by
  simp [vecLoadOps, State.blockAccesses, accessSeq_append]

@[simp] theorem accessSeq_vecStoreOps (s : State) (k : Nat) :
    accessSeq (vecStoreOps s k) = s.blockAccesses .write k := by
  simp [vecStoreOps, State.blockAccesses]

@[simp] theorem accessSeq_hdrLoadOps (s : State) :
    accessSeq (hdrLoadOps s) = s.headerAccesses .read := by
  simp [hdrLoadOps, State.headerAccesses, accessSeq_append]

@[simp] theorem accessSeq_hdrStoreOps (s : State) :
    accessSeq (hdrStoreOps s) = s.headerAccesses .write := by
  simp [hdrStoreOps, State.headerAccesses]

@[simp] theorem accessSeq_recLoadOps (s : State) (k : Nat) :
    accessSeq (recLoadOps s k) = s.recordAccesses .read k := by
  simp [recLoadOps, State.recordAccesses, accessSeq_append]

@[simp] theorem accessSeq_recStoreOps (s : State) (k : Nat) :
    accessSeq (recStoreOps s k) = s.recordAccesses .write k := by
  simp [recStoreOps, State.recordAccesses]

/-- Register steps before a body make no access. -/
@[simp] theorem accessSeq_unit_cons (u : UnitOp) (ops : List MicroOp) :
    accessSeq (.unit u :: ops) = accessSeq ops := rfl

/-- Pass 1 reads every block, then the header is written, then pass 2 writes every record
(45_tile.md R191). -/
theorem accessSeq_encTileOps (s : State) :
    accessSeq (encTileOps s)
      = (List.range s.blocks).flatMap (s.blockAccesses .read) ++ s.headerAccesses .write
          ++ (List.range s.blocks).flatMap (s.recordAccesses .write) := by
  simp [encTileOps, encPass1, encPass2, accessSeq_append, accessSeq_flatMap]

/-- The header is read, then each block's record is read and the block written (45_tile.md R192). -/
theorem accessSeq_decTileOps (s : State) :
    accessSeq (decTileOps s)
      = s.headerAccesses .read
          ++ (List.range s.blocks).flatMap fun k =>
              s.recordAccesses .read k ++ s.blockAccesses .write k := by
  simp [decTileOps, decBlock, accessSeq_append, accessSeq_flatMap]

/-- Settles O19, command by command. -/
theorem accessSequencesFollowTheTable : Obligations.AccessSequencesFollowTheTable := by
  intro s pix n block header record
  have hblock : ∀ d, s.blockAccesses d = block d := fun d => funext (s.blockAccesses_eq_range d)
  have hheader : ∀ d, s.headerAccesses d = header d := s.headerAccesses_eq_range
  have hrecord : ∀ d, s.recordAccesses d = record d := fun d => funext (s.recordAccesses_eq_range d)
  simp only [← hblock, ← hheader, ← hrecord]
  refine ⟨accessSeq_vecLoadOps s, accessSeq_vecStoreOps s, accessSeq_hdrStoreOps s,
    accessSeq_hdrLoadOps s, accessSeq_recStoreOps s, accessSeq_recLoadOps s,
    accessSeq_encTileOps s, accessSeq_decTileOps s, fun i hi => ?_⟩
  simp only [List.mem_cons, List.not_mem_nil, or_false] at hi
  rcases hi with rfl | rfl | rfl | rfl | rfl | rfl | rfl <;> rfl

/-! ### Loads stopped by a refused read (20_memory.md R67) -/

/-- A command whose checks pass and whose addresses are below 2^32, refused at one of its accesses,
has the effects of what stands before it and completes with BUS (60_exceptions.md R217). -/
theorem exec_of_refused (i : Instr) (s : State) (hc : i.CfgOk s) (ha : i.ArgOk s) (hz : i.SizeOk s)
    (hsp : BodyInSpace (i.body s)) (pre post : List MicroOp) (op : MicroOp) (d : Dir) (a : Nat)
    (hsplit : i.body s = pre ++ op :: post) (hans : BodyAnswered s pre)
    (hacc : op.access = some (d, a)) (href : s.answer d a = .refuses) :
    exec i s = .next (raiseError .bus a
      (effects pre { s with inflight := some (i.body s), rbuf := [] })) := by
  have hrun : ∀ t, t.answer = s.answer →
      runOps (i.body s) t = raiseError .bus a (effects pre t) := by
    intro t ht
    have hanswer : (effects pre t).answer d a = .refuses := by rw [effects_answer, ht, href]
    rw [hsplit, runOps_append _ _ t ((BodyAnswered.of_answer_eq ht pre).mpr hans)]
    exact runOps_of_refused op post _ d a hacc hanswer
  rw [exec_eq, start_of_checked i s hc ha hz hsp, finish]
  exact congrArg _ (hrun _ rfl)

/-- The body of a load is its reads, and after them the one piece that writes registers. -/
theorem body_of_load (i : Instr) (s : State)
    (hi : (∃ k, i = .vecLoad k) ∨ i = .hdrLoad ∨ ∃ k, i = .recLoad k) :
    ∃ (l : List Nat) (u : UnitOp), i.body s = (l.map fun a => .read a) ++ [.unit u] := by
  rcases hi with ⟨k, rfl⟩ | rfl | ⟨k, rfl⟩
  · exact ⟨(List.finRange 192).map (s.pixAddr k), .takeBlock, by rw [List.map_map]; rfl⟩
  · exact ⟨(List.finRange 64).map s.hdrAddr, .takeHeader, by rw [List.map_map]; rfl⟩
  · exact ⟨(List.finRange 4).map (s.recAddr k), .takeRecord, by rw [List.map_map]; rfl⟩

/-- What stands before an access in reads followed by a register step is reads only. -/
theorem reads_before_access (l : List Nat) (u : UnitOp) (pre post : List MicroOp) (op : MicroOp)
    (p : Dir × Nat) (hacc : op.access = some p)
    (h : (l.map fun a => .read a) ++ [.unit u] = pre ++ op :: post) :
    ∃ l' : List Nat, pre = l'.map fun a => .read a := by
  rcases List.eq_nil_or_concat post with rfl | ⟨front, last, rfl⟩
  · obtain ⟨_, hop⟩ := List.append_inj' h rfl
    cases hop
    cases hacc
  · rw [List.concat_eq_append, ← List.cons_append, ← List.append_assoc] at h
    obtain ⟨hreads, _⟩ := List.append_inj' h rfl
    obtain ⟨l', _, _, hpre, _⟩ := List.map_eq_append_iff.mp hreads
    exact ⟨l', hpre.symm⟩

/-- Settles O44: before the refused access only reads were performed, and they touch nothing but the
bytes held by the engine, which the completion drops. -/
theorem refusedLoadLeavesRegisters : Obligations.RefusedLoadLeavesRegisters := by
  intro i s pre post op d a hload hc ha hz hsp hsplit hans hacc href
  obtain ⟨l, u, hbody⟩ := body_of_load i s hload
  obtain ⟨l', rfl⟩ := reads_before_access l u pre post op _ hacc (hbody.symm.trans hsplit)
  rw [exec_of_refused i s hc ha hz hsp _ post op d a hsplit hans hacc href, effects_reads]
  rfl

/-! ### The port (20_memory.md R70) -/

theorem portTakes_odd (off : BitVec 14) (width : Nat) (h : width ≠ 4 ∨ off.toNat % 4 ≠ 0) :
    portTakes off width = false := by
  rcases h with h | h <;> simp [portTakes, h]

theorem land_regWrite_rejected (s : State) (off : BitVec 14) (width : Nat) (w : Word)
    (hp : portTakes off width = false) :
    land (.regWrite off width w) s = .next { s with reply := .portError } := by
  simp [land, landAct, issuedWord, hostAct, hp]

theorem land_regRead_rejected (s : State) (off : BitVec 14) (width : Nat)
    (hp : portTakes off width = false) :
    land (.regRead off width) s = .next { s with reply := .portError } := by
  simp [land, landAct, issuedWord, hostAct, hp]

/-- Settles O56: the port takes no such access, so it reaches no register. -/
theorem portRejectsOddAccesses : Obligations.PortRejectsOddAccesses := by
  intro s off width w rest hodd
  have hp := portTakes_odd off width hodd
  exact ⟨fun he => (step_host s _ rest he).trans (land_regWrite_rejected _ off width w hp),
    fun he => (step_host s _ rest he).trans (land_regRead_rejected _ off width hp)⟩

end Sys2Proof.Machine
end

section
/-! SUPPORT. The command word (30_encoding.md R80 to R94): its fields, which word is which
command, which words are illegal, and what the assembler of R92 makes of a mnemonic. -/

namespace Sys2Proof

/-! ### The fields of a word (30_encoding.md R80) -/

@[simp] theorem opField_append (r : BitVec 8) (k : BitVec 16) (op : BitVec 8) :
    opField (r ++ k ++ op) = op :=
  BitVec.extractLsb'_append_eq_right

@[simp] theorem kField_append (r : BitVec 8) (k : BitVec 16) (op : BitVec 8) :
    kField (r ++ k ++ op) = k :=
  (BitVec.extractLsb'_append_eq_of_le (by decide)).trans BitVec.extractLsb'_append_eq_right

@[simp] theorem rsvField_append (r : BitVec 8) (k : BitVec 16) (op : BitVec 8) :
    rsvField (r ++ k ++ op) = r :=
  (BitVec.extractLsb'_append_eq_of_le (by decide)).trans BitVec.extractLsb'_append_eq_left

/-- The three fields are the whole word. -/
theorem append_fields (w : Word) : rsvField w ++ kField w ++ opField w = w :=
  calc rsvField w ++ kField w ++ opField w
      = w.extractLsb' 8 24 ++ opField w :=
        congrArg (· ++ opField w) (BitVec.extractLsb'_append_extractLsb'_eq_extractLsb' rfl)
    _ = w.extractLsb' 0 32 := BitVec.extractLsb'_append_extractLsb'_eq_extractLsb' rfl
    _ = w := BitVec.extractLsb'_eq_self

/-- A word put together from its fields, told by each of them. -/
theorem eq_append_iff (w : Word) (r : BitVec 8) (k : BitVec 16) (op : BitVec 8) :
    w = r ++ k ++ op ↔ rsvField w = r ∧ kField w = k ∧ opField w = op := by
  constructor
  · rintro rfl
    exact ⟨rsvField_append r k op, kField_append r k op, opField_append r k op⟩
  · rintro ⟨rfl, rfl, rfl⟩
    exact (append_fields w).symm

/-- An opcode alone is a word with RSV = 0 and K = 0. -/
theorem setWidth_opcode (op : BitVec 8) :
    op.setWidth 32 = (0 : BitVec 8) ++ (0 : BitVec 16) ++ op :=
  BitVec.setWidth_eq_append (by decide)

/-- The mask of an indexed row clears K and keeps the other fields (30_encoding.md R83). -/
theorem and_indexedMask (w : Word) :
    w &&& 0xFF0000FF = rsvField w ++ 0#16 ++ opField w :=
  calc w &&& 0xFF0000FF
      = (rsvField w ++ kField w ++ opField w)
          &&& (BitVec.allOnes 8 ++ 0#16 ++ BitVec.allOnes 8) := by
        rw [append_fields]; rfl
    _ = (rsvField w &&& BitVec.allOnes 8) ++ (kField w &&& 0#16)
          ++ (opField w &&& BitVec.allOnes 8) := by rw [BitVec.and_append, BitVec.and_append]
    _ = rsvField w ++ 0#16 ++ opField w := by
        rw [BitVec.and_allOnes, BitVec.and_zero, BitVec.and_allOnes]

/-- A word matches an indexed row when its RSV is zero and its OP is the row's. -/
theorem and_indexedMask_eq_iff (w : Word) (op : BitVec 8) :
    w &&& 0xFF0000FF = op.setWidth 32 ↔ rsvField w = 0 ∧ opField w = op := by
  rw [and_indexedMask, setWidth_opcode, eq_append_iff, rsvField_append, kField_append,
    opField_append]
  simp

/-! ### The decoder (30_encoding.md R82 to R84) -/

/-- OP selects the row of the command with this opcode, and an indexed row takes the given index. -/
theorem instrOfOp_eq_some_iff (op k : Nat) (i : Instr) :
    instrOfOp op k = some i ↔ op = i.opcode.toNat ∧ i.blockIndex.getD k = k := by
  constructor
  · intro h
    unfold instrOfOp at h
    split at h <;> cases h <;> exact ⟨rfl, rfl⟩
  · rintro ⟨rfl, hk⟩
    cases i with
    | vecLoad j => exact congrArg (some ∘ Instr.vecLoad) hk.symm
    | vecStore j => exact congrArg (some ∘ Instr.vecStore) hk.symm
    | recStore j => exact congrArg (some ∘ Instr.recStore) hk.symm
    | recLoad j => exact congrArg (some ∘ Instr.recLoad) hk.symm
    | _ => rfl

/-- A word is a command's when OP selects it and the fields it does not use are zero. -/
theorem decode_eq_ok_iff (w : Word) (i : Instr) :
    decode w = .ok i ↔ instrOfOp (opField w).toNat (kField w).toNat = some i
      ∧ rsvField w = 0 ∧ (i.blockIndex = none → kField w = 0) := by
  constructor
  · intro h
    unfold decode at h
    split at h
    · cases h
    next j hrow =>
      split at h
      · cases h
      next hrsv =>
        split at h
        · cases h
        next hk =>
          cases h
          exact ⟨hrow, not_not.mp hrsv, fun hplain => not_not.mp fun hne => hk ⟨hplain, hne⟩⟩
  · rintro ⟨hrow, hrsv, hk⟩
    simp only [decode, hrow]
    rw [if_neg (not_not.mpr hrsv), if_neg fun ⟨hplain, hne⟩ => hne (hk hplain)]

/-- A word that is illegal is one that is no command's. -/
theorem exists_decode_eq_error_iff (w : Word) :
    (∃ e, decode w = .error e) ↔ ¬ ∃ i, decode w = .ok i := by
  cases decode w <;> simp

/-- Which commands have a word, said of the field K (30_encoding.md R81). -/
theorem wellFormed_iff (i : Instr) : i.wellFormed = true ↔ i.blockIndex.getD 0 < 2 ^ 16 := by
  unfold Instr.wellFormed
  cases i.blockIndex <;> simp

/-- K stands for the indices below 2^16 only, each in one way (30_encoding.md R81). -/
theorem toNat_eq_iff_ofNat (x : BitVec 16) (n : Nat) :
    x.toNat = n ↔ x = BitVec.ofNat 16 n ∧ n < 2 ^ 16 := by
  constructor
  · rintro rfl
    exact ⟨BitVec.eq_of_toNat_eq (by simp), x.isLt⟩
  · rintro ⟨rfl, hn⟩
    exact (BitVec.toNat_ofNat n 16).trans (Nat.mod_eq_of_lt hn)

/-- The words of the commands are those of well-formed commands, each of one command only. -/
theorem decode_eq_ok_iff_encode (w : Word) (i : Instr) :
    decode w = .ok i ↔ w = encode i ∧ i.wellFormed = true := by
  have hindex : (i.blockIndex.getD (kField w).toNat = (kField w).toNat
      ∧ (i.blockIndex = none → kField w = 0)) ↔ (kField w).toNat = i.blockIndex.getD 0 := by
    cases i.blockIndex with
    | none => simp [BitVec.toNat_eq]
    | some k => simp [eq_comm]
  rw [decode_eq_ok_iff, instrOfOp_eq_some_iff, encode, eq_append_iff, wellFormed_iff,
    BitVec.toNat_inj]
  rw [toNat_eq_iff_ofNat] at hindex
  tauto

/-! ### One command's words (30_encoding.md R83) -/

/-- The word of a command without an index is its opcode. -/
theorem encode_plain (i : Instr) (h : i.blockIndex = none) : encode i = i.opcode.setWidth 32 := by
  rw [encode, h, setWidth_opcode]
  rfl

/-- A command without an index has one word, its opcode. -/
theorem decode_eq_ok_iff_of_plain (w : Word) (i : Instr) (h : i.blockIndex = none) :
    decode w = .ok i ↔ w = i.opcode.setWidth 32 := by
  have hwf : i.wellFormed = true := by rw [wellFormed_iff, h]; decide
  rw [decode_eq_ok_iff_encode, encode_plain i h, and_iff_left hwf]

/-- An indexed command's words, at all its indices, are those that match its opcode under the
mask. -/
theorem exists_decode_eq_ok_iff_of_indexed (w : Word) (c : Nat → Instr) (op : BitVec 8)
    (hindex : ∀ k, (c k).blockIndex = some k) (hop : ∀ k, (c k).opcode = op) :
    (∃ k, decode w = .ok (c k)) ↔ w &&& 0xFF0000FF = op.setWidth 32 := by
  simp only [decode_eq_ok_iff, instrOfOp_eq_some_iff, hindex, hop, and_indexedMask_eq_iff,
    BitVec.toNat_inj]
  simp [and_comm]

/-! ### The illegal words (30_encoding.md R84) -/

/-- The OP values of the table (30_encoding.md R82). -/
def definedOps : List Nat :=
  [0x00, 0x01, 0x02, 0x10, 0x11, 0x20, 0x21, 0x30, 0x31, 0x40, 0x41, 0x50, 0x51, 0x52, 0x53]

/-- The OP values of the commands without an index (30_encoding.md R82). -/
def plainOps : List Nat := [0x00, 0x01, 0x02, 0x20, 0x21, 0x30, 0x31, 0x40, 0x41, 0x50, 0x51]

/-- OP selects a row exactly when it is in the table. -/
theorem exists_instrOfOp_eq_some_iff (op k : Nat) :
    (∃ i, instrOfOp op k = some i) ↔ op ∈ definedOps := by
  constructor
  · rintro ⟨i, h⟩
    obtain ⟨rfl, _⟩ := (instrOfOp_eq_some_iff op k i).mp h
    cases i <;> simp [Instr.opcode, definedOps]
  · intro h
    simp only [definedOps, List.mem_cons, List.not_mem_nil, or_false] at h
    rcases h with rfl | rfl | rfl | rfl | rfl | rfl | rfl | rfl | rfl | rfl | rfl | rfl | rfl | rfl
      | rfl <;> exact ⟨_, rfl⟩

/-- The row OP selects takes no index exactly when OP is one of the non-indexed. -/
theorem opcode_mem_plainOps_iff (i : Instr) : i.opcode.toNat ∈ plainOps ↔ i.blockIndex = none := by
  cases i <;> simp [Instr.opcode, Instr.blockIndex, plainOps]

/-- A word is illegal for an OP outside the table, for RSV, or for a K that its OP does not use. -/
theorem exists_decode_eq_error_iff_fields (w : Word) :
    (∃ e, decode w = .error e) ↔ (opField w).toNat ∉ definedOps ∨ rsvField w ≠ 0
      ∨ ((opField w).toNat ∈ plainOps ∧ kField w ≠ 0) := by
  rw [exists_decode_eq_error_iff, ← exists_instrOfOp_eq_some_iff _ (kField w).toNat]
  simp only [decode_eq_ok_iff]
  by_cases hrow : ∃ i, instrOfOp (opField w).toNat (kField w).toNat = some i
  · obtain ⟨i, hi⟩ := hrow
    obtain ⟨hop, _⟩ := (instrOfOp_eq_some_iff _ _ i).mp hi
    have hplain : (opField w).toNat ∈ plainOps ↔ i.blockIndex = none := by
      rw [hop, opcode_mem_plainOps_iff]
    simp only [hi, hplain, Option.some.injEq, exists_eq_left']
    tauto
  · exact iff_of_true (fun ⟨i, hi, _⟩ => hrow ⟨i, hi⟩) (.inl hrow)

/-! ### The assembler (30_encoding.md R92) -/

/-- The word of a command with an index that K can hold, as shift and or. -/
theorem encode_indexed (i : Instr) (j : Nat) (h : i.blockIndex = some j) (hj : j ≤ 65535) :
    encode i = (BitVec.ofNat 32 j <<< 8) ||| i.opcode.setWidth 32 := by
  apply BitVec.eq_of_toNat_eq
  have hop := i.opcode.isLt
  rw [encode, h, BitVec.toNat_append, BitVec.toNat_append]
  simp (disch := omega) [Nat.mod_eq_of_lt, Nat.shiftLeft_eq]

/-- An indexed command with another index. -/
def Instr.withIndex (j : Nat) : Instr → Instr
  | .vecLoad _ => .vecLoad j
  | .vecStore _ => .vecStore j
  | .recStore _ => .recStore j
  | .recLoad _ => .recLoad j
  | i => i

@[simp] theorem Instr.opcode_withIndex (j : Nat) (i : Instr) :
    (i.withIndex j).opcode = i.opcode := by
  cases i <;> rfl

@[simp] theorem Instr.blockIndex_withIndex (j : Nat) (i : Instr) :
    (i.withIndex j).blockIndex = i.blockIndex.map fun _ => j := by
  cases i <;> rfl

/-- A mnemonic without an index assembles only when no operand is written. -/
theorem assemble_plain (i : Instr) (operand : Option (List Char)) (h : i.blockIndex = none) :
    assemble i.mnemonic operand = if operand = none then some (encode i) else none := by
  cases i <;> cases h <;> simp [assemble, Instr.mnemonic, Instr.blockIndex, Instr.wellFormed]

/-- A mnemonic with an index assembles when its operand is an index that K can hold. -/
theorem assemble_indexed (i : Instr) (k : Nat) (operand : Option (List Char))
    (h : i.blockIndex = some k) :
    assemble i.mnemonic operand = (operand.bind indexOfText).bind fun j =>
      if j ≤ 65535 then some (encode (i.withIndex j)) else none := by
  cases hop : operand.bind indexOfText with
  | none => cases i <;> cases h <;> simp [assemble, Instr.mnemonic, hop]
  | some j =>
    cases i <;> cases h <;>
      simp [assemble, Instr.mnemonic, hop, Instr.blockIndex, Instr.withIndex, Instr.wellFormed,
        Nat.lt_succ_iff]

/-! ### The statements about the command word -/

/-- Settles O1: a command's own word is one of those the decoder gives to it. -/
theorem decodeOfEncode : Obligations.DecodeOfEncode :=
  fun i hwf => (decode_eq_ok_iff_encode (encode i) i).mpr ⟨rfl, hwf⟩

/-- Settles O2: the decoder gives a command no word but its own. -/
theorem encodeOfDecode : Obligations.EncodeOfDecode := by
  intro w i h
  obtain ⟨hword, hwf⟩ := (decode_eq_ok_iff_encode w i).mp h
  exact ⟨hword.symm, hwf⟩

/-- Settles O3, command by command. -/
theorem commandsMatchTheirMasks : Obligations.CommandsMatchTheirMasks := by
  intro w
  have hindexed := exists_decode_eq_ok_iff_of_indexed w
  have hplain := decode_eq_ok_iff_of_plain w
  exact ⟨hindexed .vecLoad 0x10 (fun _ => rfl) fun _ => rfl,
    hindexed .vecStore 0x11 (fun _ => rfl) fun _ => rfl,
    hindexed .recStore 0x52 (fun _ => rfl) fun _ => rfl,
    hindexed .recLoad 0x53 (fun _ => rfl) fun _ => rfl,
    hplain .nop rfl, hplain .encTile rfl, hplain .decTile rfl, hplain .projFwd rfl,
    hplain .projInv rfl, hplain .rangeClr rfl, hplain .rangeAcc rfl, hplain .quant rfl,
    hplain .dequant rfl, hplain .hdrStore rfl, hplain .hdrLoad rfl⟩

/-- Settles O6: a mnemonic without an index by `assemble_plain`, one with an index by
`assemble_indexed`. -/
theorem assemblerGivesWordsAndRefuses : Obligations.AssemblerGivesWordsAndRefuses := by
  intro i
  refine ⟨fun h => ⟨?_, fun text => assemble_plain i (some text) h⟩,
    fun k h => ⟨assemble_indexed i k none h, fun text j hj => ?_⟩⟩
  · rw [assemble_plain i none h, if_pos rfl, encode_plain i h]
  · rw [assemble_indexed i k (some text) h, Option.bind_some, hj, Option.bind_some]
    split
    next hle =>
      have hindex : (i.withIndex j).blockIndex = some j := by
        rw [Instr.blockIndex_withIndex, h]; rfl
      rw [encode_indexed _ j hindex hle, Instr.opcode_withIndex]
    next => rfl

/-- Settles O5: a legal word is that of its command, and an illegal one is evaluated. -/
theorem exampleWordsDecode : Obligations.ExampleWordsDecode := by
  have hword : ∀ i : Instr, i.wellFormed = true → decode (encode i) = .ok i := decodeOfEncode
  exact ⟨hword .nop rfl, hword .encTile rfl, hword .decTile rfl, hword (.vecStore 0) rfl,
    hword (.vecLoad 300) rfl, hword .projInv rfl, hword .rangeAcc rfl, hword .quant rfl,
    hword (.recStore 299) rfl, hword (.recLoad 7) rfl, rfl, rfl, rfl⟩

end Sys2Proof
end

section
/-! SUPPORT. The write of a word to CMD as a step (30_encoding.md R84, R87, R88). -/

namespace Sys2Proof.Machine

/-- A full write to CMD of an idle CORE out of reset issues the word (30_encoding.md R87). -/
theorem land_cmd_idle (s : State) (w : Word) (hi : s.inflight = none) (hr : s.resetPin = false) :
    land (.regWrite cmdOffset 4 w) s = issue w { s with reply := .ack } := by
  have hissued : issuedWord (.regWrite cmdOffset 4 w) s = some w :=
    if_pos ⟨rfl, rfl, hr, congrArg Option.isSome hi⟩
  simp only [land, landAct, hissued]

/-- That write as the next event of a step. -/
theorem step_cmd_idle (s : State) (w : Word) (rest : List Event)
    (he : s.events = .host (.regWrite cmdOffset 4 w) :: rest) (hi : s.inflight = none)
    (hr : s.resetPin = false) :
    step s = issue w { s with events := rest, reply := .ack } :=
  (step_host s _ rest he).trans (land_cmd_idle { s with events := rest } w hi hr)

/-- An illegal word completes at once with OPC (30_encoding.md R84). -/
theorem issue_of_error (w : Word) (s : State) (h : ∃ e, decode w = .error e) :
    issue w s = .next (complete .opc (accept w s)) := by
  obtain ⟨e, h⟩ := h
  simp only [issue, h]

/-- A legal word where commands run whole is `exec` of its command. -/
theorem issue_of_ok_whole (w : Word) (s : State) (i : Instr) (h : decode w = .ok i)
    (hg : s.grain = .whole) : issue w s = exec i (accept w s) := by
  simp only [issue, h, hg]

/-- A word where commands run piece by piece is taken up and no more. -/
theorem issue_perAccess (w : Word) (s : State) (hg : s.grain = .perAccess) :
    issue w s = .next (takeUp w s) := by
  unfold issue takeUp
  cases decode w with
  | error e => rfl
  | ok i => simp only [hg]

/-! ### The statements about writes of CMD -/

/-- Settles O4: the reasons from the fields of the word, and OPC as the outcome of its issue. -/
theorem illegalWordsCompleteWithOpc : Obligations.IllegalWordsCompleteWithOpc := by
  refine ⟨exists_decode_eq_error_iff_fields, fun s w rest he hi hr hill => ?_⟩
  rw [step_cmd_idle s w rest he hi hr, issue_of_error w _ hill]
  simp only [complete, accept, hi]
  rfl

/-- Settles O7: the write is issued, and issuing runs the command. -/
theorem stepRunsTheDecodedCommand : Obligations.StepRunsTheDecodedCommand := by
  intro s w i rest he hi hr hg hd
  exact (step_cmd_idle s w rest he hi hr).trans (issue_of_ok_whole w _ i hd hg)

/-- Settles O8: an idle CORE takes the word up, and a busy one finds CMD frozen. -/
theorem acceptanceAndBusyWritesOfCmd : Obligations.AcceptanceAndBusyWritesOfCmd := by
  refine ⟨fun s w i rest he hi hr hg hd hc ha hz hsp => ⟨_, ?_, rfl, rfl⟩,
    fun s w rest he hb hr => ?_⟩
  · calc step s
        = issue w { s with events := rest, reply := .ack } := step_cmd_idle s w rest he hi hr
      _ = .next (takeUp w { s with events := rest, reply := .ack }) := issue_perAccess w _ hg
      _ = _ := congrArg _ (takeUp_of_checked i w s rest .ack hd hc ha hz hsp)
  · rw [step_host s _ rest he, land_regWrite { s with events := rest } 0x018 w rfl fun _ => hb,
      writeReg_frozen (regAt 0x018) w { s with events := rest } hr hb rfl]

end Sys2Proof.Machine
end

section
/-! SUPPORT. The arithmetic of Machine/Float.lean in numbers, as 00_scope.md R12 and R13 say it:
signs and magnitudes of patterns, the order of values, one rounding of the exact result of each
operation, and the conversions. -/

namespace Sys2Proof.Machine

/-! ### Patterns by sign and magnitude -/

theorem eq_of_signOf_magOf {x y : F32} (hs : signOf x = signOf y) (hm : magOf x = magOf y) :
    x = y := by
  simp only [signOf, magOf, decide_eq_decide] at hs hm
  have hx := x.isLt
  have hy := y.isLt
  exact BitVec.eq_of_toNat_eq (by omega)

theorem isNaN_iff (x : F32) : isNaN x = true ↔ f32Exponent x = 255 ∧ f32Fraction x ≠ 0 := by
  have := magOf_lt x
  rw [isNaN, decide_eq_true_iff, f32Exponent_eq, f32Fraction_eq]
  omega

theorem isInf_iff (x : F32) : isInf x = true ↔ f32Exponent x = 255 ∧ f32Fraction x = 0 := by
  have := magOf_lt x
  rw [isInf, beq_iff_eq, f32Exponent_eq, f32Fraction_eq]
  omega

theorem isNaN_of_finite {x : F32} (h : f32Exponent x ≠ 255) : isNaN x = false :=
  Bool.eq_false_iff.mpr fun hn => h ((isNaN_iff x).mp hn).1

theorem isInf_of_finite {x : F32} (h : f32Exponent x ≠ 255) : isInf x = false :=
  Bool.eq_false_iff.mpr fun hi => h ((isInf_iff x).mp hi).1

theorem magOf_of_finite {x : F32} (h : f32Exponent x ≠ 255) : magOf x < 0x7F800000 := by
  rwa [ne_eq, exponent_eq_255, not_le] at h

theorem magOf_of_isInf {x : F32} (h : isInf x = true) : magOf x = 0x7F800000 := by
  simpa [isInf] using h

theorem isNaN_of_isInf {x : F32} (h : isInf x = true) : isNaN x = false := by
  simp [isNaN, magOf_of_isInf h]

theorem isNaN_ofSignMag (neg : Bool) (m : Nat) (h : m ≤ 0x7F800000) :
    isNaN (ofSignMag neg m) = false := by
  rw [isNaN, magOf_ofSignMag neg m (by omega), decide_eq_false_iff_not]
  omega

/-- The sign of a product or quotient, as bits (00_scope.md R12). -/
theorem xor_and_signBit (a b : F32) :
    (a ^^^ b) &&& 0x80000000 = ofSignMag (signOf a != signOf b) 0 := by
  rw [show (0x80000000 : F32) = BitVec.twoPow 32 31 from rfl, BitVec.and_twoPow,
    BitVec.getLsbD_xor, ← signOf_eq, ← signOf_eq]
  cases signOf a <;> cases signOf b <;> rfl

theorem xor_and_signBit_or_inf (a b : F32) :
    (a ^^^ b) &&& 0x80000000 ||| 0x7F800000 = ofSignMag (signOf a != signOf b) 0x7F800000 := by
  rw [xor_and_signBit]
  cases signOf a != signOf b <;> rfl

theorem fneg_eq_xor (x : F32) : fneg x = x ^^^ 0x80000000 := by
  apply eq_of_signOf_magOf
  · rw [fneg, signOf_ofSignMag _ _ (magOf_lt x), signOf_eq, signOf_eq, BitVec.getLsbD_xor]
    simp
  · have hmag : ∀ y : F32, magOf y = (y.setWidth 31).toNat :=
      fun y => (BitVec.toNat_setWidth 31 y).symm
    rw [fneg, magOf_ofSignMag _ _ (magOf_lt x), hmag, hmag, BitVec.setWidth_xor]
    simp

@[simp] theorem signOf_fneg (x : F32) : signOf (fneg x) = !signOf x :=
  signOf_ofSignMag _ _ (magOf_lt x)

@[simp] theorem magOf_fneg (x : F32) : magOf (fneg x) = magOf x :=
  magOf_ofSignMag _ _ (magOf_lt x)

@[simp] theorem f32Exponent_fneg (x : F32) : f32Exponent (fneg x) = f32Exponent x := by
  rw [f32Exponent_eq, f32Exponent_eq, magOf_fneg]

@[simp] theorem isNaN_fneg (x : F32) : isNaN (fneg x) = isNaN x := by
  rw [isNaN, isNaN, magOf_fneg]

/-! ### The order of values -/

/-- Larger magnitude patterns stand for larger magnitudes: the next pattern is one spacing on
(00_scope.md R12). -/
theorem unitsOfMag_strictMono : StrictMono unitsOfMag := by
  refine strictMono_nat_of_lt_succ fun m => ?_
  obtain ⟨e, r, rfl, hr, hl⟩ : ∃ e r, m = e * 2 ^ 23 + r ∧ r < 2 ^ 24 ∧ (0 < e → 2 ^ 23 ≤ r) :=
    ⟨m / 2 ^ 23 - 1, m - (m / 2 ^ 23 - 1) * 2 ^ 23, by omega, by omega, by omega⟩
  rw [unitsOfMag_grid e r (by omega) hl, Nat.add_assoc, unitsOfMag_grid e (r + 1) hr (by omega)]
  exact Nat.mul_lt_mul_of_pos_right (Nat.lt_succ_self r) (Nat.two_pow_pos e)

theorem unitsOfMag_eq_zero (m : Nat) : unitsOfMag m = 0 ↔ m = 0 :=
  unitsOfMag_strictMono.injective.eq_iff' rfl

theorem signedUnits_lt_iff (a b : F32) :
    signedUnits a < signedUnits b ↔ orderKey a < orderKey b := by
  have hlt := unitsOfMag_strictMono.lt_iff_lt (a := magOf a) (b := magOf b)
  have hgt := unitsOfMag_strictMono.lt_iff_lt (a := magOf b) (b := magOf a)
  have ha := unitsOfMag_eq_zero (magOf a)
  have hb := unitsOfMag_eq_zero (magOf b)
  unfold signedUnits orderKey
  rw [unitsOf_eq, unitsOf_eq]
  split <;> split <;> omega

theorem f32Value_lt_iff (a b : F32) : f32Value a < f32Value b ↔ orderKey a < orderKey b := by
  rw [f32Value_eq, f32Value_eq, div_lt_div_iff_of_pos_right (by positivity), Int.cast_lt,
    signedUnits_lt_iff]

theorem f32Value_le_iff (a b : F32) : f32Value a ≤ f32Value b ↔ orderKey a ≤ orderKey b := by
  rw [← not_lt, ← not_lt, f32Value_lt_iff]

theorem flt_iff (a b : F32) :
    flt a b = true ↔ isNaN a = false ∧ isNaN b = false ∧ f32Value a < f32Value b := by
  simp [flt, f32Value_lt_iff, and_assoc]

theorem fgt_iff (a b : F32) :
    fgt a b = true ↔ isNaN a = false ∧ isNaN b = false ∧ f32Value a > f32Value b := by
  rw [fgt, flt_iff, and_left_comm]

theorem fle_iff (a b : F32) :
    fle a b = true ↔ isNaN a = false ∧ isNaN b = false ∧ f32Value a ≤ f32Value b := by
  simp [fle, f32Value_le_iff, and_assoc]

theorem signedUnits_eq_zero (x : F32) : signedUnits x = 0 ↔ magOf x = 0 := by
  rw [← unitsOfMag_eq_zero, ← unitsOf_eq, signedUnits]
  split <;> omega

theorem f32Value_eq_zero (x : F32) : f32Value x = 0 ↔ magOf x = 0 := by
  rw [f32Value_eq, div_eq_zero_iff, or_iff_left (by positivity), Int.cast_eq_zero,
    signedUnits_eq_zero]

theorem abs_f32Value (x : F32) : |f32Value x| = (unitsOf x : ℚ) / 2 ^ 149 := by
  rw [f32Value_eq, abs_div, signedUnits]
  cases signOf x <;> simp

@[simp] theorem f32Value_fneg (x : F32) : f32Value (fneg x) = -f32Value x := by
  rw [f32Value_signed, f32Value_signed, magOf_fneg, signOf_fneg]
  cases signOf x <;> simp [neg_div]

/-! ### The operations -/

@[simp] theorem roundedMag_zero (den : Nat) : roundedMag 0 den = 0 := by
  simp [roundedMag, roundNearestEven, spacingExp]

theorem fadd_of_finite {a b : F32} (ha : f32Exponent a ≠ 255) (hb : f32Exponent b ≠ 255) :
    fadd a b = if signedUnits a + signedUnits b = 0 then ofSignMag (signOf a && signOf b) 0
      else ofSignMag (decide (signedUnits a + signedUnits b < 0))
        (roundedMag (signedUnits a + signedUnits b).natAbs 1) := by
  simp [fadd, isNaN_of_finite ha, isNaN_of_finite hb, isInf_of_finite ha, isInf_of_finite hb]

theorem fmul_of_finite {a b : F32} (ha : f32Exponent a ≠ 255) (hb : f32Exponent b ≠ 255) :
    fmul a b = ofSignMag (signOf a != signOf b) (roundedMag (unitsOf a * unitsOf b) (2 ^ 149)) := by
  simp [fmul, isNaN_of_finite ha, isNaN_of_finite hb, isInf_of_finite ha, isInf_of_finite hb]

theorem fdiv_of_finite {a b : F32} (ha : f32Exponent a ≠ 255) (hb : f32Exponent b ≠ 255)
    (h0 : magOf b ≠ 0) :
    fdiv a b = ofSignMag (signOf a != signOf b) (roundedMag (unitsOf a * 2 ^ 149) (unitsOf b)) := by
  simp [fdiv, isNaN_of_finite ha, isNaN_of_finite hb, isInf_of_finite ha, isInf_of_finite hb, h0]

theorem fdiv_zero_of_finite {a b : F32} (ha : f32Exponent a ≠ 255) (hb : f32Exponent b ≠ 255)
    (h0 : magOf b = 0) :
    fdiv a b = if magOf a = 0 then canonicalNaN
      else ofSignMag (signOf a != signOf b) 0x7F800000 := by
  simp [fdiv, isNaN_of_finite ha, isNaN_of_finite hb, isInf_of_finite ha, isInf_of_finite hb, h0]

theorem f32Value_add (a b : F32) :
    f32Value a + f32Value b = ((signedUnits a + signedUnits b : ℤ) : ℚ) / 2 ^ 149 := by
  rw [f32Value_eq, f32Value_eq, ← add_div, Int.cast_add]

theorem roundsTo_fadd {a b : F32} (ha : f32Exponent a ≠ 255) (hb : f32Exponent b ≠ 255) :
    RoundsTo (f32Value a + f32Value b) (fadd a b) := by
  rw [fadd_of_finite ha hb, f32Value_add]
  generalize signedUnits a + signedUnits b = z
  split
  · next hz => simpa [hz] using roundsTo_roundedMag (signOf a && signOf b) 0 1 one_pos
  · have hval : (if decide (z < 0) then -1 else 1) * ((z.natAbs : ℚ) / (1 : ℕ)) = z := by
      rw [Nat.cast_natAbs]
      by_cases hz : z < 0
      · simp [hz, abs_of_neg hz]
      · simp [hz, abs_of_nonneg (not_lt.mp hz)]
    rw [← hval]
    exact roundsTo_roundedMag _ _ 1 one_pos

theorem roundsTo_fsub {a b : F32} (ha : f32Exponent a ≠ 255) (hb : f32Exponent b ≠ 255) :
    RoundsTo (f32Value a - f32Value b) (fsub a b) := by
  rw [sub_eq_add_neg, ← f32Value_fneg]
  exact roundsTo_fadd ha (by rwa [f32Exponent_fneg])

/-- The sign of a product or quotient as a factor. -/
theorem signFactor_bne (s t : Bool) :
    (if s != t then -1 else 1 : ℚ) = (if s then -1 else 1) * (if t then -1 else 1) := by
  cases s <;> cases t <;> norm_num

theorem roundsTo_fmul {a b : F32} (ha : f32Exponent a ≠ 255) (hb : f32Exponent b ≠ 255) :
    RoundsTo (f32Value a * f32Value b) (fmul a b) := by
  have hval : f32Value a * f32Value b = (if signOf a != signOf b then -1 else 1)
      * (((unitsOf a * unitsOf b : ℕ) : ℚ) / ((2 ^ 149 : ℕ) : ℚ)) / 2 ^ 149 := by
    rw [f32Value_signed, f32Value_signed, signFactor_bne, unitsOf_eq, unitsOf_eq]
    push_cast
    ring
  rw [hval, fmul_of_finite ha hb]
  exact roundsTo_roundedMag _ _ _ (by positivity)

theorem roundsTo_fdiv {a b : F32} (ha : f32Exponent a ≠ 255) (hb : f32Exponent b ≠ 255)
    (h0 : f32Value b ≠ 0) : RoundsTo (f32Value a / f32Value b) (fdiv a b) := by
  have hmag : magOf b ≠ 0 := mt (f32Value_eq_zero b).mpr h0
  have hu : unitsOf b ≠ 0 := mt (unitsOfMag_eq_zero _).mp hmag
  have hval : f32Value a / f32Value b = (if signOf a != signOf b then -1 else 1)
      * (((unitsOf a * 2 ^ 149 : ℕ) : ℚ) / (unitsOf b : ℚ)) / 2 ^ 149 := by
    rw [f32Value_signed, f32Value_signed, signFactor_bne, ← unitsOf_eq, ← unitsOf_eq]
    have hb0 : (unitsOf b : ℚ) ≠ 0 := by exact_mod_cast hu
    rw [Nat.cast_mul, Nat.cast_pow, Nat.cast_ofNat]
    cases signOf b <;> simp only [if_true, if_false, Bool.false_eq_true] <;> field_simp
  rw [hval, fdiv_of_finite ha hb hmag]
  exact roundsTo_roundedMag _ _ _ (Nat.pos_of_ne_zero hu)

theorem fadd_of_sum_zero {a b : F32} (ha : f32Exponent a ≠ 255) (hb : f32Exponent b ≠ 255)
    (h : f32Value a + f32Value b = 0) :
    fadd a b = if a.getLsbD 31 && b.getLsbD 31 then 0x80000000 else 0x00000000 := by
  rw [f32Value_add, div_eq_zero_iff, or_iff_left (by positivity), Int.cast_eq_zero] at h
  rw [fadd_of_finite ha hb, if_pos h, ← signOf_eq, ← signOf_eq]
  cases signOf a && signOf b <;> rfl

theorem fmul_of_product_zero {a b : F32} (ha : f32Exponent a ≠ 255) (hb : f32Exponent b ≠ 255)
    (h : f32Value a * f32Value b = 0) : fmul a b = (a ^^^ b) &&& 0x80000000 := by
  have hu : unitsOf a * unitsOf b = 0 := by
    rwa [Nat.mul_eq_zero, unitsOf_eq, unitsOf_eq, unitsOfMag_eq_zero, unitsOfMag_eq_zero,
      ← f32Value_eq_zero, ← f32Value_eq_zero, ← mul_eq_zero]
  rw [fmul_of_finite ha hb, hu, roundedMag_zero, xor_and_signBit]

theorem fdiv_of_dividend_zero {a b : F32} (ha : f32Exponent a ≠ 255) (hb : f32Exponent b ≠ 255)
    (h0 : f32Value b ≠ 0) (h : f32Value a = 0) : fdiv a b = (a ^^^ b) &&& 0x80000000 := by
  have hu : unitsOf a = 0 := by rwa [unitsOf_eq, unitsOfMag_eq_zero, ← f32Value_eq_zero]
  rw [fdiv_of_finite ha hb (mt (f32Value_eq_zero b).mpr h0), hu, zero_mul, roundedMag_zero,
    xor_and_signBit]

theorem fdiv_of_divisor_zero {a b : F32} (ha : f32Exponent a ≠ 255) (hb : f32Exponent b ≠ 255)
    (h0 : f32Value b = 0) :
    fdiv a b = if f32Value a = 0 then 0x7FC00000
      else ((a ^^^ b) &&& 0x80000000) ||| 0x7F800000 := by
  simp only [fdiv_zero_of_finite ha hb ((f32Value_eq_zero b).mp h0), f32Value_eq_zero,
    xor_and_signBit_or_inf, canonicalNaN]

/-! ### Infinities and NaNs -/

theorem fadd_inf_left {a b : F32} (ha : isInf a = true) (hb : isNaN b = false) :
    fadd a b = if isInf b && (a.getLsbD 31 != b.getLsbD 31) then 0x7FC00000 else a := by
  simp only [fadd, isNaN_of_isInf ha, hb, ha, signOf_eq, canonicalNaN, Bool.or_self,
    Bool.false_eq_true, if_false, if_true]

theorem fadd_inf_comm {a b : F32} (ha : isInf a = true) (hb : isNaN b = false) :
    fadd b a = fadd a b := by
  cases hi : isInf b with
  | false => simp [fadd, isNaN_of_isInf ha, hb, ha, hi]
  | true =>
    rw [fadd_inf_left hi (isNaN_of_isInf ha), fadd_inf_left ha hb, hi, ha, bne_comm]
    split
    · rfl
    · next hs =>
      rw [Bool.true_and, bne_iff_ne, not_not, ← signOf_eq, ← signOf_eq] at hs
      exact eq_of_signOf_magOf hs.symm ((magOf_of_isInf hi).trans (magOf_of_isInf ha).symm)

theorem fmul_inf_left {a b : F32} (ha : isInf a = true) (hb : isNaN b = false) :
    fmul a b = if f32Value b = 0 then 0x7FC00000
      else ((a ^^^ b) &&& 0x80000000) ||| 0x7F800000 := by
  rw [xor_and_signBit_or_inf]
  simp [fmul, isNaN_of_isInf ha, hb, ha, magOf_of_isInf ha, f32Value_eq_zero, canonicalNaN]

theorem fmul_inf_comm {a b : F32} (ha : isInf a = true) (hb : isNaN b = false) :
    fmul b a = fmul a b := by
  rw [fmul_inf_left ha hb, xor_and_signBit_or_inf, bne_comm]
  simp [fmul, isNaN_of_isInf ha, hb, ha, magOf_of_isInf ha, f32Value_eq_zero, canonicalNaN]

theorem fdiv_inf_left {a b : F32} (ha : isInf a = true) (hb : isNaN b = false) :
    fdiv a b = if isInf b then 0x7FC00000 else ((a ^^^ b) &&& 0x80000000) ||| 0x7F800000 := by
  rw [xor_and_signBit_or_inf]
  simp [fdiv, isNaN_of_isInf ha, hb, ha, canonicalNaN]

theorem fdiv_inf_right {a b : F32} (ha : isInf a = true) (hb : isNaN b = false)
    (hi : isInf b = false) : fdiv b a = (a ^^^ b) &&& 0x80000000 := by
  rw [xor_and_signBit, bne_comm]
  simp [fdiv, isNaN_of_isInf ha, hb, ha, hi]

theorem arith_of_isNaN {a b : F32} (h : isNaN a = true ∨ isNaN b = true) :
    fadd a b = 0x7FC00000 ∧ fsub a b = 0x7FC00000 ∧ fmul a b = 0x7FC00000
      ∧ fdiv a b = 0x7FC00000 := by
  have hor : (isNaN a || isNaN b) = true := by simpa using h
  simp only [fsub, fadd, fmul, fdiv, isNaN_fneg, hor, if_true, canonicalNaN, and_self]

/-! ### Whole numbers -/

/-- A magnitude that is a finite value is rounded to itself. -/
theorem roundedMag_unitsOfMag (m : Nat) (h : m < 0x7F800000) : roundedMag (unitsOfMag m) 1 = m := by
  have hle : unitsOfMag m ≤ unitsOfMag 0x7F7FFFFF :=
    unitsOfMag_strictMono.monotone (by omega)
  have hmax : unitsOfMag 0x7F7FFFFF < (2 ^ 25 - 1) * 2 ^ 252 * 1 := by decide
  have hnear := (roundedMag_nearest (unitsOfMag m) 1 m one_pos (hle.trans_lt hmax)).1
  apply unitsOfMag_strictMono.injective
  simpa [sub_eq_zero] using hnear

/-- Up to 2^24 spacings of 2^e units are a value's magnitude (00_scope.md R12). -/
theorem exists_unitsOfMag_eq (n e : Nat) (hn : n ≤ 2 ^ 24) : ∃ m, unitsOfMag m = n * 2 ^ e := by
  induction e generalizing n with
  | zero => exact ⟨n, by simpa using unitsOfMag_grid 0 n hn (by omega)⟩
  | succ e ih =>
    rcases Nat.lt_or_ge n (2 ^ 23) with h | h
    · obtain ⟨m, hm⟩ := ih (2 * n) (by omega)
      exact ⟨m, by rw [hm, Nat.pow_succ]; ring⟩
    · exact ⟨_, unitsOfMag_grid (e + 1) n hn fun _ => h⟩

/-- Where the spacing is at most 1 they are a finite value's magnitude. -/
theorem exists_finite_mag (n e : Nat) (hn : n ≤ 2 ^ 24) (he : e ≤ 149) :
    ∃ m < 0x7F800000, unitsOfMag m = n * 2 ^ e := by
  obtain ⟨m, hm⟩ := exists_unitsOfMag_eq n e hn
  refine ⟨m, ?_, hm⟩
  rw [← unitsOfMag_strictMono.lt_iff_lt, hm]
  calc n * 2 ^ e ≤ 2 ^ 24 * 2 ^ 149 :=
        Nat.mul_le_mul hn (Nat.pow_le_pow_right (by decide) he)
    _ < unitsOfMag 0x7F800000 := by decide

/-- A finite value rounded to a whole number is a finite value: from 2^23 on every value is whole
(00_scope.md R13). -/
theorem exists_finite_mag_of_roundedWhole {x : F32} (h : f32Exponent x ≠ 255) :
    ∃ m < 0x7F800000, unitsOfMag m = roundedWhole x * 2 ^ 149 := by
  rcases unitsOfMag_on_grid (magOf x) 149 with ⟨n, hn⟩ | hlt
  · have hw : roundedWhole x = n := by
      rw [roundedWhole, unitsOf_eq, hn]
      omega
    exact ⟨magOf x, magOf_of_finite h, by rw [hn, hw]⟩
  · refine exists_finite_mag _ 149 ?_ le_rfl
    rw [roundedWhole, unitsOf_eq]
    omega

theorem f32OfRatio_whole (neg : Bool) (n m : Nat) (hm : m < 0x7F800000)
    (h : unitsOfMag m = n * 2 ^ 149) : f32OfRatio neg n 1 = ofSignMag neg m := by
  rw [f32OfRatio, ← h, roundedMag_unitsOfMag m hm]

theorem f32Value_ofSignMag (neg : Bool) (m : Nat) (hm : m < 0x7F800000) :
    f32Value (ofSignMag neg m) = (if neg then -1 else 1) * (unitsOfMag m : ℚ) / 2 ^ 149 := by
  rw [f32Value_signed, magOf_ofSignMag neg m (by omega), signOf_ofSignMag neg m (by omega)]

theorem f32Value_ofSignMag_whole (neg : Bool) (n m : Nat) (hm : m < 0x7F800000)
    (h : unitsOfMag m = n * 2 ^ 149) :
    f32Value (ofSignMag neg m) = (if neg then -1 else 1) * (n : ℚ) := by
  rw [f32Value_ofSignMag neg m hm, h]
  push_cast
  ring

theorem exponent_ofSignMag {neg : Bool} {m : Nat} (hm : m < 0x7F800000) :
    f32Exponent (ofSignMag neg m) ≠ 255 := by
  rw [ne_eq, exponent_eq_255, magOf_ofSignMag neg m (by omega)]
  omega

/-- A byte's value is exact (00_scope.md R12). -/
theorem f32OfNat_exact (n : Nat) (hn : n ≤ 255) :
    f32Exponent (f32OfNat n) ≠ 255 ∧ f32Value (f32OfNat n) = n ∧ signOf (f32OfNat n) = false := by
  obtain ⟨m, hm, hu⟩ := exists_finite_mag n 149 (by omega) le_rfl
  rw [f32OfNat, f32OfRatio_whole false n m hm hu]
  exact ⟨exponent_ofSignMag hm, by simpa using f32Value_ofSignMag_whole false n m hm hu,
    signOf_ofSignMag false m (by omega)⟩

theorem roundedWhole_eq_floor (x : F32) : (roundedWhole x : ℤ) = ⌊|f32Value x| + 1 / 2⌋ := by
  have hsum : |f32Value x| + 1 / 2 = ((unitsOf x + 2 ^ 148 : ℕ) : ℚ) / ((2 ^ 149 : ℕ) : ℚ) := by
    rw [abs_f32Value]
    push_cast
    ring
  rw [hsum, Rat.floor_natCast_div_natCast]
  rfl

/-- `roundf` of a finite value: its sign, and its magnitude to the nearest whole number, halves up
(00_scope.md R13). -/
theorem roundf_of_finite {x : F32} (h : f32Exponent x ≠ 255) :
    f32Value (roundf x) = (if signOf x then -1 else 1) * (⌊|f32Value x| + 1 / 2⌋ : ℚ)
      ∧ signOf (roundf x) = signOf x := by
  obtain ⟨m, hm, hu⟩ := exists_finite_mag_of_roundedWhole h
  have hr : roundf x = ofSignMag (signOf x) m := by
    simp only [roundf, isNaN_of_finite h, isInf_of_finite h, Bool.or_self, Bool.false_eq_true,
      if_false, f32OfRatio_whole _ _ m hm hu]
  rw [hr, f32Value_ofSignMag_whole _ _ m hm hu, ← roundedWhole_eq_floor, Int.cast_natCast]
  exact ⟨rfl, signOf_ofSignMag _ m (by omega)⟩

theorem roundf_of_not_finite {x : F32} (h : f32Exponent x = 255) : roundf x = x := by
  have hor : (isNaN x || isInf x) = true := by
    rw [Bool.or_eq_true, isNaN_iff, isInf_iff]
    exact (ne_or_eq (f32Fraction x) 0).imp (⟨h, ·⟩) (⟨h, ·⟩)
  rw [roundf, if_pos hor]

theorem toNatFlag_of_isNaN {x : F32} (h : isNaN x = true) : toNatFlag x = (0, true) := by
  rw [toNatFlag, if_pos h]

theorem toNatFlag_of_value {x : F32} {n : Nat} (hx : isNaN x = false) (h : f32Value x = n) :
    toNatFlag x = (n, false) := by
  have hu : (unitsOf x : ℚ) / 2 ^ 149 = n := by
    rw [← abs_f32Value, h, Nat.abs_cast]
  have hu' : unitsOf x = n * 2 ^ 149 := by
    rw [div_eq_iff (by positivity)] at hu
    exact_mod_cast hu
  rw [toNatFlag, hx, hu', Nat.mul_div_cancel _ (by positivity)]
  rfl

end Sys2Proof.Machine
end

section
/-! SUPPORT. The sample conversions (40_vectorizer.md R101, R103): the inverse one is total and flags a
NaN (R104), and it undoes the forward one (R106). -/

namespace Sys2Proof.Machine

/-! ### The inverse conversion is total (40_vectorizer.md R104) -/

theorem isNaN_fmul_f255 (x : F32) : isNaN (fmul x f255) = isNaN x := by
  cases hn : isNaN x with
  | true =>
    obtain ⟨_, _, hmul, _⟩ := arith_of_isNaN (b := f255) (.inl hn)
    rw [hmul]
    rfl
  | false =>
    have h255 : f32Exponent f255 ≠ 255 := by decide
    cases hi : isInf x with
    | true =>
      have h0 : f32Value f255 ≠ 0 := mt (f32Value_eq_zero f255).mp (by decide)
      rw [fmul_inf_left hi (isNaN_of_finite h255), if_neg h0, xor_and_signBit_or_inf]
      exact isNaN_ofSignMag _ _ le_rfl
    | false =>
      simp only [fmul, hn, hi, isNaN_of_finite h255, isInf_of_finite h255, Bool.or_self,
        Bool.false_eq_true, if_false]
      exact isNaN_ofSignMag _ _ (roundedMag_le _ _)

theorem isNaN_roundf (x : F32) : isNaN (roundf x) = isNaN x := by
  unfold roundf
  split
  · rfl
  · next h =>
    rw [Bool.or_eq_true, not_or, Bool.not_eq_true] at h
    rw [h.1]
    exact isNaN_ofSignMag _ _ (roundedMag_le _ _)

theorem isNaN_clampf (x lo hi : F32) (hlo : isNaN lo = false) (hhi : isNaN hi = false) :
    isNaN (clampf x lo hi) = isNaN x := by
  unfold clampf
  cases hx : isNaN x with
  | true => exact hx
  | false => simp only [Bool.false_eq_true, if_false]; split_ifs <;> assumption

/-- `clampf` of a value that is no NaN lies between its bounds (00_scope.md R13). -/
theorem clampf_mem {x lo hi : F32} (hx : isNaN x = false) (hlo : isNaN lo = false)
    (hhi : isNaN hi = false) (hle : f32Value lo ≤ f32Value hi) :
    f32Value lo ≤ f32Value (clampf x lo hi) ∧ f32Value (clampf x lo hi) ≤ f32Value hi := by
  rw [clampf, hx, if_neg Bool.false_ne_true]
  split
  · exact ⟨le_rfl, hle⟩
  · next hnlt =>
    rw [flt_iff] at hnlt
    have h1 : f32Value lo ≤ f32Value x := not_lt.mp fun h => hnlt ⟨hx, hlo, h⟩
    split
    · exact ⟨hle, le_rfl⟩
    · next hngt =>
      rw [fgt_iff] at hngt
      exact ⟨h1, not_lt.mp fun h => hngt ⟨hx, hhi, h⟩⟩

/-- `clampf` leaves a value between its bounds. -/
theorem clampf_of_mem {x lo hi : F32} (h1 : f32Value lo ≤ f32Value x)
    (h2 : f32Value x ≤ f32Value hi) : clampf x lo hi = x := by
  have hlt : ¬ flt x lo = true := fun h => h1.not_gt ((flt_iff x lo).mp h).2.2
  have hgt : ¬ fgt x hi = true := fun h => h2.not_gt ((fgt_iff x hi).mp h).2.2
  rw [clampf, if_neg hlt, if_neg hgt, ite_self]

/-- `to_nat` cuts to a whole number, so it stays below a bound on the value. -/
theorem toNatFlag_le (x : F32) (n : Nat) (h0 : 0 ≤ f32Value x) (h : f32Value x ≤ n) :
    (toNatFlag x).1 ≤ n := by
  have hu : (unitsOf x : ℚ) / 2 ^ 149 ≤ n := by rwa [← abs_f32Value, abs_of_nonneg h0]
  have hu' : unitsOf x ≤ n * 2 ^ 149 := by
    rw [div_le_iff₀ (by positivity)] at hu
    exact_mod_cast hu
  unfold toNatFlag
  split
  · exact Nat.zero_le n
  · exact Nat.div_le_of_le_mul (by rwa [Nat.mul_comm])

theorem f32Value_f0 : f32Value f0 = 0 := (f32Value_eq_zero f0).mpr rfl

theorem f32Value_f255 : f32Value f255 = 255 := by
  have h : f32OfNat 255 = f255 := by decide
  simpa [h] using (f32OfNat_exact 255 le_rfl).2.1

theorem vecInvSample_flag (x : F32) : (vecInvSample x).2 = isNaN x := by
  have hn : isNaN (clampf (roundf (fmul x f255)) f0 f255) = isNaN x := by
    rw [isNaN_clampf _ _ _ rfl rfl, isNaN_roundf, isNaN_fmul_f255]
  unfold vecInvSample toNatFlag
  split
  · next h => rw [← hn, h]
  · next h => rw [← hn, Bool.eq_false_iff.mpr h]

theorem vecInvSample_le (x : F32) : (vecInvSample x).1 ≤ 255 := by
  cases hn : isNaN (roundf (fmul x f255)) with
  | true =>
    rw [vecInvSample, clampf, if_pos hn, toNatFlag_of_isNaN hn]
    exact Nat.zero_le 255
  | false =>
    have hmem := clampf_mem hn (lo := f0) (hi := f255) rfl rfl
      (by rw [f32Value_f0, f32Value_f255]; norm_num)
    rw [f32Value_f0, f32Value_f255] at hmem
    exact toNatFlag_le _ 255 hmem.1 (by exact_mod_cast hmem.2)

/-- Settles O38: the clauses in their order, each from the lemma that says it. -/
theorem inverseSampleTotalAndFlagged : Obligations.InverseSampleTotalAndFlagged := by
  refine ⟨fun x => ⟨vecInvSample_le x, vecInvSample_flag x⟩, fun x => ⟨isNaN_iff x, isInf_iff x⟩,
    fun a b ha hb => ⟨roundsTo_fadd ha hb, roundsTo_fsub ha hb, roundsTo_fmul ha hb,
      roundsTo_fdiv ha hb⟩,
    fun a b ha hb => ⟨fadd_of_sum_zero ha hb, fmul_of_product_zero ha hb,
      fdiv_of_dividend_zero ha hb, fdiv_of_divisor_zero ha hb⟩,
    fun a b => congrArg (fadd a) (fneg_eq_xor b),
    fun a b ha hb => ⟨fadd_inf_left ha hb, fadd_inf_comm ha hb, fmul_inf_left ha hb,
      fmul_inf_comm ha hb, fdiv_inf_left ha hb, fdiv_inf_right ha hb⟩,
    fun a b => arith_of_isNaN,
    fun a b => ⟨flt_iff a b, fgt_iff a b, fle_iff a b⟩,
    fun n hn => ?_, fun x hx => ?_, fun x => roundf_of_not_finite, fun x lo hi => rfl,
    fun x => toNatFlag_of_isNaN, fun x n _ => toNatFlag_of_value⟩
  · obtain ⟨_, hval, hsign⟩ := f32OfNat_exact n hn
    exact ⟨hval, signOf_eq _ ▸ hsign⟩
  · simp only [← signOf_eq]
    exact roundf_of_finite hx

/-! ### The round trip of a byte (40_vectorizer.md R106) -/

/-- A value nearer than a half to a whole number is rounded to it by `roundf`. -/
theorem f32Value_roundf_of_near {x : F32} (n : Nat) (hx : f32Exponent x ≠ 255)
    (h : |f32Value x - n| < 1 / 2) : f32Value (roundf x) = n := by
  obtain ⟨hlo, hhi⟩ := abs_lt.mp h
  have hn0 : (0 : ℚ) ≤ n := Nat.cast_nonneg n
  have habs : (0 : ℚ) ≤ |f32Value x| := abs_nonneg _
  have hvalue : f32Value x = (if signOf x then -1 else 1) * |f32Value x| := by
    rw [abs_f32Value, f32Value_signed, unitsOf_eq, mul_div_assoc]
  rw [(roundf_of_finite hx).1]
  cases hs : signOf x with
  | false =>
    rw [hs, if_neg Bool.false_ne_true, one_mul] at hvalue
    have hfloor : ⌊|f32Value x| + 1 / 2⌋ = (n : ℤ) := by
      rw [← hvalue, Int.floor_eq_iff, Int.cast_natCast]
      constructor <;> linarith
    rw [hfloor, if_neg Bool.false_ne_true, one_mul, Int.cast_natCast]
  | true =>
    rw [hs, if_pos rfl, neg_one_mul] at hvalue
    have hn : n = 0 := by
      have : (n : ℚ) < 1 := by linarith
      exact Nat.lt_one_iff.mp (by exact_mod_cast this)
    have hfloor : ⌊|f32Value x| + 1 / 2⌋ = (0 : ℤ) := by
      rw [hn, Nat.cast_zero] at hlo
      rw [Int.floor_eq_iff, Int.cast_zero]
      constructor <;> linarith
    rw [hfloor, hn, Int.cast_zero, Nat.cast_zero, mul_zero]

/-- The forward conversion is off by at most 2^-16 (40_vectorizer.md R101): the quotient cut to 16
binary places is a value, and the rounded quotient is no farther off. -/
theorem vecFwdSample_near (b : Byte) :
    f32Exponent (vecFwdSample b) ≠ 255
      ∧ |f32Value (vecFwdSample b) - (b.toNat : ℚ) / 255| ≤ 1 / 2 ^ 16 := by
  have hb : b.toNat ≤ 255 := Nat.le_of_lt_succ b.isLt
  have hbq : (b.toNat : ℚ) ≤ 255 := by exact_mod_cast hb
  obtain ⟨hfin, hval, _⟩ := f32OfNat_exact b.toNat hb
  have hround : RoundsTo ((b.toNat : ℚ) / 255) (vecFwdSample b) := by
    have := roundsTo_fdiv (b := f255) hfin (by decide) (by rw [f32Value_f255]; norm_num)
    rwa [hval, f32Value_f255] at this
  have hsmall : |(b.toNat : ℚ) / 255| < 2 ^ 128 - 2 ^ 103 := by
    rw [abs_of_nonneg (by positivity)]
    calc (b.toNat : ℚ) / 255 ≤ 1 := (div_le_one (by norm_num)).mpr hbq
      _ < 2 ^ 128 - 2 ^ 103 := by norm_num
  obtain ⟨n, hn⟩ : ∃ n, n = b.toNat * 2 ^ 16 / 255 := ⟨_, rfl⟩
  obtain ⟨m, hm, hu⟩ := exists_finite_mag n 133 (by omega) (by decide)
  have hcut : f32Value (ofSignMag false m) = (n : ℚ) / 2 ^ 16 := by
    rw [f32Value_ofSignMag false m hm, hu, if_neg Bool.false_ne_true, one_mul]
    push_cast
    rw [div_eq_div_iff (by positivity) (by positivity)]
    ring
  have hlo : (n : ℚ) * 255 ≤ b.toNat * 2 ^ 16 := by exact_mod_cast (by omega)
  have hhi : (b.toNat : ℚ) * 2 ^ 16 ≤ (n + 1) * 255 := by exact_mod_cast (by omega)
  have hle := hround.nearest hsmall (ofSignMag false m) (exponent_ofSignMag hm)
  refine ⟨hround.finite hsmall, hle.trans ?_⟩
  rw [hcut, abs_le]
  constructor <;> linarith

/-- A value within 1/8 of n/255 after the multiplication by 255 gives the byte n: the rounded product
is no farther from the exact one than n is. -/
theorem vecInvSample_of_near {x : F32} (n : Nat) (hn : n ≤ 255) (hx : f32Exponent x ≠ 255)
    (h : |(n : ℚ) - f32Value x * 255| ≤ 1 / 8) : vecInvSample x = (n, false) := by
  have hnq : (n : ℚ) ≤ 255 := by exact_mod_cast hn
  have hn0 : (0 : ℚ) ≤ n := Nat.cast_nonneg n
  obtain ⟨hfin, hval, _⟩ := f32OfNat_exact n hn
  obtain ⟨hlo, hhi⟩ := abs_le.mp h
  have hround : RoundsTo (f32Value x * 255) (fmul x f255) := by
    have := roundsTo_fmul (b := f255) hx (by decide)
    rwa [f32Value_f255] at this
  have hsmall : |f32Value x * 255| < 2 ^ 128 - 2 ^ 103 := by
    have : |f32Value x * 255| ≤ 256 := abs_le.mpr ⟨by linarith, by linarith⟩
    exact this.trans_lt (by norm_num)
  have hprod : f32Exponent (fmul x f255) ≠ 255 := hround.finite hsmall
  have hnear : |f32Value (fmul x f255) - n| < 1 / 2 := by
    have hle := (hround.nearest hsmall _ hfin).trans (hval ▸ h)
    obtain ⟨hlo', hhi'⟩ := abs_le.mp hle
    exact abs_lt.mpr ⟨by linarith, by linarith⟩
  have hwhole : f32Value (roundf (fmul x f255)) = n := f32Value_roundf_of_near n hprod hnear
  have hnan : isNaN (roundf (fmul x f255)) = false := by
    rw [isNaN_roundf, isNaN_of_finite hprod]
  rw [vecInvSample, clampf_of_mem (by rwa [hwhole, f32Value_f0]) (by rwa [hwhole, f32Value_f255])]
  exact toNatFlag_of_value hnan hwhole

/-- Settles O36: the two roundings together stay well below a half. -/
theorem sampleConversionRoundTrip : Obligations.SampleConversionRoundTrip := by
  intro b
  obtain ⟨hfin, hnear⟩ := vecFwdSample_near b
  obtain ⟨hlo, hhi⟩ := abs_le.mp hnear
  refine vecInvSample_of_near b.toNat (Nat.le_of_lt_succ b.isLt) hfin ?_
  exact abs_le.mpr ⟨by linarith, by linarith⟩

end Sys2Proof.Machine
end

section
/-! SUPPORT. VEC_LOAD and VEC_STORE (40_vectorizer.md R102, R105): what an answered body of each does,
what memory reads as after writes of samples, and a store stopped by a refused write. -/

namespace Sys2Proof.Machine

/-! ### Memory after writes -/

/-- Of the writes of a rising list of indices, the last one at an address is what it reads as. -/
theorem Memory.read_writeAll_map_last {ι : Type} [Preorder ι] (l : List ι) (f : ι → Nat)
    (g : ι → Byte) (m : Memory) (j : ι) (hl : l.Pairwise (· < ·)) (hj : j ∈ l)
    (hlast : ∀ j' ∈ l, j < j' → f j' ≠ f j) :
    (m.writeAll (l.map fun i => (f i, g i))).read (f j) = g j := by
  obtain ⟨pre, post, rfl⟩ := List.append_of_mem hj
  have hpost : ∀ j' ∈ post, j < j' := (List.pairwise_cons.mp (List.pairwise_append.mp hl).2.1).1
  rw [List.map_append, List.map_cons]
  refine Memory.read_writeAll_last _ _ m (f j) (g j) ?_
  simp only [List.mem_map, forall_exists_index, and_imp]
  rintro _ j' hj' rfl
  exact hlast j' (by simp [hj']) (hpost j' hj')

/-- An address that none of the indices names reads as before. -/
theorem Memory.read_writeAll_map_other {ι : Type} (l : List ι) (f : ι → Nat) (g : ι → Byte)
    (m : Memory) (a : Nat) (h : ∀ j ∈ l, f j ≠ a) :
    (m.writeAll (l.map fun i => (f i, g i))).read a = m.read a := by
  refine Memory.read_writeAll_other _ m a ?_
  simp only [List.mem_map, forall_exists_index, and_imp]
  rintro _ j hj rfl
  exact h j hj

/-- Writes of the bytes that already stand there change no byte, whatever addresses repeat. -/
theorem Memory.read_writeAll_of_unchanged (l : List (Nat × Byte)) (m : Memory)
    (h : ∀ p ∈ l, p.2 = m.read p.1) (a : Nat) : (m.writeAll l).read a = m.read a := by
  induction l generalizing m with
  | nil => rfl
  | cons p l ih =>
    have hsame : ∀ x, (m.write p.1 p.2).read x = m.read x := by
      intro x
      rw [Memory.read_write]
      split
      · next hx => rw [hx, h p List.mem_cons_self]
      · rfl
    rw [Memory.writeAll_cons, ih _ fun q hq => ?_, hsame]
    rw [hsame, h q (List.mem_cons_of_mem p hq)]

/-! ### Answered bodies -/

/-- A body with the accesses of a block is below 2^32 when the block is (20_memory.md R63). -/
theorem bodyInSpace_of_block {s : State} {d : Dir} {k : Nat} {ops : List MicroOp}
    (hops : accessSeq ops = s.blockAccesses d k) (h : ∀ j, s.pixAddr k j < 2 ^ 32) :
    BodyInSpace ops := by
  simpa [BodyInSpace, hops, State.blockAccesses] using h

/-- It is answered when each access of the block is (20_memory.md R61). -/
theorem bodyAnswered_of_block {s : State} {d : Dir} {k : Nat} {ops : List MicroOp}
    (hops : accessSeq ops = s.blockAccesses d k)
    (h : ∀ j, s.answer d (s.pixAddr k j) = .completes) : BodyAnswered s ops := by
  simpa [BodyAnswered, hops, State.blockAccesses] using h

/-- A block read whole is its samples converted forward, in V (40_vectorizer.md R102). The addresses
are those of `s`; the bytes are those of the state the body runs in. -/
theorem effects_vecLoadOps (s t : State) (k : Nat) (ht : t.rbuf = []) :
    effects (vecLoadOps s k) t =
      { t with v := Vector.ofFn fun j => vecFwdSample (t.mem.read (s.pixAddr k j)), rbuf := [] } := by
  rw [vecLoadOps, effects_append, effects_reads, ht]
  simp [opEffect, unitStep, blockOfBytes]

/-- Samples written in order: memory takes their bytes, and NUMERR the NaNs among them
(40_vectorizer.md R105). -/
theorem effects_sampleWrites (l : List (Fin 192)) (f : Fin 192 → Nat) (t : State) :
    effects (l.map fun j => .write (f j) (.sample j)) t =
      { t with
        mem := t.mem.writeAll (l.map fun j => (f j, BitVec.ofNat 8 (vecInvSample t.v[j]).1))
        numerr := t.numerr || l.any fun j => isNaN t.v[j] } := by
  simp only [effects_writes, State.sourceByte, vecInvSample_flag]

/-- VEC_LOAD of an answered block (40_vectorizer.md R102). -/
theorem exec_vecLoad (s : State) (k : Nat) (hc : Instr.CfgOk (.vecLoad k) s)
    (ha : Instr.ArgOk (.vecLoad k) s) (hsp : ∀ j, s.pixAddr k j < 2 ^ 32)
    (hans : ∀ j, s.answer .read (s.pixAddr k j) = .completes) :
    exec (.vecLoad k) s = .next (complete .ok { s with v := s.tileBlock k }) := by
  have hseq := accessSeq_vecLoadOps s k
  rw [exec_of_checked _ s hc ha trivial (bodyInSpace_of_block hseq hsp)
    (bodyAnswered_of_block hseq hans), Instr.body, effects_vecLoadOps _ _ _ rfl]
  rfl

/-- VEC_STORE to an answered block (40_vectorizer.md R105). -/
theorem exec_vecStore (s : State) (k : Nat) (hc : Instr.CfgOk (.vecStore k) s)
    (ha : Instr.ArgOk (.vecStore k) s) (hsp : ∀ j, s.pixAddr k j < 2 ^ 32)
    (hans : ∀ j, s.answer .write (s.pixAddr k j) = .completes) :
    exec (.vecStore k) s = .next (complete .ok
      { s with
        mem := s.withBlock s.mem k s.v
        numerr := s.numerr || (List.finRange 192).any fun j => isNaN s.v[j] }) := by
  have hseq := accessSeq_vecStoreOps s k
  rw [exec_of_checked _ s hc ha trivial (bodyInSpace_of_block hseq hsp)
    (bodyAnswered_of_block hseq hans), Instr.body, vecStoreOps,
    effects_sampleWrites]
  rfl

/-- The byte of a sample as a number: the conversion stays in 0..255 (40_vectorizer.md R104). -/
theorem toNat_sampleByte (x : F32) :
    (BitVec.ofNat 8 (vecInvSample x).1).toNat = (vecInvSample x).1 := by
  rw [BitVec.toNat_ofNat, Nat.mod_eq_of_lt (Nat.lt_succ_of_le (vecInvSample_le x))]

theorem withBlock_read_last (s : State) (m : Memory) (k : Nat) (v : BlockVec) (j : Fin 192)
    (h : ∀ j', j < j' → s.pixAddr k j' ≠ s.pixAddr k j) :
    ((s.withBlock m k v).read (s.pixAddr k j)).toNat = (vecInvSample v[j]).1 := by
  rw [State.withBlock, Memory.read_writeAll_map_last _ _ _ m j (List.pairwise_lt_finRange 192)
    (List.mem_finRange j) fun j' _ => h j', toNat_sampleByte]

theorem withBlock_read_other (s : State) (m : Memory) (k : Nat) (v : BlockVec) (a : Nat)
    (h : ∀ j, s.pixAddr k j ≠ a) : (s.withBlock m k v).read a = m.read a :=
  Memory.read_writeAll_map_other _ _ _ m a fun j _ => h j

/-- Where a block is written depends on its addresses only. -/
theorem State.withBlock_of_pixAddr_eq {s t : State} (h : t.pixAddr = s.pixAddr) :
    t.withBlock = s.withBlock := by
  unfold State.withBlock
  rw [h]

/-- A block written back as it was loaded changes no byte (40_vectorizer.md R106). -/
theorem withBlock_tileBlock_read (s : State) (k a : Nat) :
    (s.withBlock s.mem k (s.tileBlock k)).read a = s.mem.read a := by
  refine Memory.read_writeAll_of_unchanged _ s.mem (fun p hp => ?_) a
  obtain ⟨j, _, rfl⟩ := List.mem_map.mp hp
  have hsample : (s.tileBlock k)[j] = vecFwdSample (s.mem.read (s.pixAddr k j)) := by
    simp [State.tileBlock]
  rw [hsample, sampleConversionRoundTrip]
  exact BitVec.ofNat_toNat 8 _

/-- Settles O27. -/
theorem vecLoadUnpacksTheBlock : Obligations.VecLoadUnpacksTheBlock := by
  intro s k hc ha h
  refine ⟨_, exec_vecLoad s k hc ha (fun j => (h j).1) fun j => (h j).2, rfl, fun j => ?_⟩
  simp [State.tileBlock, vecFwdSample, f255]

/-- Settles O28: the last write at an address stands, and the flag gathers the NaNs. -/
theorem vecStorePacksTheBlock : Obligations.VecStorePacksTheBlock := by
  intro s k hc ha h
  refine ⟨_, exec_vecStore s k hc ha (fun j => (h j).1) fun j => (h j).2,
    by simp only [complete, ErrCode.bits], fun j hlast => ?_,
    fun a hother => ?_, ?_⟩
  · simp only [complete_mem]
    rw [withBlock_read_last s s.mem k s.v j hlast, vecInvSample, f0, f255]
  · simp only [complete_mem]
    exact withBlock_read_other s s.mem k s.v a hother
  · simp

/-- Settles O37: the store finds in V the block as memory holds it. -/
theorem vecLoadThenStoreRestoresMemory : Obligations.VecLoadThenStoreRestoresMemory := by
  intro s t k hc ha h hload
  have hsp := fun j => (h j).1
  have ht : t = complete .ok { s with v := s.tileBlock k } :=
    Host.Outcome.next.inj (hload.symm.trans (exec_vecLoad s k hc ha hsp fun j => (h j).2.1))
  have hpix : t.pixAddr = s.pixAddr := by rw [ht]; rfl
  have hmem : t.mem = s.mem := by rw [ht, complete_mem]
  have hv : t.v = s.tileBlock k := by rw [ht, complete_v]
  have hstore := exec_vecStore t k (by rw [ht]; exact hc) (by rw [ht]; exact fun _ => ha _)
    (hpix ▸ hsp) (by rw [ht]; exact fun j => (h j).2.2)
  refine ⟨_, hstore, complete_err _ _, fun a => ?_⟩
  simp only [complete_mem, State.withBlock_of_pixAddr_eq hpix, hmem, hv]
  exact withBlock_tileBlock_read s k a

/-! ### A store stopped by a refused write -/

/-- The indices below one, in order, stand before it among all of them. -/
theorem finRange_split {n : Nat} (i : Fin n) :
    ∃ pre post, List.finRange n = pre ++ i :: post ∧ pre.Pairwise (· < ·)
      ∧ ∀ j, j ∈ pre ↔ j < i := by
  obtain ⟨pre, post, hsplit⟩ := List.append_of_mem (List.mem_finRange i)
  have hsorted := hsplit ▸ List.pairwise_lt_finRange n
  obtain ⟨hpre, hrest, hcross⟩ := List.pairwise_append.mp hsorted
  refine ⟨pre, post, hsplit, hpre, fun j => ⟨fun hj => hcross j hj i List.mem_cons_self, ?_⟩⟩
  intro hji
  have hmem : j ∈ pre ++ i :: post := hsplit ▸ List.mem_finRange j
  rcases List.mem_append.mp hmem with hj | hj
  · exact hj
  · rcases List.mem_cons.mp hj with rfl | hj
    · exact absurd hji (lt_irrefl j)
    · exact absurd hji ((List.pairwise_cons.mp hrest).1 j hj).asymm

/-- Settles O45: the samples before the refused write have been written like those of a whole
store. -/
theorem refusedVecStoreKeepsItsFront : Obligations.RefusedVecStoreKeepsItsFront := by
  intro s k j0 hc ha hsp hans href
  obtain ⟨pre, post, hsplit, hsorted, hmem⟩ := finRange_split j0
  have hbody : Instr.body (.vecStore k) s
      = (pre.map fun j => .write (s.pixAddr k j) (.sample j))
        ++ .write (s.pixAddr k j0) (.sample j0)
          :: post.map fun j => .write (s.pixAddr k j) (.sample j) := by
    rw [Instr.body, vecStoreOps, hsplit, List.map_append, List.map_cons]
  have hfront : BodyAnswered s (pre.map fun j => .write (s.pixAddr k j) (.sample j)) := by
    intro p hp
    rw [accessSeq_writes] at hp
    obtain ⟨j, hj, rfl⟩ := List.mem_map.mp hp
    exact hans j ((hmem j).mp hj)
  have hexec := exec_of_refused (.vecStore k) s hc ha trivial
    (bodyInSpace_of_block (accessSeq_vecStoreOps s k) hsp) _ _ _ .write
    (s.pixAddr k j0) hbody hfront rfl href
  rw [effects_sampleWrites] at hexec
  refine ⟨_, hexec, rfl, fun j hj hlast => ?_, fun a hother => ?_, ?_⟩
  · rw [raiseError_mem, Memory.read_writeAll_map_last pre _ _ _ j hsorted ((hmem j).mpr hj)
      fun j' hj' => hlast j' ((hmem j').mp hj'), toNat_sampleByte]
  · exact Memory.read_writeAll_map_other pre _ _ _ a fun j hj => hother j ((hmem j).mp hj)
  · simp [hmem]

end Sys2Proof.Machine
end

section
/-! SUPPORT. The commands whose body is one register step, and PROJ_FWD and PROJ_INV among them
(41_projection.md R120 to R123). -/

namespace Sys2Proof.Machine

/-! ### Commands of one register step -/

/-- A command that makes no check but OPC and no access (20_memory.md R64) does its register step and
completes with OK, whatever memory answers. -/
theorem exec_of_unitBody (i : Instr) (u : UnitOp) (s : State) (hc : i.needsCfg = false)
    (ha : i.blockIndex = none) (hz : i.SizeOk s) (hbody : i.body s = [.unit u]) :
    exec i s = .next (complete .ok
      (unitStep u { s with inflight := some [.unit u], rbuf := [] })) := by
  have hseq : accessSeq (i.body s) = [] := by rw [hbody]; rfl
  have hcfg : i.CfgOk s := fun h => absurd h (by simp [hc])
  have harg : i.ArgOk s := fun k h => absurd h (by simp [ha])
  have hspace : BodyInSpace (i.body s) := by simp [BodyInSpace, hseq]
  have hans : BodyAnswered s (i.body s) := by simp [BodyAnswered, hseq]
  rw [exec_of_checked i s hcfg harg hz hspace hans, hbody]
  rfl

/-! ### The projections -/

/-- One coefficient of the forward projection (41_projection.md R120). -/
theorem getElem_projFwd (b : Build) (v : BlockVec) (i : Fin 8) :
    (projFwd b v)[i] =
      (List.finRange 192).foldl
        (fun acc j => fadd acc (fmul (fsub v[j] b.mean[j]) (b.basis[i])[j])) f0 := by
  rw [projFwd, Fin.getElem_fin, Vector.getElem_ofFn]

/-- One sample of the inverse projection (41_projection.md R122). -/
theorem getElem_projInv (b : Build) (co : Coeffs) (j : Fin 192) :
    (projInv b co)[j] =
      fadd b.mean[j]
        ((List.finRange 8).foldl (fun acc i => fadd acc (fmul co[i] (b.basis[i])[j])) f0) := by
  rw [projInv, Fin.getElem_fin, Vector.getElem_ofFn]

/-- PROJ_FWD writes C and nothing else before its completion (41_projection.md R121). -/
theorem exec_projFwd (s : State) :
    exec .projFwd s = .next (complete .ok { s with c := projFwd s.build s.v }) :=
  exec_of_unitBody .projFwd .projFwd s rfl rfl trivial rfl

/-- PROJ_INV writes V and nothing else before its completion (41_projection.md R123). -/
theorem exec_projInv (s : State) :
    exec .projInv s = .next (complete .ok { s with v := projInv s.build s.c }) :=
  exec_of_unitBody .projInv .projInv s rfl rfl trivial rfl

/-- Settles O21: the command writes the forward projection, coefficient by coefficient. -/
theorem projFwdComputesCoefficients : Obligations.ProjFwdComputesCoefficients := by
  intro s
  exact ⟨_, exec_projFwd s, rfl, getElem_projFwd s.build s.v⟩

/-- Settles O22: the command writes the inverse projection, sample by sample. -/
theorem projInvReconstructsBlock : Obligations.ProjInvReconstructsBlock := by
  intro s
  exact ⟨_, exec_projInv s, rfl, getElem_projInv s.build s.c⟩

end Sys2Proof.Machine
end

section
/-! SUPPORT. The commands RANGE_CLR and RANGE_ACC, and the range tracker over a sequence of
coefficient vectors (42_range.md R140 to R142). -/

namespace Sys2Proof.Machine

/-! ### The commands -/

/-- One channel of RMIN after RANGE_ACC (42_range.md R141). -/
theorem getElem_rangeMin (co rmin : Coeffs) (i : Fin 8) :
    (rangeMin co rmin)[i] = if flt co[i] rmin[i] then co[i] else rmin[i] := by
  rw [rangeMin, Fin.getElem_fin, Vector.getElem_ofFn]

/-- One channel of RMAX after RANGE_ACC (42_range.md R141). -/
theorem getElem_rangeMax (co rmax : Coeffs) (i : Fin 8) :
    (rangeMax co rmax)[i] = if fgt co[i] rmax[i] then co[i] else rmax[i] := by
  rw [rangeMax, Fin.getElem_fin, Vector.getElem_ofFn]

theorem getElem_emptyMin (i : Fin 8) : emptyMin[i] = posInf :=
  Vector.getElem_replicate i.isLt

theorem getElem_emptyMax (i : Fin 8) : emptyMax[i] = negInf :=
  Vector.getElem_replicate i.isLt

/-- RANGE_CLR writes RMIN and RMAX and nothing else before its completion (42_range.md R140). -/
theorem exec_rangeClr (s : State) :
    exec .rangeClr s = .next (complete .ok { s with rmin := emptyMin, rmax := emptyMax }) :=
  exec_of_unitBody .rangeClr .rangeClr s rfl rfl trivial rfl

/-- RANGE_ACC writes RMIN and RMAX and nothing else before its completion (42_range.md R141). -/
theorem exec_rangeAcc (s : State) :
    exec .rangeAcc s = .next (complete .ok
      { s with rmin := rangeMin s.c s.rmin, rmax := rangeMax s.c s.rmax }) :=
  exec_of_unitBody .rangeAcc .rangeAcc s rfl rfl trivial rfl

/-- Settles O23: the command writes the empty range in every channel. -/
theorem rangeClrEmptiesTheRange : Obligations.RangeClrEmptiesTheRange := by
  intro s
  exact ⟨_, exec_rangeClr s, rfl, fun i => ⟨getElem_emptyMin i, getElem_emptyMax i⟩⟩

/-- Settles O24: the command compares each coefficient with both old bounds of its channel. -/
theorem rangeAccWidensTheRange : Obligations.RangeAccWidensTheRange := by
  intro s
  exact ⟨_, exec_rangeAcc s, rfl, fun i =>
    ⟨getElem_rangeMin s.c s.rmin i, getElem_rangeMax s.c s.rmax i⟩⟩

/-! ### The bounds of the order

The empty range's bounds are extreme, so a value that does not pass one is that very pattern: the
tracker keeps +inf or -inf rightly when it is the first value of its channel. -/

theorem orderKey_mem_of_not_nan {x : F32} (h : isNaN x = false) :
    -0x7F800000 ≤ orderKey x ∧ orderKey x ≤ 0x7F800000 := by
  rw [isNaN, decide_eq_false_iff_not] at h
  unfold orderKey
  split <;> omega

theorem natAbs_orderKey (x : F32) : (orderKey x).natAbs = magOf x := by
  unfold orderKey
  split <;> omega

theorem signOf_of_orderKey_ne_zero {x : F32} (h : orderKey x ≠ 0) :
    signOf x = decide (orderKey x < 0) := by
  unfold orderKey at h ⊢
  cases hs : signOf x
  · simp
  · simp only [hs, if_true] at h ⊢
    exact (decide_eq_true (by omega)).symm

/-- Only the two zeros share a place in the order (00_scope.md R12). -/
theorem eq_of_orderKey_eq {x y : F32} (h : orderKey x = orderKey y) (h0 : orderKey y ≠ 0) :
    x = y := by
  refine eq_of_signOf_magOf ?_ ?_
  · rw [signOf_of_orderKey_ne_zero (h ▸ h0), signOf_of_orderKey_ne_zero h0, h]
  · rw [← natAbs_orderKey, ← natAbs_orderKey, h]

theorem eq_posInf_of_not_flt {x : F32} (hx : isNaN x = false) (h : flt x posInf = false) :
    x = posInf := by
  have hinf : isNaN posInf = false := rfl
  have hkey : orderKey posInf = 0x7F800000 := rfl
  have hmem := orderKey_mem_of_not_nan hx
  simp only [flt, hx, hinf, Bool.not_false, Bool.true_and, decide_eq_false_iff_not] at h
  exact eq_of_orderKey_eq (by omega) (by omega)

theorem eq_negInf_of_not_fgt {x : F32} (hx : isNaN x = false) (h : fgt x negInf = false) :
    x = negInf := by
  have hinf : isNaN negInf = false := rfl
  have hkey : orderKey negInf = -0x7F800000 := rfl
  have hmem := orderKey_mem_of_not_nan hx
  simp only [fgt, flt, hx, hinf, Bool.not_false, Bool.true_and, decide_eq_false_iff_not] at h
  exact eq_of_orderKey_eq (by omega) (by omega)

/-! ### One channel of the tracker

The least and the greatest are one argument, over a test `lt` and the numbers it compares. -/

/-- `lt` tests whether one value's number is strictly below another's, and fails on a NaN. -/
def ComparesBy (lt : F32 → F32 → Bool) (key : F32 → ℚ) : Prop :=
  ∀ a b, lt a b = true ↔ isNaN a = false ∧ isNaN b = false ∧ key a < key b

theorem flt_comparesBy : ComparesBy flt f32Value := flt_iff

theorem fgt_comparesBy : ComparesBy fgt (fun x => -f32Value x) := fun a b => by
  rw [fgt_iff, neg_lt_neg_iff, gt_iff_lt]

/-- One bound of channel `i` after a sequence of coefficient vectors, from `r`: each value that
passes the test against the bound replaces it (42_range.md R141). -/
def track (lt : F32 → F32 → Bool) (i : Fin 8) (r : F32) (cs : List Coeffs) : F32 :=
  cs.foldl (fun r co => if lt co[i] r then co[i] else r) r

/-- `x` is a value of channel `i` strictly better, by `lt`, than every earlier one that is no NaN,
and no later one is better than it: for an `x` that is no NaN, the first best (42_range.md R142). -/
def FirstBest (lt : F32 → F32 → Bool) (i : Fin 8) (cs : List Coeffs) (x : F32) : Prop :=
  ∃ pre co post, cs = pre ++ co :: post ∧ co[i] = x
    ∧ (∀ d ∈ pre, isNaN d[i] = true ∨ lt x d[i] = true)
    ∧ ∀ d ∈ post, lt d[i] x = false

theorem getElem_foldl_rangeMin (cs : List Coeffs) (r : Coeffs) (i : Fin 8) :
    (cs.foldl (fun r co => rangeMin co r) r)[i] = track flt i r[i] cs :=
  (List.foldl_hom (fun r : Coeffs => r[i]) fun r co => (getElem_rangeMin co r i).symm).symm

theorem getElem_foldl_rangeMax (cs : List Coeffs) (r : Coeffs) (i : Fin 8) :
    (cs.foldl (fun r co => rangeMax co r) r)[i] = track fgt i r[i] cs :=
  (List.foldl_hom (fun r : Coeffs => r[i]) fun r co => (getElem_rangeMax co r i).symm).symm

theorem track_append_singleton (lt : F32 → F32 → Bool) (i : Fin 8) (r : F32) (cs : List Coeffs)
    (d : Coeffs) :
    track lt i r (cs ++ [d])
      = if lt d[i] (track lt i r cs) then d[i] else track lt i r cs := by
  rw [track, List.foldl_append]
  rfl

section
variable {lt : F32 → F32 → Bool} {key : F32 → ℚ} {i : Fin 8} {cs : List Coeffs} {x r : F32}

theorem ComparesBy.not_lt_of_nan (hlt : ComparesBy lt key) {a b : F32} (h : isNaN a = true) :
    lt a b = false := by
  rw [← Bool.not_eq_true, hlt, h]
  simp

theorem ComparesBy.not_lt_iff (hlt : ComparesBy lt key) {a b : F32} (ha : isNaN a = false)
    (hb : isNaN b = false) : lt a b = false ↔ key b ≤ key a := by
  rw [← Bool.not_eq_true, hlt, ← not_lt]
  simp [ha, hb]

/-- No value of the channel is better than the first best. -/
theorem FirstBest.not_lt (hlt : ComparesBy lt key) (h : FirstBest lt i cs x) :
    ∀ d ∈ cs, lt d[i] x = false := by
  obtain ⟨pre, co, post, rfl, rfl, hpre, hpost⟩ := h
  intro d hd
  rw [← Bool.not_eq_true]
  intro hdx
  obtain ⟨hdn, -, hdx'⟩ := (hlt _ _).mp hdx
  rw [List.mem_append, List.mem_cons] at hd
  obtain hd | rfl | hd := hd
  · obtain hn | hxd := hpre d hd
    · exact absurd hn (Bool.eq_false_iff.mp hdn)
    · exact lt_asymm hdx' ((hlt _ _).mp hxd).2.2
  · exact lt_irrefl _ hdx'
  · exact absurd hdx (Bool.eq_false_iff.mp (hpost d hd))

/-- A vector after the others that is better than every one of them is the first best. -/
theorem FirstBest.of_last (d : Coeffs)
    (h : ∀ e ∈ cs, isNaN e[i] = true ∨ lt d[i] e[i] = true) :
    FirstBest lt i (cs ++ [d]) d[i] :=
  ⟨cs, d, [], rfl, rfl, h, by simp⟩

/-- A vector after the others that is no better than the first best leaves it the first best. -/
theorem FirstBest.append_singleton (h : FirstBest lt i cs x) (d : Coeffs)
    (hd : lt d[i] x = false) : FirstBest lt i (cs ++ [d]) x := by
  obtain ⟨pre, co, post, rfl, hco, hpre, hpost⟩ := h
  refine ⟨pre, co, post ++ [d], by simp, hco, hpre, fun e he => ?_⟩
  rw [List.mem_append, List.mem_singleton] at he
  obtain he | rfl := he
  · exact hpost e he
  · exact hd

/-- A channel that saw only NaNs keeps its bound (42_range.md R142). -/
theorem track_of_all_nan (hlt : ComparesBy lt key) (h : ∀ co ∈ cs, isNaN co[i] = true) :
    track lt i r cs = r := by
  induction cs using List.reverseRecOn with
  | nil => rfl
  | append_singleton cs d ih =>
    have hcs : track lt i r cs = r := ih fun co hco => h co (List.mem_append_left _ hco)
    have hd : isNaN d[i] = true := h d (by simp)
    rw [track_append_singleton, hlt.not_lt_of_nan hd, hcs]
    rfl

/-- From a bound that only its own pattern does not pass, a channel that saw a value that is no NaN
holds the first best of them (42_range.md R142). -/
theorem track_isFirstBest (hlt : ComparesBy lt key)
    (hr : ∀ x, isNaN x = false → lt x r = false → x = r)
    (h : ∃ co ∈ cs, isNaN co[i] = false) :
    isNaN (track lt i r cs) = false ∧ FirstBest lt i cs (track lt i r cs) := by
  induction cs using List.reverseRecOn with
  | nil => simp at h
  | append_singleton cs d ih =>
    rw [track_append_singleton]
    by_cases hcs : ∃ co ∈ cs, isNaN co[i] = false
    · obtain ⟨hnan, hbest⟩ := ih hcs
      cases hd : lt d[i] (track lt i r cs) with
      | true =>
        obtain ⟨hdn, -, hdx⟩ := (hlt _ _).mp hd
        refine ⟨hdn, FirstBest.of_last d fun e he => ?_⟩
        cases hen : isNaN e[i] with
        | true => exact .inl rfl
        | false =>
          have hle := (hlt.not_lt_iff hen hnan).mp (hbest.not_lt hlt e he)
          exact .inr ((hlt _ _).mpr ⟨hdn, hen, lt_of_lt_of_le hdx hle⟩)
      | false => exact ⟨hnan, hbest.append_singleton d hd⟩
    · have hall : ∀ co ∈ cs, isNaN co[i] = true := by simpa using hcs
      have hdn : isNaN d[i] = false := by
        obtain ⟨co, hco, hn⟩ := h
        rw [List.mem_append, List.mem_singleton] at hco
        obtain hco | rfl := hco
        · exact absurd ⟨co, hco, hn⟩ hcs
        · exact hn
      have hstep : (if lt d[i] r then d[i] else r) = d[i] := by
        cases hd : lt d[i] r with
        | true => rfl
        | false => exact (hr _ hdn hd).symm
      rw [track_of_all_nan hlt hall, hstep]
      exact ⟨hdn, FirstBest.of_last d fun e he => .inl (hall e he)⟩

end

/-- The first least and the first greatest of a channel are in order (42_range.md R142). -/
theorem fle_of_firstBest {i : Fin 8} {cs : List Coeffs} {lo hi : F32} (hlo : isNaN lo = false)
    (hhi : isNaN hi = false) (hleast : FirstBest flt i cs lo) (hgreatest : FirstBest fgt i cs hi) :
    fle lo hi = true := by
  obtain ⟨pre, co, post, rfl, rfl, -, -⟩ := hleast
  have hnot : fgt co[i] hi = false := hgreatest.not_lt fgt_comparesBy co (by simp)
  have hle := (fgt_comparesBy.not_lt_iff hlo hhi).mp hnot
  exact (fle_iff _ _).mpr ⟨hlo, hhi, neg_le_neg_iff.mp hle⟩

/-- Settles O41: both bounds of a channel are one tracker, by induction over the vectors it saw. -/
theorem rangeTrackerHoldsLeastAndGreatest : Obligations.RangeTrackerHoldsLeastAndGreatest := by
  intro cs i
  rw [getElem_foldl_rangeMin, getElem_foldl_rangeMax, getElem_emptyMin, getElem_emptyMax]
  refine ⟨fun hall => ⟨track_of_all_nan flt_comparesBy hall, track_of_all_nan fgt_comparesBy hall⟩,
    fun hex => ?_⟩
  obtain ⟨hlo, hleast⟩ :=
    track_isFirstBest flt_comparesBy (fun _ => eq_posInf_of_not_flt) hex
  obtain ⟨hhi, hgreatest⟩ :=
    track_isFirstBest fgt_comparesBy (fun _ => eq_negInf_of_not_fgt) hex
  exact ⟨fle_of_firstBest hlo hhi hleast hgreatest, hleast, hgreatest⟩

end Sys2Proof.Machine
end

section
/-! SUPPORT. The quantizer (43_quantizer.md R150 to R159): packing and unpacking as numbers, the code of
one coefficient and its bounds, and the commands QUANT and DEQUANT. -/

namespace Sys2Proof.Machine

/-! ### The code registers as numbers (10_state.md R44, 43_quantizer.md R150) -/

/-- The level counts of R150. -/
theorem levels_eq (i : Fin 8) : levels i = #v[255, 255, 15, 15, 3, 3, 3, 3][i] := by
  fin_cases i <;> rfl

theorem levels_le (i : Fin 8) : levels i ≤ 255 := by
  fin_cases i <;> decide

theorem levels_ne_zero (i : Fin 8) : levels i ≠ 0 := by
  fin_cases i <;> decide

theorem lt_two_pow_codeWidth_iff (n : Nat) (i : Fin 8) : n < 2 ^ codeWidth i ↔ n ≤ levels i :=
  Nat.lt_iff_le_pred (Nat.two_pow_pos _)

theorem Codes.get_le_levels (q : Codes) (i : Fin 8) : q.get i ≤ levels i :=
  (lt_two_pow_codeWidth_iff _ i).mp (q.get_lt i)

theorem Codes.get_ofNats (f : Fin 8 → Nat) (i : Fin 8) :
    (Codes.ofNats f).get i = f i % 2 ^ codeWidth i := by
  fin_cases i <;> exact BitVec.toNat_ofNat _ _

theorem Codes.ext_get {q q' : Codes} (h : ∀ i, q.get i = q'.get i) : q = q' := by
  cases q
  cases q'
  rw [Codes.mk.injEq]
  exact ⟨BitVec.eq_of_toNat_eq (h 0), BitVec.eq_of_toNat_eq (h 1), BitVec.eq_of_toNat_eq (h 2),
    BitVec.eq_of_toNat_eq (h 3), BitVec.eq_of_toNat_eq (h 4), BitVec.eq_of_toNat_eq (h 5),
    BitVec.eq_of_toNat_eq (h 6), BitVec.eq_of_toNat_eq (h 7)⟩

/-! ### Packing and unpacking (43_quantizer.md R154, R155, R158) -/

/-- Each code of an unpacked record is its field of the record layout (43_quantizer.md R155). -/
theorem get_unpackCodes (r : Word) (i : Fin 8) :
    (unpackCodes r).get i = r.toNat / 2 ^ codeLowBit i % 2 ^ codeWidth i := by
  rw [← Nat.shiftRight_eq_div_pow]
  fin_cases i <;> exact BitVec.extractLsb'_toNat _ _ _

/-- A packed record is its codes, each from its lowest bit on (43_quantizer.md R154). -/
theorem toNat_packCodes (q : Codes) :
    (packCodes q).toNat = ∑ i, q.get i * 2 ^ codeLowBit i := by
  simp only [packCodes, toNat_append_eq_add, Fin.sum_univ_eight, Codes.get, codeLowBit]
  omega

theorem unpackCodes_packCodes (q : Codes) : unpackCodes (packCodes q) = q := by
  refine Codes.ext_get fun i => ?_
  rw [get_unpackCodes, toNat_packCodes, Fin.sum_univ_eight]
  fin_cases i <;> simp only [Codes.get, codeWidth, codeLowBit] <;> omega

theorem packCodes_unpackCodes (r : Word) : packCodes (unpackCodes r) = r := by
  apply BitVec.eq_of_toNat_eq
  simp only [toNat_packCodes, get_unpackCodes, Fin.sum_univ_eight, codeWidth, codeLowBit]
  omega

/-- Settles O42: the fields of the record layout fill the word and do not overlap. -/
theorem packAndUnpackAreInverse : Obligations.PackAndUnpackAreInverse :=
  ⟨unpackCodes_packCodes, packCodes_unpackCodes, by decide, by decide, by decide⟩

/-! ### The code of one coefficient (43_quantizer.md R151, R152, R159) -/

theorem toNatFlag_snd (x : F32) : (toNatFlag x).2 = isNaN x := by
  unfold toNatFlag
  split
  · next h => exact h.symm
  · next h => exact (Bool.eq_false_iff.mpr h).symm

/-- The value R151 converts to an integer where the range is not degenerate. -/
def scaledCode (v mn mx : F32) (l : Nat) : F32 :=
  roundf (fmul (clampf (fdiv (fsub v mn) (fsub mx mn)) f0 f1) (f32OfNat l))

theorem quant1_of_fle {mn mx : F32} (h : fle mx mn = true) (v : F32) (l : Nat) :
    quant1 v mn mx l = (0, false) := if_pos h

theorem quant1_of_not_fle {mn mx : F32} (h : fle mx mn = false) (v : F32) (l : Nat) :
    quant1 v mn mx l = toNatFlag (scaledCode v mn mx l) := by
  rw [quant1, h]
  rfl

theorem quant1_fst (v mn mx : F32) (l : Nat) :
    (quant1 v mn mx l).1 = if fle mx mn then 0 else (toNatFlag (scaledCode v mn mx l)).1 := by
  rw [quant1, apply_ite Prod.fst]
  rfl

theorem quant1_snd_iff (v mn mx : F32) (l : Nat) :
    (quant1 v mn mx l).2 = true ↔ fle mx mn = false ∧ isNaN (scaledCode v mn mx l) = true := by
  cases h : fle mx mn with
  | true => simp [quant1_of_fle h]
  | false => simp [quant1_of_not_fle h, toNatFlag_snd]

/-- A NaN quotient passes through every later step (00_scope.md R13). -/
theorem isNaN_scaledCode_of_quotient {v mn mx : F32} (l : Nat)
    (h : isNaN (fdiv (fsub v mn) (fsub mx mn)) = true) : isNaN (scaledCode v mn mx l) = true := by
  obtain ⟨_, _, hmul, _⟩ := arith_of_isNaN (b := f32OfNat l) (.inl h)
  rw [scaledCode, clampf, if_pos h, isNaN_roundf, hmul]
  rfl

/-- A NaN lower bound makes the dividend, and with it the quotient, a NaN. -/
theorem isNaN_scaledCode_of_bound {mn : F32} (h : isNaN mn = true) (v mx : F32) (l : Nat) :
    isNaN (scaledCode v mn mx l) = true := by
  obtain ⟨_, hsub, _, _⟩ := arith_of_isNaN (a := v) (.inr h)
  have hdividend : isNaN (fsub v mn) = true := by rw [hsub]; rfl
  obtain ⟨_, _, _, hdiv⟩ := arith_of_isNaN (b := fsub mx mn) (.inl hdividend)
  exact isNaN_scaledCode_of_quotient l (by rw [hdiv]; rfl)

/-- Settles O40: a bound that is no NaN is at most itself, so nothing is divided; a NaN bound is not,
and the conversion meets the NaN. -/
theorem degenerateRangeGivesCodeZero : Obligations.DegenerateRangeGivesCodeZero := by
  intro v m l
  cases hm : isNaN m with
  | true =>
    have hfle : fle m m = false := by simp [fle, hm]
    rw [quant1_of_not_fle hfle, toNatFlag_of_isNaN (isNaN_scaledCode_of_bound hm v m l)]
  | false =>
    have hfle : fle m m = true := (fle_iff m m).mpr ⟨hm, hm, le_rfl⟩
    exact quant1_of_fle hfle v l

/-! ### A code fits its width

Each step of R151 after the quotient keeps a value between 0 and a bound that is itself a value. -/

theorem exponent_ne_255_of_abs_lt {x : F32} (h : |f32Value x| < 2 ^ 128) : f32Exponent x ≠ 255 := by
  intro hx
  have hu : unitsOfMag 0x7F800000 ≤ unitsOf x :=
    unitsOfMag_strictMono.monotone ((exponent_eq_255 x).mp hx)
  have hinf : unitsOfMag 0x7F800000 = 2 ^ 128 * 2 ^ 149 := by decide
  rw [abs_f32Value, div_lt_iff₀ (by positivity)] at h
  have h' : unitsOf x < 2 ^ 128 * 2 ^ 149 := by exact_mod_cast h
  omega

/-- Rounding keeps a number between two values: no value is nearer to it than its rounding. -/
theorem RoundsTo.mem_of_mem {q : ℚ} {r lo hi : F32} (h : RoundsTo q r)
    (hq : |q| < 2 ^ 128 - 2 ^ 103) (hlo : f32Exponent lo ≠ 255) (hhi : f32Exponent hi ≠ 255)
    (hloq : f32Value lo ≤ q) (hqhi : q ≤ f32Value hi) :
    f32Value lo ≤ f32Value r ∧ f32Value r ≤ f32Value hi := by
  have h1 := (abs_le.mp (h.nearest hq lo hlo)).1
  have h2 := (abs_le.mp (h.nearest hq hi hhi)).2
  rw [abs_of_nonpos (by linarith)] at h1
  rw [abs_of_nonneg (by linarith)] at h2
  constructor <;> linarith

/-- `roundf` keeps a value between 0 and a whole number. -/
theorem roundf_mem {x : F32} {n : Nat} (hx : f32Exponent x ≠ 255) (h0 : 0 ≤ f32Value x)
    (hn : f32Value x ≤ n) : 0 ≤ f32Value (roundf x) ∧ f32Value (roundf x) ≤ n := by
  have hfloor : (⌊f32Value x + 1 / 2⌋ : ℚ) ≤ n := by
    have : ⌊f32Value x + 1 / 2⌋ < (n : ℤ) + 1 := Int.floor_lt.mpr (by push_cast; linarith)
    exact_mod_cast Int.lt_add_one_iff.mp this
  have hfloor0 : (0 : ℚ) ≤ ⌊f32Value x + 1 / 2⌋ := by
    exact_mod_cast Int.floor_nonneg.mpr (by linarith)
  rw [(roundf_of_finite hx).1, abs_of_nonneg h0]
  cases hs : signOf x with
  | false => rw [if_neg Bool.false_ne_true, one_mul]; exact ⟨hfloor0, hfloor⟩
  | true =>
    have hzero : f32Value x = 0 := by
      refine le_antisymm ?_ h0
      rw [f32Value_signed, hs, if_pos rfl, neg_one_mul]
      exact div_nonpos_of_nonpos_of_nonneg (by simp) (by positivity)
    have hhalf : ⌊(0 : ℚ) + 1 / 2⌋ = 0 := by norm_num
    rw [hzero, hhalf, Int.cast_zero, mul_zero]
    exact ⟨le_rfl, Nat.cast_nonneg n⟩

theorem f32Value_f1 : f32Value f1 = 1 := by
  have h : f32OfNat 1 = f1 := by decide
  simpa [h] using (f32OfNat_exact 1 (by decide)).2.1

/-- The value converted lies in [0, L] where the quotient is no NaN: a product of a value in [0, 1]
with L is in [0, L] and L is a value. -/
theorem scaledCode_mem {v mn mx : F32} {l : Nat} (hl : l ≤ 255)
    (h : isNaN (fdiv (fsub v mn) (fsub mx mn)) = false) :
    0 ≤ f32Value (scaledCode v mn mx l) ∧ f32Value (scaledCode v mn mx l) ≤ l := by
  obtain ⟨hunit0, hunit1⟩ := clampf_mem h (lo := f0) (hi := f1) rfl rfl
    (by rw [f32Value_f0, f32Value_f1]; norm_num)
  unfold scaledCode
  generalize clampf (fdiv (fsub v mn) (fsub mx mn)) f0 f1 = x at hunit0 hunit1 ⊢
  rw [f32Value_f0] at hunit0
  rw [f32Value_f1] at hunit1
  obtain ⟨hlfin, hlval, _⟩ := f32OfNat_exact l hl
  have hl0 : (0 : ℚ) ≤ l := Nat.cast_nonneg l
  have hl255 : (l : ℚ) ≤ 255 := by exact_mod_cast hl
  have hxfin : f32Exponent x ≠ 255 :=
    exponent_ne_255_of_abs_lt (by rw [abs_of_nonneg hunit0]; exact hunit1.trans_lt (by norm_num))
  have hround : RoundsTo (f32Value x * l) (fmul x (f32OfNat l)) := by
    have := roundsTo_fmul hxfin hlfin
    rwa [hlval] at this
  have hprod0 : 0 ≤ f32Value x * l := mul_nonneg hunit0 hl0
  have hprodl : f32Value x * l ≤ l := mul_le_of_le_one_left hl0 hunit1
  have hsmall : |f32Value x * l| < 2 ^ 128 - 2 ^ 103 := by
    rw [abs_of_nonneg hprod0]
    exact (hprodl.trans hl255).trans_lt (by norm_num)
  obtain ⟨hy0, hyl⟩ := hround.mem_of_mem hsmall (lo := f0) (by decide) hlfin
    (by rwa [f32Value_f0]) (by rwa [hlval])
  rw [f32Value_f0] at hy0
  rw [hlval] at hyl
  exact roundf_mem (hround.finite hsmall) hy0 hyl

/-- A code is at most its level count (43_quantizer.md R152). -/
theorem quant1_le (v mn mx : F32) {l : Nat} (hl : l ≤ 255) : (quant1 v mn mx l).1 ≤ l := by
  cases hfle : fle mx mn with
  | true =>
    rw [quant1_of_fle hfle]
    exact Nat.zero_le l
  | false =>
    rw [quant1_of_not_fle hfle]
    cases hq : isNaN (fdiv (fsub v mn) (fsub mx mn)) with
    | true =>
      rw [toNatFlag_of_isNaN (isNaN_scaledCode_of_quotient l hq)]
      exact Nat.zero_le l
    | false =>
      obtain ⟨h0, hle⟩ := scaledCode_mem hl hq
      exact toNatFlag_le _ l h0 hle

/-- Settles O39: the level counts are at most 255, where `quant1_le` holds. -/
theorem codesFitTheirWidths : Obligations.CodesFitTheirWidths := by
  intro v mn mx i
  have hle : (quant1 v mn mx (levels i)).1 ≤ levels i := quant1_le v mn mx (levels_le i)
  exact ⟨hle, (lt_two_pow_codeWidth_iff _ i).mpr hle⟩

/-! ### The commands (43_quantizer.md R156, R157) -/

/-- The code registers lose nothing of a code (43_quantizer.md R152, R156). -/
theorem get_quantCodes (co rmin rmax : Coeffs) (i : Fin 8) :
    (quantCodes co rmin rmax).get i = (quant1 co[i] rmin[i] rmax[i] (levels i)).1 := by
  rw [quantCodes, Codes.get_ofNats]
  exact Nat.mod_eq_of_lt ((lt_two_pow_codeWidth_iff _ i).mpr (quant1_le _ _ _ (levels_le i)))

theorem quantFlag_iff (co rmin rmax : Coeffs) :
    quantFlag co rmin rmax = true ↔
      ∃ i : Fin 8, fle rmax[i] rmin[i] = false
        ∧ isNaN (scaledCode co[i] rmin[i] rmax[i] (levels i)) = true := by
  simp only [quantFlag, List.any_eq_true, List.mem_finRange, true_and, quant1_snd_iff]

/-- One coefficient of DEQUANT: a code is never above its level count, which is never 0
(43_quantizer.md R153). -/
theorem getElem_dequantCoeffs (q : Codes) (rmin rmax : Coeffs) (i : Fin 8) :
    (dequantCoeffs q rmin rmax)[i] =
      fadd rmin[i]
        (fmul (fdiv (f32OfNat (q.get i)) (f32OfNat (levels i))) (fsub rmax[i] rmin[i])) := by
  rw [dequantCoeffs, Fin.getElem_fin, Vector.getElem_ofFn, dequant1, if_neg (levels_ne_zero i),
    Nat.min_eq_left (q.get_le_levels i)]

/-- QUANT writes Q, REC and NUMERR and nothing else before its completion (43_quantizer.md R156). -/
theorem exec_quant (s : State) :
    exec .quant s = .next (complete .ok
      { s with
        q := quantCodes s.c s.rmin s.rmax
        record := packCodes (quantCodes s.c s.rmin s.rmax)
        numerr := s.numerr || quantFlag s.c s.rmin s.rmax }) :=
  exec_of_unitBody .quant .quant s rfl rfl trivial rfl

/-- DEQUANT writes Q and C and nothing else before its completion (43_quantizer.md R157). -/
theorem exec_dequant (s : State) :
    exec .dequant s = .next (complete .ok
      { s with
        q := unpackCodes s.record
        c := dequantCoeffs (unpackCodes s.record) s.rmin s.rmax }) :=
  exec_of_unitBody .dequant .dequant s rfl rfl trivial rfl

/-- Settles O25: the command writes the code of each channel, which its register holds whole, and
packs these very codes. -/
theorem quantCodesAndPacks : Obligations.QuantCodesAndPacks := by
  intro s
  refine ⟨_, exec_quant s, rfl, fun i => ⟨?_, ?_⟩, ?_⟩
  · simp only [← levels_eq]
    exact (get_quantCodes s.c s.rmin s.rmax i).trans (quant1_fst _ _ _ _)
  · rw [← get_unpackCodes]
    exact congrArg (Codes.get · i) (unpackCodes_packCodes _)
  · simp only [← levels_eq]
    rw [complete_numerr, Bool.or_eq_true, quantFlag_iff]
    rfl

/-- Settles O26: the command writes the fields of REC and scales these very codes. -/
theorem dequantUnpacksAndScales : Obligations.DequantUnpacksAndScales := by
  intro s
  exact ⟨_, exec_dequant s, rfl, fun i =>
    ⟨get_unpackCodes s.record i, getElem_dequantCoeffs _ s.rmin s.rmax i⟩⟩

end Sys2Proof.Machine
end

section
/-! SUPPORT. The packet commands HDR_STORE, HDR_LOAD, REC_STORE and REC_LOAD (44_packet.md R170 to
R176): words by their bytes, memory with a header or a record written, and what an answered body of
each command does. -/

namespace Sys2Proof.Machine

/-! ### Words by their bytes (20_memory.md R62) -/

/-- The bits of a word put together from four bytes are those of the byte they fall in. -/
theorem getLsbD_wordOfBytes (b0 b1 b2 b3 : Byte) (n : Nat) :
    (wordOfBytes b0 b1 b2 b3).getLsbD n =
      if n < 8 then b0.getLsbD n
      else if n < 16 then b1.getLsbD (n - 8)
      else if n < 24 then b2.getLsbD (n - 16)
      else b3.getLsbD (n - 24) := by
  have happend : (wordOfBytes b0 b1 b2 b3).getLsbD n
      = (b3 ++ b2 ++ b1 ++ b0 : BitVec (8 + 8 + 8 + 8)).getLsbD n := rfl
  simp only [happend, BitVec.getLsbD_append]
  grind

/-- The bytes a word is put together from are its bytes. -/
theorem byteOf_wordOfBytes (f : Fin 4 → Byte) (b : Fin 4) :
    byteOf (wordOfBytes (f 0) (f 1) (f 2) (f 3)) b.val = f b := by
  ext i hi
  rw [byteOf, BitVec.getElem_extractLsb', getLsbD_wordOfBytes]
  match b with
  | 0 => simp [hi]
  | 1 => simp [hi, show 8 + i < 16 by omega]
  | 2 => simp [hi, show ¬16 + i < 8 by omega, show 16 + i < 24 by omega]
  | 3 => simp [hi, show ¬24 + i < 8 by omega, show ¬24 + i < 16 by omega]

/-- Two words with the same four bytes are one word, bit for bit. -/
theorem word_ext_byteOf {w w' : Word} (h : ∀ b : Fin 4, byteOf w b.val = byteOf w' b.val) :
    w = w' := by
  refine BitVec.eq_of_getLsbD_eq fun i hi => ?_
  have hbyte := congrArg (·.getLsbD (i % 8)) (h ⟨i / 8, by omega⟩)
  simpa [byteOf, Nat.mod_lt, Nat.div_add_mod] using hbyte

/-! ### Addresses and bytes of the packet (44_packet.md R170, R171) -/

theorem State.hdrAddr_injective (s : State) : Function.Injective s.hdrAddr := fun _ _ h =>
  Fin.ext (Nat.add_left_cancel h)

theorem State.recAddr_injective (s : State) (k : Nat) : Function.Injective (s.recAddr k) :=
  fun _ _ h => Fin.ext (Nat.add_left_cancel h)

/-- The first 32 header bytes are RMIN. -/
theorem hdrByte_low (lo hi : Coeffs) (e : Fin 8) (b : Fin 4) :
    hdrByte lo hi (Fin.ofNat 64 (4 * e.val + b.val)) = byteOf lo[e] b.val := by
  have hvalue : (4 * e.val + b.val) % 64 / 4 = e.val := by omega
  have hbyte : (4 * e.val + b.val) % 64 % 4 = b.val := by omega
  simp [hdrByte, hvalue, hbyte, Nat.mod_eq_of_lt]

/-- The other 32 header bytes are RMAX. -/
theorem hdrByte_high (lo hi : Coeffs) (e : Fin 8) (b : Fin 4) :
    hdrByte lo hi (Fin.ofNat 64 (32 + 4 * e.val + b.val)) = byteOf hi[e] b.val := by
  have hvalue : (32 + 4 * e.val + b.val) % 64 / 4 = 8 + e.val := by omega
  have hbyte : (32 + 4 * e.val + b.val) % 64 % 4 = b.val := by omega
  simp [hdrByte, hvalue, hbyte, Nat.mod_eq_of_lt]

/-! ### Memory with a header or a record written -/

/-- A memory with the header of a range written (44_packet.md R172). -/
def State.withHeader (s : State) (m : Memory) (lo hi : Coeffs) : Memory :=
  m.writeAll ((List.finRange 64).map fun b => (s.hdrAddr b, hdrByte lo hi b))

/-- A memory with a word written as the record of block k (44_packet.md R175). -/
def State.withRecord (s : State) (m : Memory) (k : Nat) (r : Word) : Memory :=
  m.writeAll ((List.finRange 4).map fun b => (s.recAddr k b, byteOf r b.val))

/-- Bytes written at addresses that all differ are all there afterwards. -/
theorem Memory.read_writeAll_of_injective {n : Nat} {f : Fin n → Nat} (hf : Function.Injective f)
    (g : Fin n → Byte) (m : Memory) (j : Fin n) :
    (m.writeAll ((List.finRange n).map fun i => (f i, g i))).read (f j) = g j :=
  Memory.read_writeAll_map_last _ f g m j (List.pairwise_lt_finRange n) (List.mem_finRange j)
    fun _ _ hlt => hf.ne hlt.ne'

theorem withHeader_read (s : State) (m : Memory) (lo hi : Coeffs) (b : Fin 64) :
    (s.withHeader m lo hi).read (s.hdrAddr b) = hdrByte lo hi b :=
  Memory.read_writeAll_of_injective s.hdrAddr_injective _ m b

theorem withHeader_read_other (s : State) (m : Memory) (lo hi : Coeffs) (a : Nat)
    (h : ∀ b, s.hdrAddr b ≠ a) : (s.withHeader m lo hi).read a = m.read a :=
  Memory.read_writeAll_map_other _ _ _ m a fun b _ => h b

theorem withRecord_read (s : State) (m : Memory) (k : Nat) (r : Word) (b : Fin 4) :
    (s.withRecord m k r).read (s.recAddr k b) = byteOf r b.val :=
  Memory.read_writeAll_of_injective (s.recAddr_injective k) _ m b

theorem withRecord_read_other (s : State) (m : Memory) (k : Nat) (r : Word) (a : Nat)
    (h : ∀ b, s.recAddr k b ≠ a) : (s.withRecord m k r).read a = m.read a :=
  Memory.read_writeAll_map_other _ _ _ m a fun b _ => h b

/-! ### The values a packet in memory holds (44_packet.md R173, R176) -/

theorem byteOf_hdrWord (s : State) (e : Fin 16) (b : Fin 4) :
    byteOf (s.hdrWord e) b.val = s.mem.read (s.hdrAddr (Fin.ofNat 64 (4 * e.val + b.val))) :=
  byteOf_wordOfBytes (fun b => s.mem.read (s.hdrAddr (Fin.ofNat 64 (4 * e.val + b.val)))) b

theorem byteOf_packetMin (s : State) (e : Fin 8) (b : Fin 4) :
    byteOf s.packetMin[e] b.val = s.mem.read (s.hdrAddr (Fin.ofNat 64 (4 * e.val + b.val))) := by
  have hvalue : (Fin.ofNat 16 e.val).val = e.val := Nat.mod_eq_of_lt (by omega)
  rw [State.packetMin, Fin.getElem_fin, Vector.getElem_ofFn, byteOf_hdrWord, hvalue]

theorem byteOf_packetMax (s : State) (e : Fin 8) (b : Fin 4) :
    byteOf s.packetMax[e] b.val
      = s.mem.read (s.hdrAddr (Fin.ofNat 64 (32 + 4 * e.val + b.val))) := by
  have hvalue : (Fin.ofNat 16 (8 + e.val)).val = 8 + e.val := Nat.mod_eq_of_lt (by omega)
  rw [State.packetMax, Fin.getElem_fin, Vector.getElem_ofFn, byteOf_hdrWord, hvalue, Nat.mul_add]

theorem byteOf_recordIn (s : State) (m : Memory) (k : Nat) (b : Fin 4) :
    byteOf (s.recordIn m k) b.val = m.read (s.recAddr k b) :=
  byteOf_wordOfBytes (fun b => m.read (s.recAddr k b)) b

/-- A packet in memory after its header was written holds the range written, bit for bit
(44_packet.md R171). -/
theorem packet_of_withHeader {s t : State} {m : Memory} {lo hi : Coeffs}
    (hbase : t.pktBase = s.pktBase) (hmem : t.mem = s.withHeader m lo hi) :
    t.packetMin = lo ∧ t.packetMax = hi := by
  have hread (b : Fin 64) : t.mem.read (t.hdrAddr b) = hdrByte lo hi b := by
    rw [hmem, State.hdrAddr, hbase]
    exact withHeader_read s m lo hi b
  constructor
  · refine Vector.ext fun e he => word_ext_byteOf fun b => ?_
    exact (byteOf_packetMin t ⟨e, he⟩ b).trans ((hread _).trans (hdrByte_low lo hi ⟨e, he⟩ b))
  · refine Vector.ext fun e he => word_ext_byteOf fun b => ?_
    exact (byteOf_packetMax t ⟨e, he⟩ b).trans ((hread _).trans (hdrByte_high lo hi ⟨e, he⟩ b))

/-! ### Answered bodies -/

/-- The header written is that of the state the body runs in; no byte of it sets NUMERR. -/
theorem effects_hdrStoreOps (s t : State) :
    effects (hdrStoreOps s) t = { t with mem := s.withHeader t.mem t.rmin t.rmax } := by
  simp [hdrStoreOps, effects_writes, State.sourceByte, State.withHeader]

theorem effects_recStoreOps (s t : State) (k : Nat) :
    effects (recStoreOps s k) t = { t with mem := s.withRecord t.mem k t.record } := by
  simp [recStoreOps, effects_writes, State.sourceByte, State.withRecord]

/-- Byte i of the list of bytes that a function gives for the indices below n + 1. -/
theorem getD_map_finRange {n : Nat} (f : Fin (n + 1) → Byte) {i : Nat} (hi : i < n + 1) :
    ((List.finRange (n + 1)).map f).getD i 0 = f (Fin.ofNat (n + 1) i) := by
  simp [List.getD, hi, Fin.ofNat, Nat.mod_eq_of_lt]

/-- Header value e of the 64 bytes read is the word that stands there in memory. -/
theorem hdrValue_headerBytes (s : State) {e : Nat} (he : e < 16) :
    hdrValue ((List.finRange 64).map fun b => s.mem.read (s.hdrAddr b)) e
      = s.hdrWord (Fin.ofNat 16 e) := by
  have hvalue : (Fin.ofNat 16 e).val = e := Nat.mod_eq_of_lt he
  have hbyte {i : Nat} (hi : i < 64) := getD_map_finRange (fun b => s.mem.read (s.hdrAddr b)) hi
  rw [hdrValue, State.hdrWord, hvalue, hbyte (by omega), hbyte (by omega), hbyte (by omega),
    hbyte (by omega)]

/-- The 64 bytes read whole are the values of the header in memory, in RMIN and RMAX. The addresses
are those of `s`, at which the state the body runs in has its packet too. -/
theorem effects_hdrLoadOps (s t : State) (hbase : t.pktBase = s.pktBase) (ht : t.rbuf = []) :
    effects (hdrLoadOps s) t =
      { t with rmin := t.packetMin, rmax := t.packetMax, rbuf := [] } := by
  have haddr : s.hdrAddr = t.hdrAddr := by
    funext b
    rw [State.hdrAddr, State.hdrAddr, hbase]
  have hmin : coeffsOfBytes ((List.finRange 64).map fun b => t.mem.read (t.hdrAddr b)) 0
      = t.packetMin := by
    refine congrArg Vector.ofFn (funext fun i => ?_)
    rw [hdrValue_headerBytes t (by omega), Nat.zero_add]
  have hmax : coeffsOfBytes ((List.finRange 64).map fun b => t.mem.read (t.hdrAddr b)) 8
      = t.packetMax :=
    congrArg Vector.ofFn (funext fun i => hdrValue_headerBytes t (by omega))
  rw [hdrLoadOps, haddr, effects_append, effects_reads, ht]
  simp [opEffect, unitStep, hmin, hmax]

/-- The addresses are those of `s`; the bytes are those of the state the body runs in. -/
theorem effects_recLoadOps (s t : State) (k : Nat) (ht : t.rbuf = []) :
    effects (recLoadOps s k) t = { t with record := s.recordIn t.mem k, rbuf := [] } := by
  rw [recLoadOps, effects_append, effects_reads, ht]
  rfl

/-! ### The commands on an answered packet -/

/-- A command whose accesses all go one way has the effects of its body when each of its addresses is
below 2^32 and answered (20_memory.md R61, R63). -/
theorem exec_of_answered {ι : Type} {l : List ι} {d : Dir} {f : ι → Nat} (i : Instr) (s : State)
    (hc : i.CfgOk s) (ha : i.ArgOk s) (hz : i.SizeOk s)
    (hops : accessSeq (i.body s) = l.map fun j => (d, f j)) (hsp : ∀ j, f j < 2 ^ 32)
    (hans : ∀ j, s.answer d (f j) = .completes) :
    exec i s = .next (complete .ok
      (effects (i.body s) { s with inflight := some (i.body s), rbuf := [] })) := by
  refine exec_of_checked i s hc ha hz (fun p hp => ?_) fun p hp => ?_ <;>
    obtain ⟨j, _, rfl⟩ := List.mem_map.mp (hops ▸ hp)
  · exact hsp j
  · exact hans j

/-- HDR_STORE writes the header of RMIN and RMAX and nothing else before its completion (44_packet.md
R172). -/
theorem exec_hdrStore (s : State) (hz : 64 ≤ s.pktBuflen.toNat) (hsp : ∀ b, s.hdrAddr b < 2 ^ 32)
    (hans : ∀ b, s.answer .write (s.hdrAddr b) = .completes) :
    exec .hdrStore s =
      .next (complete .ok { s with mem := s.withHeader s.mem s.rmin s.rmax }) := by
  rw [exec_of_answered .hdrStore s nofun nofun hz (accessSeq_hdrStoreOps s) hsp hans, Instr.body,
    effects_hdrStoreOps]
  rfl

/-- HDR_LOAD writes RMIN and RMAX and nothing else before its completion (44_packet.md R173). -/
theorem exec_hdrLoad (s : State) (hz : 64 ≤ s.pktBuflen.toNat) (hsp : ∀ b, s.hdrAddr b < 2 ^ 32)
    (hans : ∀ b, s.answer .read (s.hdrAddr b) = .completes) :
    exec .hdrLoad s =
      .next (complete .ok { s with rmin := s.packetMin, rmax := s.packetMax }) := by
  rw [exec_of_answered .hdrLoad s nofun nofun hz (accessSeq_hdrLoadOps s) hsp hans, Instr.body,
    effects_hdrLoadOps s _ (by rfl) (by rfl)]
  rfl

/-- REC_STORE writes the record of block k and nothing else before its completion (44_packet.md
R175). -/
theorem exec_recStore (s : State) (k : Nat) (hc : Instr.CfgOk (.recStore k) s)
    (ha : Instr.ArgOk (.recStore k) s) (hz : Instr.SizeOk (.recStore k) s)
    (hsp : ∀ b, s.recAddr k b < 2 ^ 32)
    (hans : ∀ b, s.answer .write (s.recAddr k b) = .completes) :
    exec (.recStore k) s =
      .next (complete .ok { s with mem := s.withRecord s.mem k s.record }) := by
  rw [exec_of_answered _ s hc ha hz (accessSeq_recStoreOps s k) hsp hans, Instr.body,
    effects_recStoreOps]
  rfl

/-- REC_LOAD writes REC and nothing else before its completion (44_packet.md R176). -/
theorem exec_recLoad (s : State) (k : Nat) (hc : Instr.CfgOk (.recLoad k) s)
    (ha : Instr.ArgOk (.recLoad k) s) (hz : Instr.SizeOk (.recLoad k) s)
    (hsp : ∀ b, s.recAddr k b < 2 ^ 32)
    (hans : ∀ b, s.answer .read (s.recAddr k b) = .completes) :
    exec (.recLoad k) s = .next (complete .ok { s with record := s.recordIn s.mem k }) := by
  rw [exec_of_answered _ s hc ha hz (accessSeq_recLoadOps s k) hsp hans, Instr.body,
    effects_recLoadOps s _ k rfl]
  rfl

/-! ### The statements -/

/-- Settles O29: the 64 addresses differ, so each header byte stands as it was written. -/
theorem hdrStoreWritesTheHeader : Obligations.HdrStoreWritesTheHeader := by
  intro s hz h
  refine ⟨_, exec_hdrStore s hz (fun b => (h b).1) fun b => (h b).2, rfl, fun e b => ⟨?_, ?_⟩,
    withHeader_read_other s s.mem s.rmin s.rmax⟩
  · exact (withHeader_read s s.mem s.rmin s.rmax _).trans (hdrByte_low s.rmin s.rmax e b)
  · exact (withHeader_read s s.mem s.rmin s.rmax _).trans (hdrByte_high s.rmin s.rmax e b)

/-- Settles O30: the command loads the range the packet in memory holds, byte by byte. -/
theorem hdrLoadReadsTheHeader : Obligations.HdrLoadReadsTheHeader := by
  intro s hz h
  exact ⟨_, exec_hdrLoad s hz (fun b => (h b).1) fun b => (h b).2, rfl, fun e b =>
    ⟨byteOf_packetMin s e b, byteOf_packetMax s e b⟩⟩

/-- Settles O31: the 4 addresses differ, so each record byte stands as it was written. -/
theorem recStoreWritesTheRecord : Obligations.RecStoreWritesTheRecord := by
  intro s k hc ha hz h
  exact ⟨_, exec_recStore s k hc ha hz (fun b => (h b).1) fun b => (h b).2, rfl,
    withRecord_read s s.mem k s.record, withRecord_read_other s s.mem k s.record⟩

/-- Settles O32: the command loads the record memory holds, byte by byte. -/
theorem recLoadReadsTheRecord : Obligations.RecLoadReadsTheRecord := by
  intro s k hc ha hz h
  exact ⟨_, exec_recLoad s k hc ha hz (fun b => (h b).1) fun b => (h b).2, rfl,
    byteOf_recordIn s s.mem k⟩

/-- Settles O43: the load finds in memory the header the store wrote there. -/
theorem headerRoundTripKeepsPatterns : Obligations.HeaderRoundTripKeepsPatterns := by
  intro s t lo hi hz h hstore
  have ht : t = complete .ok { s with mem := s.withHeader s.mem s.rmin s.rmax } :=
    Host.Outcome.next.inj
      (hstore.symm.trans (exec_hdrStore s hz (fun b => (h b).1) fun b => (h b).2.1))
  subst ht
  obtain ⟨hmin, hmax⟩ := packet_of_withHeader (s := s)
    (t := { complete .ok { s with mem := s.withHeader s.mem s.rmin s.rmax } with
      rmin := lo, rmax := hi }) rfl rfl
  exact ⟨_, exec_hdrLoad _ hz (fun b => (h b).1) fun b => (h b).2.2, hmin, hmax, rfl⟩

end Sys2Proof.Machine
end

section
/-! SUPPORT. NOP and ENC_TILE (45_tile.md R190, R191, R194): the bytes a body writes, what the two
passes of ENC_TILE do, and the packet they leave in memory. -/

namespace Sys2Proof.Machine

/-- Settles O20: NOP makes no check but OPC, and its body is empty. -/
theorem nopOnlyCompletes : Obligations.NopOnlyCompletes := fun s =>
  exec_of_checked .nop s nofun nofun trivial nofun nofun

/-! ### The bytes a body writes -/

/-- What a piece of a body writes to memory when its access completes: nothing, or the byte of its
source at its address (20_memory.md R61). -/
def MicroOp.writesIn (op : MicroOp) (s : State) : List (Nat × Byte) :=
  match op with
  | .read _ => []
  | .write a src => [(a, (s.sourceByte src).1)]
  | .unit _ => []

/-- The bytes a body writes, in order and with their addresses, when every access completes
(20_memory.md R69). -/
def writesOf : List MicroOp → State → List (Nat × Byte)
  | [], _ => []
  | op :: ops, s => op.writesIn s ++ writesOf ops (opEffect op s)

theorem opEffect_mem_eq (op : MicroOp) (s : State) :
    (opEffect op s).mem = s.mem.writeAll (op.writesIn s) := by
  cases op with
  | read a => rfl
  | write a src => rfl
  | unit u => cases u <;> simp only [opEffect, unitStep, MicroOp.writesIn, Memory.writeAll_nil]

/-- How many bytes a piece writes does not depend on the state. -/
theorem MicroOp.length_writesIn (op : MicroOp) (s t : State) :
    (op.writesIn s).length = (op.writesIn t).length := by
  cases op <;> simp only [MicroOp.writesIn, List.length_nil, List.length_singleton]

/-- The memory after a body is the memory before it with the body's bytes written. -/
theorem effects_mem (ops : List MicroOp) (s : State) :
    (effects ops s).mem = s.mem.writeAll (writesOf ops s) := by
  induction ops generalizing s with
  | nil => rfl
  | cons op ops ih =>
    rw [effects_cons, ih, opEffect_mem_eq, writesOf, Memory.writeAll_append]

theorem writesOf_append (ops ops' : List MicroOp) (s : State) :
    writesOf (ops ++ ops') s = writesOf ops s ++ writesOf ops' (effects ops s) := by
  induction ops generalizing s with
  | nil => rfl
  | cons op ops ih => rw [List.cons_append, writesOf, writesOf, ih, List.append_assoc, effects_cons]

/-- A body without writes writes nothing. -/
theorem writesOf_eq_nil (ops : List MicroOp) (s : State)
    (h : ∀ op ∈ ops, ∀ t, op.writesIn t = []) : writesOf ops s = [] := by
  induction ops generalizing s with
  | nil => rfl
  | cons op ops ih =>
    rw [writesOf, h op List.mem_cons_self, ih _ fun o ho => h o (List.mem_cons_of_mem op ho)]
    rfl

/-- Writes in a row write the bytes of their sources. -/
theorem writesOf_writes {ι : Type} (l : List ι) (f : ι → Nat) (g : ι → Source) (s : State) :
    writesOf (l.map fun i => .write (f i) (g i)) s
      = l.map fun i => (f i, (s.sourceByte (g i)).1) := by
  induction l generalizing s with
  | nil => rfl
  | cons i l ih =>
    have hsource (j : ι) : (opEffect (.write (f i) (g i)) s).sourceByte (g j)
        = s.sourceByte (g j) := by cases g j <;> rfl
    simp only [List.map_cons, writesOf, ih, hsource, MicroOp.writesIn, List.cons_append,
      List.nil_append]

/-! ### Bodies block by block -/

theorem effects_flatMap_range_succ (f : Nat → List MicroOp) (n : Nat) (s : State) :
    effects ((List.range (n + 1)).flatMap f) s
      = effects (f n) (effects ((List.range n).flatMap f) s) := by
  rw [List.range_succ, List.flatMap_append, effects_append, List.flatMap_singleton]

/-- The bytes written block by block, each block from the state the blocks before it leave. -/
theorem writesOf_flatMap_range (f : Nat → List MicroOp) (n : Nat) (s : State) :
    writesOf ((List.range n).flatMap f) s
      = (List.range n).flatMap fun k =>
          writesOf (f k) (effects ((List.range k).flatMap f) s) := by
  induction n with
  | zero => rfl
  | succ n ih =>
    simp only [List.range_succ, List.flatMap_append, List.flatMap_singleton, writesOf_append, ih]

theorem any_range_succ (p : Nat → Bool) (n : Nat) :
    (List.range (n + 1)).any p = ((List.range n).any p || p n) := by
  simp [List.range_succ]

/-! ### Pass 1 of ENC_TILE (45_tile.md R191) -/

/-- CBUF after pass 1 has put in the coefficients of the first n blocks of the tile in memory
(45_tile.md R191). -/
def State.tileBuf (s : State) (n : Nat) : List Coeffs :=
  (List.range n).foldl (fun buf k => buf.set k (s.tileCoeffs k)) s.cbuf

theorem tileMin_succ (s : State) (n : Nat) :
    s.tileMin (n + 1) = rangeMin (s.tileCoeffs n) (s.tileMin n) := by
  simp [State.tileMin, List.range_succ]

theorem tileMax_succ (s : State) (n : Nat) :
    s.tileMax (n + 1) = rangeMax (s.tileCoeffs n) (s.tileMax n) := by
  simp [State.tileMax, List.range_succ]

theorem tileBuf_succ (s : State) (n : Nat) :
    s.tileBuf (n + 1) = (s.tileBuf n).set n (s.tileCoeffs n) := by
  simp [State.tileBuf, List.range_succ]

@[simp] theorem length_tileBuf (s : State) (n : Nat) : (s.tileBuf n).length = s.cbuf.length := by
  induction n with
  | zero => rfl
  | succ n ih => rw [tileBuf_succ, List.length_set, ih]

/-- Each entry put into a CBUF that has room for it is there afterwards (10_state.md R47). -/
theorem getElem?_tileBuf (s : State) {k n : Nat} (hk : k < n) (hn : n ≤ s.cbuf.length) :
    (s.tileBuf n)[k]? = some (s.tileCoeffs k) := by
  induction n with
  | zero => omega
  | succ n ih =>
    rw [tileBuf_succ, List.getElem?_set]
    split
    · next h =>
      subst h
      rw [if_pos (by rw [length_tileBuf]; omega)]
    · exact ih (by omega) (by omega)

/-- Pass 1 on block k while memory is as the command found it: V and C of the block, the range
widened, and the entry of CBUF. -/
theorem effects_encPass1 (s : State) (k : Nat) (hs : s.rbuf = []) (v : BlockVec)
    (co lo hi : Coeffs) (buf : List Coeffs) :
    effects (encPass1 s k) { s with v := v, c := co, rmin := lo, rmax := hi, cbuf := buf } =
      { s with
        v := s.tileBlock k
        c := s.tileCoeffs k
        rmin := rangeMin (s.tileCoeffs k) lo
        rmax := rangeMax (s.tileCoeffs k) hi
        cbuf := buf.set k (s.tileCoeffs k) } := by
  rw [encPass1, effects_append, effects_vecLoadOps s _ k (by exact hs)]
  simp only [effects_cons, effects_nil, opEffect, unitStep, hs]
  rfl

/-- Pass 1 on the first n blocks, from the empty range. -/
theorem effects_encPass1_range (s : State) (hs : s.rbuf = []) (n : Nat) :
    ∃ v co, effects ((List.range n).flatMap (encPass1 s))
        { s with rmin := emptyMin, rmax := emptyMax }
      = { s with
          v := v, c := co, rmin := s.tileMin n, rmax := s.tileMax n, cbuf := s.tileBuf n } := by
  induction n with
  | zero => exact ⟨s.v, s.c, rfl⟩
  | succ n ih =>
    obtain ⟨v, co, hn⟩ := ih
    refine ⟨s.tileBlock n, s.tileCoeffs n, ?_⟩
    rw [effects_flatMap_range_succ, hn, effects_encPass1 s n hs, tileMin_succ, tileMax_succ,
      tileBuf_succ]

/-- The state after pass 1 on the whole tile, its last block in V and C, with a memory (45_tile.md
R191). -/
def State.afterPass1 (s : State) (m : Memory) : State :=
  { s with
    v := s.tileBlock (s.blocks - 1)
    c := s.tileCoeffs (s.blocks - 1)
    rmin := s.tileMin s.blocks
    rmax := s.tileMax s.blocks
    cbuf := s.tileBuf s.blocks
    mem := m }

theorem effects_pass1 (s : State) (hs : s.rbuf = []) (h1 : 1 ≤ s.blocks) :
    effects ([.unit .rangeClr] ++ (List.range s.blocks).flatMap (encPass1 s)) s
      = s.afterPass1 s.mem := by
  obtain ⟨n, hn⟩ : ∃ n, s.blocks = n + 1 := ⟨s.blocks - 1, by omega⟩
  obtain ⟨v, co, hfront⟩ := effects_encPass1_range s hs n
  have hclr : effects [.unit .rangeClr] s = { s with rmin := emptyMin, rmax := emptyMax } := rfl
  rw [effects_append, hclr, State.afterPass1, hn, effects_flatMap_range_succ, hfront,
    effects_encPass1 s n hs, tileMin_succ, tileMax_succ, tileBuf_succ, Nat.add_sub_cancel]

/-- Pass 1 writes no byte of memory. -/
theorem writesOf_pass1 (s t : State) (n : Nat) :
    writesOf ([.unit .rangeClr] ++ (List.range n).flatMap (encPass1 s)) t = [] := by
  refine writesOf_eq_nil _ t fun op hop u => ?_
  simp only [encPass1, vecLoadOps, List.mem_append, List.mem_flatMap, List.mem_map, List.mem_cons,
    List.not_mem_nil, or_false] at hop
  rcases hop with rfl | ⟨_, _, (⟨_, _, rfl⟩ | rfl) | rfl | rfl | rfl⟩ <;> rfl

/-! ### Pass 2 of ENC_TILE (45_tile.md R191) -/

/-- The four bytes written as the record of block k (44_packet.md R174). -/
def State.recordWrites (s : State) (k : Nat) (r : Word) : List (Nat × Byte) :=
  (List.finRange 4).map fun b => (s.recAddr k b, byteOf r b.val)

/-- A state that pass 2 runs in: the finished range in RMIN and RMAX, and CBUF as pass 1 filled
it. -/
structure ReadyForPass2 (s t : State) : Prop where
  rmin : t.rmin = s.tileMin s.blocks
  rmax : t.rmax = s.tileMax s.blocks
  cbuf : ∀ k < s.blocks, t.cbuf[k]? = some (s.tileCoeffs k)

/-- Pass 2 keeps a state ready: it writes none of what it needs. -/
theorem ReadyForPass2.written {s t : State} (ht : ReadyForPass2 s t) {co : Coeffs} {q : Codes}
    {r : Word} {m : Memory} {e : Bool} :
    ReadyForPass2 s { t with c := co, q := q, record := r, mem := m, numerr := e } :=
  ⟨ht.rmin, ht.rmax, ht.cbuf⟩

/-- The register steps of pass 2 on block k: its coefficients from CBUF, their codes and their
record. -/
theorem effects_quantBlock {s t : State} (ht : ReadyForPass2 s t) {k : Nat} (hk : k < s.blocks) :
    effects [.unit (.bufGet k), .unit .quant] t =
      { t with
        c := s.tileCoeffs k
        q := s.tileCodes k
        record := packCodes (s.tileCodes k)
        numerr := t.numerr
          || quantFlag (s.tileCoeffs k) (s.tileMin s.blocks) (s.tileMax s.blocks) } := by
  have hget : t.cbuf.getD k t.c = s.tileCoeffs k := by
    rw [List.getD_eq_getElem?_getD, ht.cbuf k hk, Option.getD_some]
  simp only [effects_cons, effects_nil, opEffect, unitStep, hget, ht.rmin, ht.rmax,
    State.tileCodes]

theorem effects_encPass2 {s t : State} (ht : ReadyForPass2 s t) {k : Nat} (hk : k < s.blocks) :
    effects (encPass2 s k) t =
      { t with
        c := s.tileCoeffs k
        q := s.tileCodes k
        record := packCodes (s.tileCodes k)
        numerr := t.numerr
          || quantFlag (s.tileCoeffs k) (s.tileMin s.blocks) (s.tileMax s.blocks)
        mem := s.withRecord t.mem k (packCodes (s.tileCodes k)) } := by
  rw [encPass2, effects_append, effects_quantBlock ht hk, effects_recStoreOps]

theorem writesOf_encPass2 {s t : State} (ht : ReadyForPass2 s t) {k : Nat} (hk : k < s.blocks) :
    writesOf (encPass2 s k) t = s.recordWrites k (packCodes (s.tileCodes k)) := by
  rw [encPass2, writesOf_append, effects_quantBlock ht hk, recStoreOps, writesOf_writes]
  rfl

/-- Pass 2 on the first n blocks of the tile. -/
theorem effects_encPass2_range {s t : State} (ht : ReadyForPass2 s t) {n : Nat}
    (hn : n ≤ s.blocks) :
    ∃ co q r m, effects ((List.range n).flatMap (encPass2 s)) t =
      { t with
        c := co
        q := q
        record := r
        mem := m
        numerr := t.numerr || (List.range n).any fun k =>
          quantFlag (s.tileCoeffs k) (s.tileMin s.blocks) (s.tileMax s.blocks) } := by
  induction n with
  | zero => exact ⟨t.c, t.q, t.record, t.mem, by simp⟩
  | succ n ih =>
    obtain ⟨co, q, r, m, heff⟩ := ih (by omega)
    exact ⟨_, _, _, _, by
      rw [effects_flatMap_range_succ, heff,
        effects_encPass2 ht.written (by omega),
        any_range_succ, ← Bool.or_assoc]⟩

/-- Pass 2 on the whole tile leaves its last block in C, Q and REC. -/
theorem effects_pass2 {s t : State} (ht : ReadyForPass2 s t) (h1 : 1 ≤ s.blocks) :
    ∃ m, effects ((List.range s.blocks).flatMap (encPass2 s)) t =
      { t with
        c := s.tileCoeffs (s.blocks - 1)
        q := s.tileCodes (s.blocks - 1)
        record := packCodes (s.tileCodes (s.blocks - 1))
        mem := m
        numerr := t.numerr || (List.range s.blocks).any fun k =>
          quantFlag (s.tileCoeffs k) (s.tileMin s.blocks) (s.tileMax s.blocks) } := by
  have hlast : s.blocks - 1 + 1 = s.blocks := by omega
  obtain ⟨co, q, r, m, hfront⟩ := effects_encPass2_range ht (n := s.blocks - 1) (by omega)
  have hstep := effects_flatMap_range_succ (encPass2 s) (s.blocks - 1) t
  have hany := any_range_succ
    (fun k => quantFlag (s.tileCoeffs k) (s.tileMin s.blocks) (s.tileMax s.blocks)) (s.blocks - 1)
  rw [hlast] at hstep hany
  exact ⟨_, by
    rw [hstep, hfront, hany, ← Bool.or_assoc,
      effects_encPass2 ht.written (by omega)]⟩

/-- Pass 2 writes the records of the tile, block by block. -/
theorem writesOf_pass2 {s t : State} (ht : ReadyForPass2 s t) :
    writesOf ((List.range s.blocks).flatMap (encPass2 s)) t
      = (List.range s.blocks).flatMap fun k =>
          s.recordWrites k (packCodes (s.tileCodes k)) := by
  rw [writesOf_flatMap_range]
  refine List.flatMap_congr fun k hk => ?_
  have hlt : k < s.blocks := List.mem_range.mp hk
  obtain ⟨co, q, r, m, heff⟩ := effects_encPass2_range ht hlt.le
  rw [heff, writesOf_encPass2 ht.written hlt]

/-! ### The body of ENC_TILE -/

/-- The bytes of the packet of the tile in memory: the header of its range, then the record of each
block (44_packet.md R170). -/
def State.packetWrites (s : State) : List (Nat × Byte) :=
  ((List.finRange 64).map fun b =>
      (s.hdrAddr b, hdrByte (s.tileMin s.blocks) (s.tileMax s.blocks) b))
    ++ (List.range s.blocks).flatMap fun k => s.recordWrites k (packCodes (s.tileCodes k))

/-- The registers as block n - 1 leaves them, and the packet in memory (45_tile.md R191, R194). -/
def State.encodedTile (s : State) : State :=
  { s with
    v := s.tileBlock (s.blocks - 1)
    c := s.tileCoeffs (s.blocks - 1)
    rmin := s.tileMin s.blocks
    rmax := s.tileMax s.blocks
    q := s.tileCodes (s.blocks - 1)
    record := packCodes (s.tileCodes (s.blocks - 1))
    cbuf := s.tileBuf s.blocks
    mem := s.mem.writeAll s.packetWrites
    numerr := s.numerr || (List.range s.blocks).any fun k =>
      quantFlag (s.tileCoeffs k) (s.tileMin s.blocks) (s.tileMax s.blocks) }

theorem encodedTile_mem (s : State) : s.encodedTile.mem = s.mem.writeAll s.packetWrites := by
  rw [State.encodedTile]

/-- What pass 1 leaves is ready for pass 2, when CBUF has room for the tile (10_state.md R47). -/
theorem readyForPass2_afterPass1 {s : State} (hb : s.blocks ≤ s.cbuf.length) (m : Memory) :
    ReadyForPass2 s (s.afterPass1 m) where
  rmin := rfl
  rmax := rfl
  cbuf := fun _ hk => getElem?_tileBuf s hk hb

section
variable {s : State} (hs : s.rbuf = []) (h1 : 1 ≤ s.blocks)
include hs h1

theorem effects_pass1_header :
    effects ([.unit .rangeClr] ++ (List.range s.blocks).flatMap (encPass1 s) ++ hdrStoreOps s) s
      = s.afterPass1 (s.withHeader s.mem (s.tileMin s.blocks) (s.tileMax s.blocks)) := by
  rw [effects_append _ (hdrStoreOps s), effects_pass1 s hs h1, effects_hdrStoreOps]
  simp only [State.afterPass1]

/-- ENC_TILE's body writes the packet of the tile and no other byte. -/
theorem writesOf_encTileOps (hb : s.blocks ≤ s.cbuf.length) :
    writesOf (encTileOps s) s = s.packetWrites := by
  rw [encTileOps, writesOf_append, effects_pass1_header hs h1,
    writesOf_pass2 (readyForPass2_afterPass1 hb _), writesOf_append, writesOf_pass1,
    effects_pass1 s hs h1, hdrStoreOps, writesOf_writes]
  rfl

theorem effects_encTileOps (hb : s.blocks ≤ s.cbuf.length) :
    effects (encTileOps s) s = s.encodedTile := by
  obtain ⟨m, hpass2⟩ := effects_pass2 (readyForPass2_afterPass1 hb _) h1
  have hmem := effects_mem (encTileOps s) s
  rw [writesOf_encTileOps hs h1 hb] at hmem
  rw [State.encodedTile, ← hmem, encTileOps, effects_append, effects_pass1_header hs h1, hpass2]
  simp only [State.afterPass1]

end

/-! ### Memory with the packet of the tile written -/

/-- What one of the bytes written reads as, where no two bytes at its address differ. -/
theorem Memory.read_writeAll_of_mem (l : List (Nat × Byte)) (m : Memory) (a : Nat) (v : Byte)
    (hmem : (a, v) ∈ l) (hsame : ∀ w, (a, w) ∈ l → w = v) : (m.writeAll l).read a = v := by
  induction l generalizing m with
  | nil => cases hmem
  | cons p l ih =>
    rw [Memory.writeAll_cons]
    by_cases hlater : (a, v) ∈ l
    · exact ih _ hlater fun w hw => hsame w (List.mem_cons_of_mem p hw)
    · obtain rfl : (a, v) = p := (List.mem_cons.mp hmem).resolve_right hlater
      rw [Memory.read_writeAll_other _ _ a, Memory.read_write_same]
      rintro ⟨_, w⟩ hw rfl
      exact hlater (hsame w (List.mem_cons_of_mem _ hw) ▸ hw)

theorem mem_packetWrites_iff (s : State) (a : Nat) (v : Byte) :
    (a, v) ∈ s.packetWrites ↔
      (∃ b, s.hdrAddr b = a ∧ hdrByte (s.tileMin s.blocks) (s.tileMax s.blocks) b = v)
        ∨ ∃ k < s.blocks, ∃ b, s.recAddr k b = a
            ∧ byteOf (packCodes (s.tileCodes k)) b.val = v := by
  simp [State.packetWrites, State.recordWrites]

/-- No byte of a record is a header byte (44_packet.md R170). -/
theorem recAddr_ne_hdrAddr (s : State) (k : Nat) (b : Fin 4) (b' : Fin 64) :
    s.recAddr k b ≠ s.hdrAddr b' := by
  unfold State.recAddr State.hdrAddr
  omega

/-- No two records share a byte (44_packet.md R170). -/
theorem recAddr_inj {s : State} {k k' : Nat} {b b' : Fin 4}
    (h : s.recAddr k b = s.recAddr k' b') : k = k' ∧ b = b' := by
  unfold State.recAddr at h
  omega

theorem packetWrites_read_header (s : State) (m : Memory) (b : Fin 64) :
    (m.writeAll s.packetWrites).read (s.hdrAddr b)
      = hdrByte (s.tileMin s.blocks) (s.tileMax s.blocks) b := by
  refine Memory.read_writeAll_of_mem _ m _ _
    ((mem_packetWrites_iff s _ _).mpr (.inl ⟨b, rfl, rfl⟩)) fun w hw => ?_
  rcases (mem_packetWrites_iff s _ w).mp hw with ⟨b', haddr, rfl⟩ | ⟨k, _, b', haddr, _⟩
  · rw [s.hdrAddr_injective haddr]
  · exact absurd haddr (recAddr_ne_hdrAddr s k b' b)

theorem packetWrites_read_record (s : State) (m : Memory) {k : Nat} (hk : k < s.blocks)
    (b : Fin 4) :
    (m.writeAll s.packetWrites).read (s.recAddr k b)
      = byteOf (packCodes (s.tileCodes k)) b.val := by
  refine Memory.read_writeAll_of_mem _ m _ _
    ((mem_packetWrites_iff s _ _).mpr (.inr ⟨k, hk, b, rfl, rfl⟩)) fun w hw => ?_
  rcases (mem_packetWrites_iff s _ w).mp hw with ⟨b', haddr, _⟩ | ⟨k', _, b', haddr, rfl⟩
  · exact absurd haddr.symm (recAddr_ne_hdrAddr s k b b')
  · obtain ⟨rfl, rfl⟩ := recAddr_inj haddr
    rfl

theorem packetWrites_read_other (s : State) (m : Memory) (a : Nat) (hh : ∀ b, s.hdrAddr b ≠ a)
    (hr : ∀ k < s.blocks, ∀ b, s.recAddr k b ≠ a) :
    (m.writeAll s.packetWrites).read a = m.read a := by
  refine Memory.read_writeAll_other _ m a ?_
  rintro ⟨_, v⟩ hp rfl
  rcases (mem_packetWrites_iff s _ v).mp hp with ⟨b, haddr, _⟩ | ⟨k, hk, b, haddr, _⟩
  · exact hh b haddr
  · exact hr k hk b haddr

/-! ### ENC_TILE -/

/-- A tile of valid geometry has a block, and CBUF an entry for each (10_state.md R29, R47). -/
theorem blocks_of_cfgOk {i : Instr} {s : State} (hi : i.needsCfg = true) (hc : i.CfgOk s) :
    1 ≤ s.blocks ∧ s.blocks ≤ s.build.maxBlocks := by
  obtain ⟨hw, hh, hmax⟩ := hc hi
  exact ⟨Nat.mul_pos hw hh, hmax⟩

/-- ENC_TILE on an answered tile and packet (45_tile.md R191, R194). -/
theorem exec_encTile (s : State) (hc : Instr.CfgOk .encTile s) (hz : Instr.SizeOk .encTile s)
    (hbuf : s.cbuf.length = s.build.maxBlocks) (hsp : BodyInSpace (encTileOps s))
    (hans : BodyAnswered s (encTileOps s)) :
    exec .encTile s = .next (complete .ok s.encodedTile) := by
  obtain ⟨h1, hmax⟩ := blocks_of_cfgOk rfl hc
  have heff : effects (encTileOps s) { s with inflight := some (encTileOps s), rbuf := [] }
      = State.encodedTile { s with inflight := some (encTileOps s), rbuf := [] } :=
    effects_encTileOps rfl h1 (hbuf ▸ hmax)
  rw [exec_of_checked .encTile s hc nofun hz hsp hans, Instr.body, heff]
  rfl

/-- Settles O33: pass 1 gathers the range, and pass 2 writes against it the coefficients that pass 1
put into CBUF, at addresses that all differ. -/
theorem encTileEncodesTheTile : Obligations.EncTileEncodesTheTile := by
  intro s hc hz hbuf hpix hhdr hrec
  have hacc : ∀ p ∈ accessSeq (encTileOps s), p.2 < 2 ^ 32 ∧ s.answer p.1 p.2 = .completes := by
    intro p hp
    simp only [accessSeq_encTileOps, State.blockAccesses, State.headerAccesses,
      State.recordAccesses, List.mem_append, List.mem_flatMap, List.mem_map, List.mem_range] at hp
    rcases hp with (⟨k, hk, j, _, rfl⟩ | ⟨b, _, rfl⟩) | ⟨k, hk, b, _, rfl⟩
    · exact hpix k hk j
    · exact hhdr b
    · exact hrec k hk b
  have hexec := exec_encTile s hc hz hbuf (fun p hp => (hacc p hp).1) fun p hp => (hacc p hp).2
  refine ⟨_, hexec, ?_, ?_, ?_, ?_, ?_⟩
  · simp only [complete, ErrCode.bits, State.encodedTile]
  · rw [complete_mem, encodedTile_mem]
    exact packetWrites_read_header s s.mem
  · rw [complete_mem, encodedTile_mem]
    exact fun k hk b => packetWrites_read_record s s.mem hk b
  · rw [complete_mem, encodedTile_mem]
    exact packetWrites_read_other s s.mem
  · simp [State.encodedTile]

end Sys2Proof.Machine
end

section
/-! SUPPORT. DEC_TILE (45_tile.md R192, R194) block by block, and the statelessness of the tile
commands (R193): two runs that write the same bytes in the same order, as far as they come. -/

namespace Sys2Proof.Machine

/-! ### One block of DEC_TILE (45_tile.md R192) -/

/-- The bytes written as the samples of block k (40_vectorizer.md R105). -/
def State.blockWrites (s : State) (k : Nat) (v : BlockVec) : List (Nat × Byte) :=
  (List.finRange 192).map fun j => (s.pixAddr k j, BitVec.ofNat 8 (vecInvSample v[j]).1)

/-- A reconstructed sample of the block a record stands for is a NaN (40_vectorizer.md R104). -/
def State.recordFlag (s : State) (r : Word) : Bool :=
  (List.finRange 192).any fun j => isNaN (s.decodedBlock r)[j]

theorem effects_vecStoreOps (s t : State) (k : Nat) :
    effects (vecStoreOps s k) t =
      { t with
        mem := s.withBlock t.mem k t.v
        numerr := t.numerr || (List.finRange 192).any fun j => isNaN t.v[j] } :=
  effects_sampleWrites _ _ t

/-- A state that the blocks of DEC_TILE run in: the build, the header in RMIN and RMAX, and no bytes
held. -/
structure ReadyForRecords (s t : State) : Prop where
  build : t.build = s.build
  rmin : t.rmin = s.packetMin
  rmax : t.rmax = s.packetMax
  rbuf : t.rbuf = []

/-- A block's work keeps a state ready: it writes none of what it needs. -/
theorem ReadyForRecords.written {s t : State} (ht : ReadyForRecords s t) {v : BlockVec}
    {co : Coeffs} {q : Codes} {r : Word} {m : Memory} {e : Bool} :
    ReadyForRecords s { t with v := v, c := co, q := q, record := r, mem := m, numerr := e } :=
  ⟨ht.build, ht.rmin, ht.rmax, ht.rbuf⟩

/-- The front of a block's work: its record read from memory as it stands, dequantized and
reconstructed. -/
theorem effects_decRecord {s t : State} (ht : ReadyForRecords s t) (k : Nat) :
    effects (recLoadOps s k ++ [.unit .dequant, .unit .projInv]) t =
      { t with
        record := s.recordIn t.mem k
        q := unpackCodes (s.recordIn t.mem k)
        c := s.decodedCoeffs (s.recordIn t.mem k)
        v := s.decodedBlock (s.recordIn t.mem k) } := by
  rw [effects_append, effects_recLoadOps s t k ht.rbuf]
  simp only [effects_cons, effects_nil, opEffect, unitStep, ht.build, ht.rmin, ht.rmax, ht.rbuf,
    State.decodedCoeffs, State.decodedBlock]

theorem effects_decBlock {s t : State} (ht : ReadyForRecords s t) (k : Nat) :
    effects (decBlock s k) t =
      { t with
        record := s.recordIn t.mem k
        q := unpackCodes (s.recordIn t.mem k)
        c := s.decodedCoeffs (s.recordIn t.mem k)
        v := s.decodedBlock (s.recordIn t.mem k)
        mem := s.withBlock t.mem k (s.decodedBlock (s.recordIn t.mem k))
        numerr := t.numerr || s.recordFlag (s.recordIn t.mem k) } := by
  rw [decBlock, effects_append, effects_decRecord ht, effects_vecStoreOps]
  rfl

/-- A block's work reads and computes before it writes the block. -/
theorem writesOf_decBlock {s t : State} (ht : ReadyForRecords s t) (k : Nat) :
    writesOf (decBlock s k) t = s.blockWrites k (s.decodedBlock (s.recordIn t.mem k)) := by
  have hfront : writesOf (recLoadOps s k ++ [.unit .dequant, .unit .projInv]) t = [] := by
    refine writesOf_eq_nil _ t fun op hop u => ?_
    simp only [recLoadOps, List.mem_append, List.mem_map, List.mem_cons, List.not_mem_nil,
      or_false] at hop
    rcases hop with (⟨_, _, rfl⟩ | rfl) | rfl | rfl <;> rfl
  rw [decBlock, writesOf_append, hfront, effects_decRecord ht, vecStoreOps, writesOf_writes]
  rfl

/-! ### The body of DEC_TILE -/

/-- The bytes of the first n blocks of the tile that the packet in memory stands for. -/
def State.tileWrites (s : State) (n : Nat) : List (Nat × Byte) :=
  (List.range n).flatMap fun k => s.blockWrites k (s.decodedBlock (s.decodedRecord k))

theorem decodedMem_succ (s : State) (n : Nat) :
    s.decodedMem (n + 1)
      = s.withBlock (s.decodedMem n) n (s.decodedBlock (s.decodedRecord n)) := by
  simp [State.decodedMem, State.decodedRecord, List.range_succ]

theorem tileWrites_succ (s : State) (n : Nat) :
    s.tileWrites (n + 1)
      = s.tileWrites n ++ s.blockWrites n (s.decodedBlock (s.decodedRecord n)) := by
  simp [State.tileWrites, List.range_succ]

/-- Memory after the first n blocks is the memory before DEC_TILE with their bytes written. -/
theorem decodedMem_eq_writeAll (s : State) (n : Nat) :
    s.decodedMem n = s.mem.writeAll (s.tileWrites n) := by
  induction n with
  | zero => rfl
  | succ n ih =>
    rw [decodedMem_succ, ih, tileWrites_succ, Memory.writeAll_append]
    rfl

/-- The state after n blocks: memory as they left it, and NUMERR of them. -/
theorem effects_decBlock_range {s t : State} (ht : ReadyForRecords s t) (hmem : t.mem = s.mem)
    (n : Nat) :
    ∃ v co q r, effects ((List.range n).flatMap (decBlock s)) t =
      { t with
        v := v
        c := co
        q := q
        record := r
        mem := s.decodedMem n
        numerr := t.numerr || (List.range n).any fun k => s.recordFlag (s.decodedRecord k) } := by
  induction n with
  | zero => exact ⟨t.v, t.c, t.q, t.record, by simp [State.decodedMem, ← hmem]⟩
  | succ n ih =>
    obtain ⟨v, co, q, r, heff⟩ := ih
    exact ⟨_, _, _, _, by
      rw [effects_flatMap_range_succ, heff,
        effects_decBlock ht.written,
        decodedMem_succ, any_range_succ, ← Bool.or_assoc, State.decodedRecord]⟩

/-- The registers as block n - 1 leaves them, and the tile in memory (45_tile.md R192, R194). -/
def State.decodedTile (s : State) : State :=
  { s with
    v := s.decodedBlock (s.decodedRecord (s.blocks - 1))
    c := s.decodedCoeffs (s.decodedRecord (s.blocks - 1))
    rmin := s.packetMin
    rmax := s.packetMax
    q := unpackCodes (s.decodedRecord (s.blocks - 1))
    record := s.decodedRecord (s.blocks - 1)
    mem := s.decodedMem s.blocks
    numerr := s.numerr || (List.range s.blocks).any fun k => s.recordFlag (s.decodedRecord k) }

theorem decodedTile_mem (s : State) : s.decodedTile.mem = s.decodedMem s.blocks := by
  rw [State.decodedTile]

/-- The header loaded. -/
theorem effects_header (s : State) (hs : s.rbuf = []) :
    effects (hdrLoadOps s) s = { s with rmin := s.packetMin, rmax := s.packetMax } := by
  rw [effects_hdrLoadOps s s rfl hs, hs]

/-- What the header leaves is ready for the blocks. -/
theorem readyForRecords_of_header {s : State} (hs : s.rbuf = []) :
    ReadyForRecords s { s with rmin := s.packetMin, rmax := s.packetMax } :=
  ⟨rfl, rfl, rfl, hs⟩

/-- DEC_TILE's body on a tile of at least one block (45_tile.md R192). -/
theorem effects_decTileOps (s : State) (hs : s.rbuf = []) (h1 : 1 ≤ s.blocks) :
    effects (decTileOps s) s = s.decodedTile := by
  obtain ⟨n, hn⟩ : ∃ n, s.blocks = n + 1 := ⟨s.blocks - 1, by omega⟩
  obtain ⟨v, co, q, r, hfront⟩ :=
    effects_decBlock_range (readyForRecords_of_header hs) rfl n
  rw [decTileOps, effects_append, effects_header s hs, State.decodedTile, hn,
    effects_flatMap_range_succ, hfront,
    effects_decBlock (readyForRecords_of_header hs).written, decodedMem_succ, any_range_succ,
    ← Bool.or_assoc, Nat.add_sub_cancel, State.decodedRecord]

/-- DEC_TILE's body writes the tile of the packet and no other byte. -/
theorem writesOf_decTileOps (s : State) (hs : s.rbuf = []) :
    writesOf (decTileOps s) s = s.tileWrites s.blocks := by
  have hheader : writesOf (hdrLoadOps s) s = [] := by
    refine writesOf_eq_nil _ s fun op hop u => ?_
    simp only [hdrLoadOps, List.mem_append, List.mem_map, List.mem_cons, List.not_mem_nil,
      or_false] at hop
    rcases hop with ⟨_, _, rfl⟩ | rfl <;> rfl
  rw [decTileOps, writesOf_append, hheader, List.nil_append, effects_header s hs,
    writesOf_flatMap_range, State.tileWrites]
  refine List.flatMap_congr fun k _ => ?_
  obtain ⟨v, co, q, r, hfront⟩ :=
    effects_decBlock_range (readyForRecords_of_header hs) rfl k
  rw [hfront, writesOf_decBlock (readyForRecords_of_header hs).written, State.decodedRecord]

/-! ### DEC_TILE -/

/-- DEC_TILE on an answered packet and tile (45_tile.md R192, R194). -/
theorem exec_decTile (s : State) (hc : Instr.CfgOk .decTile s) (hz : Instr.SizeOk .decTile s)
    (hsp : BodyInSpace (decTileOps s)) (hans : BodyAnswered s (decTileOps s)) :
    exec .decTile s = .next (complete .ok s.decodedTile) := by
  obtain ⟨h1, -⟩ := blocks_of_cfgOk rfl hc
  have heff : effects (decTileOps s) { s with inflight := some (decTileOps s), rbuf := [] }
      = State.decodedTile { s with inflight := some (decTileOps s), rbuf := [] } :=
    effects_decTileOps _ rfl h1
  rw [exec_of_checked .decTile s hc nofun hz hsp hans, Instr.body, heff]
  rfl

/-- A byte of no pixel of the tile is not written (20_memory.md R65). -/
theorem decodedMem_read_other (s : State) (n a : Nat)
    (h : ∀ k < n, ∀ j, s.pixAddr k j ≠ a) : (s.decodedMem n).read a = s.mem.read a := by
  rw [decodedMem_eq_writeAll]
  refine Memory.read_writeAll_other _ _ a fun p hp => ?_
  simp only [State.tileWrites, State.blockWrites, List.mem_flatMap, List.mem_range,
    List.mem_map] at hp
  obtain ⟨k, hk, j, _, rfl⟩ := hp
  exact h k hk j

/-- Settles O34: each block's record is read from the memory the blocks before it have left. -/
theorem decTileDecodesThePacket : Obligations.DecTileDecodesThePacket := by
  intro s hc hz hhdr hrec hpix
  have hacc : ∀ p ∈ accessSeq (decTileOps s), p.2 < 2 ^ 32 ∧ s.answer p.1 p.2 = .completes := by
    intro p hp
    simp only [accessSeq_decTileOps, State.blockAccesses, State.headerAccesses,
      State.recordAccesses, List.mem_append, List.mem_flatMap, List.mem_map, List.mem_range] at hp
    rcases hp with ⟨b, _, rfl⟩ | ⟨k, hk, ⟨b, _, rfl⟩ | ⟨j, _, rfl⟩⟩
    · exact hhdr b
    · exact hrec k hk b
    · exact hpix k hk j
  have hexec := exec_decTile s hc hz (fun p hp => (hacc p hp).1) fun p hp => (hacc p hp).2
  refine ⟨_, hexec, ?_, ?_, ?_, ?_⟩
  · simp only [complete, ErrCode.bits, State.decodedTile]
  · rw [complete_mem, decodedTile_mem]
    exact fun _ => rfl
  · rw [complete_mem, decodedTile_mem]
    exact decodedMem_read_other s s.blocks
  · simp [State.decodedTile, State.recordFlag]

/-! ### Runs that write the same bytes (45_tile.md R193) -/

/-- From m and m' the same writes in the same order lead to n and n'. -/
def SameWrites (m m' n n' : Memory) : Prop :=
  ∃ l : List (Nat × Byte), n = m.writeAll l ∧ n' = m'.writeAll l

theorem SameWrites.refl (m m' : Memory) : SameWrites m m' m m' := ⟨[], rfl, rfl⟩

theorem SameWrites.prepend {m m' n n' : Memory} (l : List (Nat × Byte))
    (h : SameWrites (m.writeAll l) (m'.writeAll l) n n') : SameWrites m m' n n' := by
  obtain ⟨l', rfl, rfl⟩ := h
  exact ⟨l ++ l', (Memory.writeAll_append ..).symm, (Memory.writeAll_append ..).symm⟩

/-- After the same writes an address holds the same byte, or has not been written. -/
theorem SameWrites.read {m m' n n' : Memory} (h : SameWrites m m' n n') (a : Nat) :
    n.read a = n'.read a ∨ (n.read a = m.read a ∧ n'.read a = m'.read a) := by
  obtain ⟨l, rfl, rfl⟩ := h
  induction l generalizing m m' with
  | nil => exact .inr ⟨rfl, rfl⟩
  | cons p l ih =>
    rcases ih (m := m.write p.1 p.2) (m' := m'.write p.1 p.2) with hsame | ⟨hkept, hkept'⟩
    · exact .inl hsame
    · rw [Memory.writeAll_cons, Memory.writeAll_cons, hkept, hkept', Memory.read_write,
        Memory.read_write]
      split
      · exact .inl rfl
      · exact .inr ⟨rfl, rfl⟩

/-- Where the memories agreed before the same writes, they agree after them. -/
theorem SameWrites.read_eq {m m' n n' : Memory} (h : SameWrites m m' n n') {a : Nat}
    (ha : m.read a = m'.read a) : n.read a = n'.read a := by
  rcases h.read a with hsame | ⟨hkept, hkept'⟩
  · exact hsame
  · rw [hkept, hkept', ha]

/-- Two runs of a body that would write the same bytes, against the same memory answers, do write
the same bytes, though both may stop on the way: they stop at the same access. -/
theorem runOps_sameWrites (ops : List MicroOp) (s s' : State) (hans : s'.answer = s.answer)
    (h : writesOf ops s = writesOf ops s') :
    SameWrites s.mem s'.mem (runOps ops s).mem (runOps ops s').mem := by
  induction ops generalizing s s' with
  | nil => exact SameWrites.refl _ _
  | cons op ops ih =>
    obtain ⟨hop, hops⟩ := List.append_inj h (op.length_writesIn s s')
    rcases doOp_cases op s with ⟨hdo, hacc⟩ | ⟨d, a, hacc, hrefused, -⟩ | ⟨d, a, hacc, hsilent, -⟩
    · have hdo' : doOp op s' = .moved (opEffect op s') :=
        doOp_of_answered op s' (by rw [hans]; exact hacc)
      rw [runOps, runOps, hdo, hdo']
      refine SameWrites.prepend (op.writesIn s) ?_
      have hrest := ih (opEffect op s) (opEffect op s') (by simp [hans]) hops
      rwa [opEffect_mem_eq, opEffect_mem_eq op s', ← hop] at hrest
    · rw [runOps_of_refused op ops s d a hacc hrefused,
        runOps_of_refused op ops s' d a hacc (by rw [hans]; exact hrefused)]
      exact SameWrites.refl _ _
    · rw [runOps_of_silent op ops s d a hacc hsilent,
        runOps_of_silent op ops s' d a hacc (by rw [hans]; exact hsilent)]
      exact SameWrites.refl _ _

/-! ### Two states of the same configuration -/

/-- The configuration registers and the build of `s'` are those of `s` (45_tile.md R193). -/
def SameConfig (s s' : State) : Prop :=
  s' = { s' with
    build := s.build, tileBw := s.tileBw, tileBh := s.tileBh, pixBase := s.pixBase
    pixStride := s.pixStride, pktBase := s.pktBase, pktBuflen := s.pktBuflen }

section
variable {s s' : State} (h : SameConfig s s')
include h

theorem SameConfig.build : s'.build = s.build := by rw [h]

theorem SameConfig.blocks : s'.blocks = s.blocks := by rw [h]; rfl

theorem SameConfig.pixAddr : s'.pixAddr = s.pixAddr := by rw [h]; rfl

theorem SameConfig.hdrAddr : s'.hdrAddr = s.hdrAddr := by rw [h]; rfl

theorem SameConfig.recAddr : s'.recAddr = s.recAddr := by rw [h]; rfl

theorem SameConfig.answer : s'.answer = s.answer := by rw [h]; rfl

theorem SameConfig.failedCheck : failedCheck s' = failedCheck s := by rw [h]; rfl

theorem SameConfig.sizeOk (i : Instr) : i.SizeOk s' ↔ i.SizeOk s := by
  rw [h]
  cases i <;> rfl

theorem SameConfig.body (i : Instr) : i.body s' = i.body s := by
  rw [h]
  cases i <;> rfl

/-- A command begins alike in both states: refused by the same check, or with the same body in
flight (30_encoding.md R88). -/
theorem SameConfig.start_cases (i : Instr) :
    ((start i s).inflight = none ∧ (start i s).mem = s.mem
        ∧ (start i s').inflight = none ∧ (start i s').mem = s'.mem)
      ∨ (i.CfgOk s ∧ start i s = { s with inflight := some (i.body s), rbuf := [] }
          ∧ start i s' = { s' with inflight := some (i.body s), rbuf := [] }) := by
  obtain ⟨z, hz, hstart⟩ := start_eq i s
  obtain ⟨z', hz', hstart'⟩ := start_eq i s'
  obtain rfl : z' = z := Bool.eq_iff_iff.mpr (hz'.trans ((h.sizeOk i).trans hz.symm))
  rw [h.failedCheck, h.body] at hstart'
  rw [hstart, hstart']
  cases hcheck : Machine.failedCheck s i.needsCfg i.blockIndex z' with
  | some code => exact .inl ⟨rfl, rfl, rfl, rfl⟩
  | none =>
    rcases startWith_cases none (i.body s) s with ⟨_, hcode, _⟩ | ⟨a, _, hhigh, _⟩ | ⟨_, hsp, _⟩
    · cases hcode
    · simp only [startWith, hhigh]
      exact .inl ⟨rfl, rfl, rfl, rfl⟩
    · refine .inr ⟨fun hneeds => ?_, startWith_inSpace _ s hsp, startWith_inSpace _ s' hsp⟩
      by_contra hbad
      rw [hneeds, failedCheck_cfg s _ _ (by rwa [← geometryValid_iff, Bool.not_eq_true] at hbad)]
        at hcheck
      cases hcheck

/-- A command whose body would write the same bytes writes the same bytes, as far as it comes. -/
theorem SameConfig.exec_sameWrites (i : Instr) {t t' : State}
    (hwrites : i.CfgOk s →
      writesOf (i.body s) { s with inflight := some (i.body s), rbuf := [] }
        = writesOf (i.body s) { s' with inflight := some (i.body s), rbuf := [] })
    (ht : exec i s = .next t) (ht' : exec i s' = .next t') :
    SameWrites s.mem s'.mem t.mem t'.mem := by
  cases (exec_eq i s).symm.trans ht
  cases (exec_eq i s').symm.trans ht'
  rcases h.start_cases i with ⟨hidle, hmem, hidle', hmem'⟩ | ⟨hc, hstart, hstart'⟩
  · simp only [finish, hidle, hidle', hmem, hmem']
    exact SameWrites.refl _ _
  · rw [hstart, hstart']
    exact runOps_sameWrites (i.body s) _ _ h.answer (hwrites hc)

/-! ### What the written bytes depend on -/

/-- The packet of a tile depends on the pixel bytes alone (45_tile.md R193). -/
theorem SameConfig.packetWrites
    (hpix : ∀ k < s.blocks, ∀ j, s.mem.read (s.pixAddr k j) = s'.mem.read (s.pixAddr k j)) :
    s'.packetWrites = s.packetWrites := by
  have hcoeffs : ∀ k < s.blocks, s'.tileCoeffs k = s.tileCoeffs k := by
    intro k hk
    rw [State.tileCoeffs, State.tileCoeffs, h.build, State.tileBlock, State.tileBlock, h.pixAddr]
    simp only [hpix k hk]
  have hmin : s'.tileMin s.blocks = s.tileMin s.blocks :=
    List.foldl_ext _ _ _ fun lo k hk => by rw [hcoeffs k (List.mem_range.mp hk)]
  have hmax : s'.tileMax s.blocks = s.tileMax s.blocks :=
    List.foldl_ext _ _ _ fun hi k hk => by rw [hcoeffs k (List.mem_range.mp hk)]
  have hrec : ∀ k ∈ List.range s.blocks,
      s'.recordWrites k (packCodes (s'.tileCodes k))
        = s.recordWrites k (packCodes (s.tileCodes k)) := by
    intro k hk
    simp only [State.recordWrites, State.tileCodes, h.recAddr, h.blocks, hmin, hmax,
      hcoeffs k (List.mem_range.mp hk)]
  rw [State.packetWrites, State.packetWrites, h.hdrAddr, h.blocks, hmin, hmax,
    List.flatMap_congr hrec]

/-- The tile of a packet depends on the packet bytes alone: where a record was overwritten by the
pixels of a block before it, it was overwritten alike (45_tile.md R193, 20_memory.md R77). -/
theorem SameConfig.tileWrites
    (hhdr : ∀ b, s.mem.read (s.hdrAddr b) = s'.mem.read (s.hdrAddr b))
    (hrec : ∀ k < s.blocks, ∀ b, s.mem.read (s.recAddr k b) = s'.mem.read (s.recAddr k b))
    {n : Nat} (hn : n ≤ s.blocks) : s'.tileWrites n = s.tileWrites n := by
  have hword : s'.hdrWord = s.hdrWord := by
    funext e
    simp only [State.hdrWord, h.hdrAddr, hhdr]
  have hblock : s'.decodedBlock = s.decodedBlock := by
    funext r
    simp only [State.decodedBlock, State.decodedCoeffs, State.packetMin, State.packetMax, hword,
      h.build]
  induction n with
  | zero => simp [State.tileWrites]
  | succ n ih =>
    have hfront := ih (by omega)
    have hsame : SameWrites s.mem s'.mem (s.decodedMem n) (s'.decodedMem n) :=
      ⟨s.tileWrites n, decodedMem_eq_writeAll s n, hfront ▸ decodedMem_eq_writeAll s' n⟩
    have hrecord : s'.decodedRecord n = s.decodedRecord n := by
      simp only [State.decodedRecord, State.recordIn, h.recAddr, hsame.read_eq (hrec n hn _)]
    rw [tileWrites_succ, tileWrites_succ, hfront, hblock, hrecord, State.blockWrites,
      State.blockWrites, h.pixAddr]

end

/-- What ENC_TILE's body writes from its start, whatever is in flight. -/
theorem writesOf_encTile_start (s : State) (f : Option (List MicroOp))
    (hc : Instr.CfgOk .encTile s) (hbuf : s.cbuf.length = s.build.maxBlocks) :
    writesOf (encTileOps s) { s with inflight := f, rbuf := [] } = s.packetWrites := by
  obtain ⟨h1, hmax⟩ := blocks_of_cfgOk rfl hc
  exact writesOf_encTileOps (s := { s with inflight := f, rbuf := [] }) rfl h1 (hbuf ▸ hmax)

/-- What DEC_TILE's body writes from its start, whatever is in flight. -/
theorem writesOf_decTile_start (s : State) (f : Option (List MicroOp)) :
    writesOf (decTileOps s) { s with inflight := f, rbuf := [] } = s.tileWrites s.blocks :=
  writesOf_decTileOps { s with inflight := f, rbuf := [] } rfl

/-- Settles O35: both runs would write the packet of the same tile, or the tile of the same
packet. -/
theorem tileCommandsAreStateless : Obligations.TileCommandsAreStateless := by
  intro i s s' t t' hdep hbuild hbw hbh hpixb hstride hpktb hlen hbuf hbuf' ht ht' a
  have hconf : SameConfig s s' := by
    rw [SameConfig, hbuild, hbw, hbh, hpixb, hstride, hpktb, hlen]
  refine (hconf.exec_sameWrites i (fun hc => ?_) ht ht').read a
  rcases hdep with ⟨rfl, hpix⟩ | ⟨rfl, hhdr, hrec⟩
  · have hc' : Instr.CfgOk .encTile s' := by rwa [Instr.CfgOk, ← hbuild, ← hbw, ← hbh]
    have hbody : encTileOps s' = encTileOps s := hconf.body .encTile
    rw [Instr.body, writesOf_encTile_start s _ hc hbuf, ← hbody,
      writesOf_encTile_start s' _ hc' hbuf', hconf.packetWrites hpix]
  · have hbody : decTileOps s' = decTileOps s := hconf.body .decTile
    rw [Instr.body, writesOf_decTile_start, ← hbody, writesOf_decTile_start, hconf.blocks,
      hconf.tileWrites hhdr hrec le_rfl]

end Sys2Proof.Machine
end

section
/-! SUPPORT. Completions and errors (60_exceptions.md R210 to R222): the check that a command fails
first, what it completes with, the interrupt output after it, and that no error stops the
machine. -/

namespace Sys2Proof.Machine

/-! ### The first failed check (30_encoding.md R88, R89) -/

/-- The check CFG as `failedCheck` makes it. -/
theorem geometryValid_of_cfgOk {i : Instr} {s : State} (hc : i.CfgOk s)
    (hneeds : i.needsCfg = true) : s.geometryValid = true :=
  (geometryValid_iff s).mpr (hc hneeds)

/-- Behind CFG the check ARG fails first (60_exceptions.md R214). -/
theorem failedCheck_arg (s : State) (cfg : Bool) (k : Nat) (sizeOk : Bool)
    (hc : cfg = true → s.geometryValid = true) (hk : s.blocks ≤ k) :
    failedCheck s cfg (some k) sizeOk = some .arg := by
  cases cfg with
  | false => simp [failedCheck, hk]
  | true => simp [failedCheck, hk, hc rfl]

/-- Behind CFG and ARG the check SIZE fails (60_exceptions.md R215). -/
theorem failedCheck_size (s : State) (cfg : Bool) (arg : Option Nat)
    (hc : cfg = true → s.geometryValid = true) (ha : ∀ k, arg = some k → k < s.blocks) :
    failedCheck s cfg arg false = some .size := by
  have hpass := failedCheck_none s cfg arg true hc ha rfl
  unfold failedCheck at hpass ⊢
  split_ifs at hpass with hcfg harg
  rw [if_neg hcfg, if_neg harg]
  rfl

/-- A command whose first failed check gives `code` completes with it, nothing else changed. -/
theorem exec_of_failedCheck (i : Instr) (s : State) (code : ErrCode)
    (h : ∀ sizeOk : Bool, (sizeOk = true ↔ i.SizeOk s) →
      failedCheck s i.needsCfg i.blockIndex sizeOk = some code) :
    exec i s = .next (complete code s) := by
  obtain ⟨sizeOk, hz, hstart⟩ := start_eq i s
  rw [exec_eq, hstart, h sizeOk hz, startWith_failed, finish_complete]

/-- A command whose checks CFG, ARG and SIZE pass goes on to ADDR. -/
theorem start_of_passed (i : Instr) (s : State) (hc : i.CfgOk s) (ha : i.ArgOk s)
    (hz : i.SizeOk s) : start i s = startWith none (i.body s) s := by
  obtain ⟨sizeOk, hsize, hstart⟩ := start_eq i s
  rw [hstart, failedCheck_none s _ _ sizeOk (geometryValid_of_cfgOk hc) ha (hsize.mpr hz)]

/-- Settles O11: CFG is the first check. -/
theorem invalidGeometryReportsCfg : Obligations.InvalidGeometryReportsCfg := by
  intro i s hneeds hbad
  have hgeo : s.geometryValid = false := by rwa [← geometryValid_iff, Bool.not_eq_true] at hbad
  exact exec_of_failedCheck i s .cfg fun sizeOk _ => hneeds ▸ failedCheck_cfg s _ sizeOk hgeo

/-- Settles O12: ARG is the check after CFG. -/
theorem blockIndexOutOfTileReportsArg : Obligations.BlockIndexOutOfTileReportsArg := by
  intro i s k hi hc hk
  exact exec_of_failedCheck i s .arg fun sizeOk _ =>
    hi ▸ failedCheck_arg s _ k sizeOk (geometryValid_of_cfgOk hc) hk

/-- Settles O13: SIZE is the check after CFG and ARG. -/
theorem unfitBufferLengthReportsSize : Obligations.UnfitBufferLengthReportsSize := by
  intro i s hc ha hz
  refine exec_of_failedCheck i s .size fun sizeOk hsize => ?_
  obtain rfl : sizeOk = false := by rwa [← hsize, Bool.not_eq_true] at hz
  exact failedCheck_size s _ _ (geometryValid_of_cfgOk hc) ha

/-- Settles O14: the last check finds the first address of 2^32 or more before the body is in
flight. -/
theorem highAddressReportsAddr : Obligations.HighAddressReportsAddr := by
  intro i s pre post d a hc ha hz hseq hpre hhigh
  have hfirst : firstHigh (i.body s) = some a := firstHigh_of_split _ pre post d a hseq hpre hhigh
  have hstart : start i s = raiseError .addr a s := by
    rw [start_of_passed i s hc ha hz, startWith, hfirst]
  rw [exec_eq, hstart, finish_raiseError]
  rfl

/-! ### Refused accesses (60_exceptions.md R217) -/

/-- Settles O15: the completion drops what was in flight, which the effects before it do not depend
on. -/
theorem refusedAccessReportsBus : Obligations.RefusedAccessReportsBus := by
  intro i s pre post op d a hc ha hz hsp hsplit hans hacc href
  rw [exec_of_refused i s hc ha hz hsp pre post op d a hsplit hans hacc href,
    effects_with_inflight pre { s with rbuf := [] } (some (i.body s)),
    effects_with_inflight pre { s with rbuf := [] } none]
  rfl

/-! ### The interrupt after a completion (60_exceptions.md R221, R222) -/

/-- A body that is no longer in flight has completed, with or without error. -/
theorem runOps_done_of_idle (ops : List MicroOp) (s : State)
    (h : (runOps ops s).inflight = none) : (runOps ops s).done = true := by
  rcases runOps_cases ops s with ⟨_, hr⟩ | ⟨_, _, _, _, _, _, _, _, _, hr⟩
    | ⟨_, _, _, _, _, _, _, _, _, hr⟩ <;> rw [hr] at h ⊢
  · rfl
  · rfl
  · cases h

/-- A command whose checks leave nothing in flight has completed with the failed one. -/
theorem start_done_of_idle (i : Instr) (s : State) (h : (start i s).inflight = none) :
    (start i s).done = true := by
  obtain ⟨sizeOk, _, hstart⟩ := start_eq i s
  rw [hstart] at h ⊢
  rcases startWith_cases (failedCheck s i.needsCfg i.blockIndex sizeOk) (i.body s) s
    with ⟨_, _, hw⟩ | ⟨_, _, _, hw⟩ | ⟨_, _, hw⟩ <;> rw [hw] at h ⊢
  · rfl
  · rfl
  · cases h

/-- A command run until nothing is in flight has completed, at its checks or in its body. -/
theorem finish_start_done_of_idle (i : Instr) (s : State)
    (h : (finish (start i s)).inflight = none) : (finish (start i s)).done = true := by
  unfold finish at h ⊢
  split at h
  · exact start_done_of_idle i s h
  · exact runOps_done_of_idle _ _ h

/-- Settles O54: a command that is not in flight has completed, and none touches CTRL. -/
theorem completionRaisesTheInterrupt : Obligations.CompletionRaisesTheInterrupt := by
  intro i s t hexec hidle
  have hnone : t.inflight = none := by simpa [State.busy] using hidle
  have hdone : t.done = true := by
    cases (exec_eq i s).symm.trans hexec
    exact finish_start_done_of_idle i s hnone
  have hie : t.ie = s.ie := congrArg HostSide.ie (exec_hostSide i s t hexec)
  exact ⟨hdone, by rw [State.irq, hdone, hie, Bool.true_and]⟩

/-! ### No stuck state (60_exceptions.md R211) -/

/-- A host action lands in a next state, be it a command, an illegal word, or neither. -/
theorem exists_land_eq_next (act : HostAct) (s : State) : ∃ t, land act s = .next t := by
  rcases land_cases act s with ⟨_, _, _, _, h⟩ | ⟨_, _, _, _, h⟩ | ⟨_, _, _, _, h⟩ | ⟨_, h⟩ <;>
    exact ⟨_, h⟩

/-- So does a host action inside the command that the host issues. -/
theorem exists_landDuring_eq_next (w : Word) (act : HostAct) (s : State) :
    ∃ t, landDuring w act s = .next t := by
  rcases landDuring_cases w act s with ⟨_, h⟩ | ⟨_, _, _, h⟩ | ⟨_, _, _, h⟩ <;> rw [h]
  · exact exists_land_eq_next act _
  · obtain ⟨u, hu⟩ := exists_land_eq_next act (performPart (takeUp w { s with reply := .ack }))
    exact ⟨finish u, by rw [hu]; rfl⟩
  · exact exists_land_eq_next act _

/-- Settles O10, over the cases of a step: the engine's work gives a state, even where it waits, and
a host action lands. -/
theorem everyStepHasNextState : Obligations.EveryStepHasNextState := by
  intro s
  rcases step_cases s with ⟨_, h⟩ | ⟨_, _, h⟩ | ⟨act, rest, _, h⟩ | ⟨act, rest, _, h⟩
    | ⟨_, _, _, _, _, h⟩ | ⟨w, act, rest, _, h⟩ <;> rw [h]
  · exact ⟨_, rfl⟩
  · exact ⟨_, rfl⟩
  · exact exists_land_eq_next act _
  · obtain ⟨u, hu⟩ := exists_land_eq_next act { s with events := rest }
    exact ⟨engineTick u, by rw [hu]; rfl⟩
  · exact ⟨_, rfl⟩
  · exact exists_landDuring_eq_next w act _

end Sys2Proof.Machine
end

section
/-! SUPPORT. Reset and hazards (70_reset_and_hazards.md): how a command can begin, the stall at an
access that memory does not answer and the way out of it, the completion that is due when memory
answers (R263), the number of accesses (R263), and the hardware reset (R241). -/

namespace Sys2Proof.Machine

/-! ### How a command begins (30_encoding.md R88) -/

/-- What passed checks say of the state (30_encoding.md R89). -/
theorem failedCheck_eq_none_imp {s : State} {cfg : Bool} {arg : Option Nat} {sizeOk : Bool}
    (h : failedCheck s cfg arg sizeOk = none) :
    (cfg = true → s.geometryValid = true) ∧ (∀ k, arg = some k → k < s.blocks) ∧ sizeOk = true := by
  unfold failedCheck at h
  split_ifs at h with hcfg harg hsize
  refine ⟨fun hc => by simpa [hc] using hcfg, ?_, by simpa using hsize⟩
  rintro k rfl
  simpa using harg

/-- A command completes at one of its checks, or all of them pass and its body is in flight. -/
theorem start_cases (i : Instr) (s : State) :
    (∃ code, start i s = complete code s)
      ∨ (∃ a, start i s = raiseError .addr a s)
      ∨ (i.CfgOk s ∧ i.ArgOk s ∧ i.SizeOk s ∧ BodyInSpace (i.body s)
          ∧ start i s = { s with inflight := some (i.body s), rbuf := [] }) := by
  obtain ⟨sizeOk, hsize, hstart⟩ := start_eq i s
  rw [hstart]
  rcases startWith_cases (failedCheck s i.needsCfg i.blockIndex sizeOk) (i.body s) s
    with ⟨code, _, h⟩ | ⟨a, _, _, h⟩ | ⟨hpass, hsp, h⟩
  · exact .inl ⟨code, h⟩
  · exact .inr (.inl ⟨a, h⟩)
  · obtain ⟨hc, ha, hz⟩ := failedCheck_eq_none_imp hpass
    exact .inr (.inr ⟨fun hn => (geometryValid_iff s).mp (hc hn), ha, hsize.mp hz, hsp, h⟩)

/-! ### The stall (70_reset_and_hazards.md R263) -/

/-- A command whose checks pass runs its body, whatever memory answers. -/
theorem exec_eq_runOps (i : Instr) (s : State) (hc : i.CfgOk s) (ha : i.ArgOk s) (hz : i.SizeOk s)
    (hsp : BodyInSpace (i.body s)) :
    exec i s = .next (runOps (i.body s) { s with inflight := none, rbuf := [] }) := by
  rw [exec_eq, start_of_checked i s hc ha hz hsp]
  exact congrArg _
    (runOps_with_inflight (i.body s) { s with inflight := none, rbuf := [] } (some (i.body s)))

/-- A body whose front is answered, and then an access is not: the effects of the front, and the rest
in flight. -/
theorem runOps_append_of_silent (pre post : List MicroOp) (op : MicroOp) (s : State) (d : Dir)
    (a : Nat) (hans : BodyAnswered s pre) (hacc : op.access = some (d, a))
    (hsil : s.answer d a = .silent) :
    runOps (pre ++ op :: post) s = { effects pre s with inflight := some (op :: post) } := by
  have hthere : (effects pre s).answer d a = .silent := by rw [effects_answer, hsil]
  rw [runOps_append pre _ s hans, runOps_of_silent op post _ d a hacc hthere]

/-- The core engine waits at an access that memory does not answer. -/
theorem engineTick_of_silent (s : State) (op : MicroOp) (rest : List MicroOp) (d : Dir) (a : Nat)
    (hi : s.inflight = some (op :: rest)) (hacc : op.access = some (d, a))
    (hsil : s.answer d a = .silent) : engineTick s = s := by
  simp only [engineTick, hi, doOp_of_silent op s d a hacc hsil]

/-- A write to CTRL with bit 1 set leaves the CORE idle, BUSY or not before it
(70_reset_and_hazards.md R242). -/
theorem hostAct_softReset_busy (s : State) (w : Word) (hr : s.resetPin = false)
    (hw : w.getLsbD 1 = true) : (hostAct (.regWrite 0x010 4 w) s).busy = false := by
  change (writeReg .ctrl w s).busy = false
  rw [writeReg_stored .ctrl w s hr (.inr rfl), storeReg, writeCtrl, if_pos hw]
  rfl

/-- Settles O16: the unanswered piece of work leaves the state as it is, and a soft reset drops what
is in flight. -/
theorem unansweredAccessStallsUntilReset : Obligations.UnansweredAccessStallsUntilReset := by
  intro i s pre post op d a hc ha hz hsp hsplit hans hacc hsil hr
  have hexec := exec_eq_runOps i s hc ha hz hsp
  have hrun := runOps_append_of_silent pre post op { s with inflight := none, rbuf := [] } d a hans
    hacc hsil
  rw [hsplit, hrun] at hexec
  refine ⟨_, hexec, rfl, rfl, fun n => engineTicks_of_fixed n _ ?_, ?_⟩
  · exact engineTick_of_silent _ op post d a rfl hacc
      ((congrFun₂ (effects_answer pre _) d a).trans hsil)
  · have hpin := congrArg HostSide.resetPin
      (effects_hostSide pre { s with inflight := none, rbuf := [] })
    exact hostAct_softReset_busy _ 2 (hpin.trans hr) rfl

/-! ### Completion (70_reset_and_hazards.md R263) -/

/-- A body none of whose accesses stays unanswered does not stay in flight. -/
theorem runOps_inflight_of_not_silent (ops : List MicroOp) (s : State)
    (h : ∀ p ∈ accessSeq ops, s.answer p.1 p.2 ≠ .silent) : (runOps ops s).inflight = none := by
  rcases runOps_cases ops s with ⟨_, hr⟩ | ⟨_, _, _, _, _, _, _, _, _, hr⟩
    | ⟨pre, op, post, d, a, hsplit, _, hacc, hsil, _⟩
  · rw [hr]; rfl
  · rw [hr]; rfl
  · have hmem : (d, a) ∈ accessSeq ops := by
      simp [hsplit, accessSeq_append, accessSeq_cons, hacc]
    exact absurd hsil (h (d, a) hmem)

/-- A command none of whose accesses stays unanswered does not stay in flight. -/
theorem finish_start_inflight_of_not_silent (i : Instr) (s : State)
    (h : ∀ p ∈ accessSeq (i.body s), s.answer p.1 p.2 ≠ .silent) :
    (finish (start i s)).inflight = none := by
  rcases start_cases i s with ⟨code, hs⟩ | ⟨a, hs⟩ | ⟨_, _, _, _, hs⟩ <;> rw [hs]
  · rfl
  · rfl
  · exact runOps_inflight_of_not_silent (i.body s) _ h

/-- Settles O17: the command run to its end is no longer in flight, so it has completed; and its
pieces, run one by one, come to the same. -/
theorem commandCompletesWhenMemoryAnswers : Obligations.CommandCompletesWhenMemoryAnswers := by
  intro i s h
  have hidle := finish_start_inflight_of_not_silent i s h
  exact ⟨finish (start i s), exec_eq i s, congrArg Option.isSome hidle,
    finish_start_done_of_idle i s hidle, engineTicks_eq_finish _ _ le_rfl⟩

/-! ### The number of accesses (70_reset_and_hazards.md R263) -/

@[simp] theorem length_blockAccesses (s : State) (d : Dir) (k : Nat) :
    (s.blockAccesses d k).length = 192 := by simp [State.blockAccesses]

@[simp] theorem length_headerAccesses (s : State) (d : Dir) :
    (s.headerAccesses d).length = 64 := by simp [State.headerAccesses]

@[simp] theorem length_recordAccesses (s : State) (d : Dir) (k : Nat) :
    (s.recordAccesses d k).length = 4 := by simp [State.recordAccesses]

/-- ENC_TILE reads every block, writes the header and writes every record (20_memory.md R64). -/
theorem length_accessSeq_encTileOps (s : State) :
    (accessSeq (encTileOps s)).length = 192 * s.blocks + 64 + 4 * s.blocks := by
  simp only [accessSeq_encTileOps, List.length_append, List.length_flatMap, length_blockAccesses,
    length_headerAccesses, length_recordAccesses, List.map_const', List.length_range,
    List.sum_replicate, smul_eq_mul]
  omega

/-- DEC_TILE reads the header, and reads the record and writes the block of every block
(20_memory.md R64). -/
theorem length_accessSeq_decTileOps (s : State) :
    (accessSeq (decTileOps s)).length = 192 * s.blocks + 64 + 4 * s.blocks := by
  simp only [accessSeq_decTileOps, List.length_append, List.length_flatMap, length_blockAccesses,
    length_headerAccesses, length_recordAccesses, List.map_const', List.length_range,
    List.sum_replicate, smul_eq_mul]
  omega

/-- The tile commands make exactly as many accesses as the bound says. A command on one block makes no
more than that block's share of it, or than the header's; VEC_LOAD and VEC_STORE need that the tile has
a block at all. -/
theorem length_accessSeq_body_le (i : Instr) (s : State) (ha : i.ArgOk s) :
    (accessSeq (i.body s)).length ≤ 192 * s.blocks + 64 + 4 * s.blocks := by
  cases i with
  | encTile => exact (length_accessSeq_encTileOps s).le
  | decTile => exact (length_accessSeq_decTileOps s).le
  | vecLoad k =>
    have hblock : k < s.blocks := ha k rfl
    rw [Instr.body, accessSeq_vecLoadOps, length_blockAccesses]
    omega
  | vecStore k =>
    have hblock : k < s.blocks := ha k rfl
    rw [Instr.body, accessSeq_vecStoreOps, length_blockAccesses]
    omega
  | recStore k => rw [Instr.body, accessSeq_recStoreOps, length_recordAccesses]; omega
  | recLoad k => rw [Instr.body, accessSeq_recLoadOps, length_recordAccesses]; omega
  | hdrStore => rw [Instr.body, accessSeq_hdrStoreOps, length_headerAccesses]; omega
  | hdrLoad => rw [Instr.body, accessSeq_hdrLoadOps, length_headerAccesses]; omega
  | _ => exact Nat.zero_le _

/-- Settles O18: what is in flight is the body, behind a passed check of the block index. -/
theorem accessCountBounded : Obligations.AccessCountBounded := by
  intro i s ops hops
  rcases start_cases i s with ⟨code, hs⟩ | ⟨a, hs⟩ | ⟨_, ha, _, _, hs⟩ <;> rw [hs] at hops
  · cases hops
  · cases hops
  · cases hops
    exact length_accessSeq_body_le i s ha

/-! ### The hardware reset (70_reset_and_hazards.md R241) -/

/-- Of what a reset leaves as it was, the registers show only the build. -/
theorem regValue_coreReset (r : Reg) (s : State) (pin : Bool) (reply : Reply) :
    regValue r { coreReset s with resetPin := pin, reply := reply }
      = regValue r (State.resetOn s.build) := by
  cases r <;> rfl

/-- Settles O53: assertion and release both reset the CORE, and in between the reset input gates
every register. -/
theorem hardwareResetHoldsAndReleases : Obligations.HardwareResetHoldsAndReleases := by
  intro s held freed
  have hread : ∀ r, readReg r held = (Config.unspecified held.draws,
      { held with draws := held.draws + 1 }) := fun _ => if_pos rfl
  have hwrite : ∀ r w, writeReg r w held = held := fun _ _ => if_pos rfl
  have hcurrent : ∀ r, readReg r freed = (regValue r freed, freed) := fun r =>
    readReg_current r freed rfl nofun
  have hvalue : ∀ r, regValue r freed = regValue r (State.resetOn s.build) := fun r =>
    regValue_coreReset r held false .ack
  exact ⟨rfl, engineTick_idle held rfl, rfl, fun r => congrArg Prod.fst (hread r), hwrite,
    rfl, rfl, rfl, rfl, fun r => by rw [hcurrent, hvalue]⟩

end Sys2Proof.Machine
end
